-- ==== Sys2Proof/Word.lean ====
section
/-! DEFINITION. The word types of HUFCORE (00_scope.md R7, R9, R10): every one unsigned, bit 0 the least significant. -/

namespace Sys2Proof

/-- One byte of a stream, and one symbol (P_SYM_W = 8, R7). -/
abbrev Byte := BitVec 8

/-- A node index of the arena (P_IDX_W = 9, R9). -/
abbrev Idx := BitVec 9

/-- One entry of the frequency table (P_FREQ_W = 32, R7). -/
abbrev Freq := BitVec 32

/-- The frequency field of a tree node (P_NFREQ_W = 40, R9). -/
abbrev NodeFreq := BitVec 40

/-- The original length and the event counters (P_LEN_W = 64, R7, R35). -/
abbrev Count := BitVec 64

/-- The data field of a response and a status register (R43, R90). -/
abbrev Data := BitVec 32

/-- A command word (P_CMD_W = 48, R85). -/
abbrev CmdWord := BitVec 48

/-- A response word (P_RSP_W = 36, R90). -/
abbrev RspWord := BitVec 36

/-- The sentinel index "no child", "no node" (R25). -/
abbrev NIL : Idx := 0x1FF#9

end Sys2Proof
end

