-- ==== Sys2Proof/Syntax.lean ====
section
/-! DEFINITION. The 24 commands of HUFCORE, one constructor per row of spec/opcode_table.json (30_encoding.md R93). -/

namespace Sys2Proof

/-- A command. Index operands (`a`, `b`) and selectors (`S`) are unsigned integers compared with ranges and used as positions, so
they are numbers; the data operand `D` of format AD is 32 bits used whole (30_encoding.md R87, R88). -/
inductive Instr where
  /-- `NOP`: do nothing (46_access.md R216). -/
  | nop
  /-- `CLR`: return every piece of state to its reset value (R217). -/
  | clr
  /-- `RDSR A`: read status register A (R219). -/
  | rdsr (a : Nat)
  /-- `WRLEN A, D`: load one half of ORIGLEN (R221). -/
  | wrlen (a : Nat) (d : Data)
  /-- `RDF A`: read one frequency-table entry (R223). -/
  | rdf (a : Nat)
  /-- `WRF A, D`: load one frequency-table entry (R224). -/
  | wrf (a : Nat) (d : Data)
  /-- `COUNT`: open the count pass (45_header.md R196). -/
  | count
  /-- `END`: close the count pass or the encode pass (43_bitpack.md R166). -/
  | endPass
  /-- `RDHDR`: read a container header from din (R204). -/
  | rdhdr
  /-- `WRHDR`: write the container header to dout (R201). -/
  | wrhdr
  /-- `BUILD`: build the Huffman tree of FREQ (41_tree.md R139). -/
  | build
  /-- `GENCODE`: generate the code table of the current tree (42_codegen.md R151). -/
  | gencode
  /-- `ENCODE`: open the encode pass (R161). -/
  | encode
  /-- `DECODE`: decode ORIGLEN symbols (44_bitunpack.md R181). -/
  | decode
  /-- `NLEAF s`: allocate one leaf from the frequency table (R135). -/
  | nleaf (a : Nat)
  /-- `NMRG a, b`: the node merger, `a` left and `b` right (R136). -/
  | nmrg (a b : Nat)
  /-- `HAPP a`: append a node to the heap array without sifting (40_heap.md R116). -/
  | happ (a : Nat)
  /-- `HINS a`: insert a node into the heap (R117). -/
  | hins (a : Nat)
  /-- `HEXT`: extract the minimum (R118). -/
  | hext
  /-- `HBLD`: make the array a heap (R119). -/
  | hbld
  /-- `SETROOT a`: declare an arena entry to be the root (R137). -/
  | setroot (a : Nat)
  /-- `RDN A, S`: read field S of arena entry A (R226). -/
  | rdn (a sel : Nat)
  /-- `RDH A`: read heap position A (R229). -/
  | rdh (a : Nat)
  /-- `RDC A, S`: read the code of symbol A (R232). -/
  | rdc (a sel : Nat)
  deriving DecidableEq, Repr

end Sys2Proof
end

