-- ==== Sys2Proof/WellFormed.lean ====
section
/-! DEFINITION. Which commands have an encoding: each operand fits its field of the command word (30_encoding.md R85 to R88). -/

namespace Sys2Proof

/-- An index operand fits field A, or `b` of format AB: 10 bits, unsigned (R87, R88). -/
abbrev fitsIndex (a : Nat) : Prop := a < 1024

/-- A selector operand fits `S = D[3:0]` of format AS (R88). -/
abbrev fitsSelector (sel : Nat) : Prop := sel < 16

/-- The command can be written as a command word. Being in range for its command (R249) is not asked: an out-of-range operand
is encodable and faults when executed (R87). -/
def WellFormed : Instr → Bool
  | .nop => true
  | .clr => true
  | .rdsr a => fitsIndex a
  | .wrlen a _ => fitsIndex a
  | .rdf a => fitsIndex a
  | .wrf a _ => fitsIndex a
  | .count => true
  | .endPass => true
  | .rdhdr => true
  | .wrhdr => true
  | .build => true
  | .gencode => true
  | .encode => true
  | .decode => true
  | .nleaf a => fitsIndex a
  | .nmrg a b => decide (fitsIndex a) && decide (fitsIndex b)
  | .happ a => fitsIndex a
  | .hins a => fitsIndex a
  | .hext => true
  | .hbld => true
  | .setroot a => fitsIndex a
  | .rdn a sel => decide (fitsIndex a) && decide (fitsSelector sel)
  | .rdh a => fitsIndex a
  | .rdc a sel => decide (fitsIndex a) && decide (fitsSelector sel)

end Sys2Proof
end

