-- ==== Sys2Proof/Decode.lean ====
section
/-! DEFINITION. Decoding and encoding of command words (30_encoding.md R85 to R95). -/

namespace Sys2Proof

/-- Why a command word is illegal (R94: "there is no third class"). Both fault with E_ILLCMD. -/
inductive Illegal where
  /-- The opcode is one of the 40 reserved values (R94). -/
  | reservedOp
  /-- The opcode is assigned and a bit that its format requires to be 0 is 1 (R89). -/
  | mustBeZero
  deriving DecidableEq, Repr

/-- What a command word decodes to. -/
inductive Decoded where
  | instr (i : Instr)
  | illegal (r : Illegal)
  deriving DecidableEq, Repr

/-- OP = w[47:42] (R85). -/
def opField (w : CmdWord) : BitVec 6 := w.extractLsb' 42 6

/-- A = w[41:32] (R85). -/
def aField (w : CmdWord) : BitVec 10 := w.extractLsb' 32 10

/-- D = w[31:0] (R85). -/
def dField (w : CmdWord) : BitVec 32 := w.extractLsb' 0 32

/-- b = D[9:0] (format AB, R88). -/
def bField (w : CmdWord) : BitVec 10 := w.extractLsb' 0 10

/-- S = D[3:0] (format AS, R88). -/
def sField (w : CmdWord) : BitVec 4 := w.extractLsb' 0 4

/-- Format N: A and D must be 0 (R86). -/
def formatN (w : CmdWord) (i : Instr) : Decoded :=
  if aField w = 0#10 ∧ dField w = 0#32 then .instr i else .illegal .mustBeZero

/-- Format A: D must be 0 (R86). -/
def formatA (w : CmdWord) (mk : Nat → Instr) : Decoded :=
  if dField w = 0#32 then .instr (mk (aField w).toNat) else .illegal .mustBeZero

/-- Format AD: no must-be-zero bit (R86). -/
def formatAD (w : CmdWord) (mk : Nat → Data → Instr) : Decoded :=
  .instr (mk (aField w).toNat (dField w))

/-- Format AB: D[31:10] must be 0 (R86). -/
def formatAB (w : CmdWord) (mk : Nat → Nat → Instr) : Decoded :=
  if w.extractLsb' 10 22 = 0#22 then .instr (mk (aField w).toNat (bField w).toNat) else .illegal .mustBeZero

/-- Format AS: D[31:4] must be 0 (R86). -/
def formatAS (w : CmdWord) (mk : Nat → Nat → Instr) : Decoded :=
  if w.extractLsb' 4 28 = 0#28 then .instr (mk (aField w).toNat (sField w).toNat) else .illegal .mustBeZero

/-- Steps 1 and 2 of R92: look the opcode up in the map of R93, then test the must-be-zero bits of its format. A function of the
word alone (R95). -/
def decode (w : CmdWord) : Decoded :=
  match (opField w).toNat with
  | 0x01 => formatN w .nop
  | 0x02 => formatN w .clr
  | 0x03 => formatA w .rdsr
  | 0x04 => formatAD w .wrlen
  | 0x05 => formatA w .rdf
  | 0x06 => formatAD w .wrf
  | 0x08 => formatN w .count
  | 0x09 => formatN w .endPass
  | 0x0A => formatN w .rdhdr
  | 0x0B => formatN w .wrhdr
  | 0x0C => formatN w .build
  | 0x0D => formatN w .gencode
  | 0x0E => formatN w .encode
  | 0x0F => formatN w .decode
  | 0x10 => formatA w .nleaf
  | 0x11 => formatAB w .nmrg
  | 0x12 => formatA w .happ
  | 0x13 => formatA w .hins
  | 0x14 => formatN w .hext
  | 0x15 => formatN w .hbld
  | 0x16 => formatA w .setroot
  | 0x18 => formatAS w .rdn
  | 0x19 => formatA w .rdh
  | 0x1A => formatAS w .rdc
  | _ => .illegal .reservedOp

/-- The opcode of a command (R93). -/
def opcode : Instr → BitVec 6
  | .nop => 0x01#6
  | .clr => 0x02#6
  | .rdsr _ => 0x03#6
  | .wrlen _ _ => 0x04#6
  | .rdf _ => 0x05#6
  | .wrf _ _ => 0x06#6
  | .count => 0x08#6
  | .endPass => 0x09#6
  | .rdhdr => 0x0A#6
  | .wrhdr => 0x0B#6
  | .build => 0x0C#6
  | .gencode => 0x0D#6
  | .encode => 0x0E#6
  | .decode => 0x0F#6
  | .nleaf _ => 0x10#6
  | .nmrg _ _ => 0x11#6
  | .happ _ => 0x12#6
  | .hins _ => 0x13#6
  | .hext => 0x14#6
  | .hbld => 0x15#6
  | .setroot _ => 0x16#6
  | .rdn _ _ => 0x18#6
  | .rdh _ => 0x19#6
  | .rdc _ _ => 0x1A#6

/-- The number in field A; 0 in format N (R86). -/
def operandA : Instr → Nat
  | .nop | .clr | .count | .endPass | .rdhdr | .wrhdr | .build | .gencode | .encode | .decode | .hext | .hbld => 0
  | .rdsr a | .rdf a | .nleaf a | .happ a | .hins a | .setroot a | .rdh a => a
  | .wrlen a _ | .wrf a _ | .nmrg a _ | .rdn a _ | .rdc a _ => a

/-- Field D; 0 in formats N and A (R86). -/
def operandD : Instr → Data
  | .nop | .clr | .count | .endPass | .rdhdr | .wrhdr | .build | .gencode | .encode | .decode | .hext | .hbld => 0#32
  | .rdsr _ | .rdf _ | .nleaf _ | .happ _ | .hins _ | .setroot _ | .rdh _ => 0#32
  | .wrlen _ d | .wrf _ d => d
  | .nmrg _ b => BitVec.ofNat 32 b
  | .rdn _ sel | .rdc _ sel => BitVec.ofNat 32 sel

/-- The command word of a command: `(OP << 42) | (a << 32) | d` (R97). -/
def encode (i : Instr) : CmdWord :=
  (opcode i ++ BitVec.ofNat 10 (operandA i) : BitVec 16) ++ operandD i

/-- `{OP[5:0], A[9:0]}` of a command word, zero-extended: the command form of ERRINFO (60_exceptions.md R245). -/
def commandInfo (w : CmdWord) : Data := (w.extractLsb' 32 16).setWidth 32

/-- The instruction the decoder reads from the first `nbits` bits of `w`, the bits above them 0. A command is one 48-bit word taken whole
on its port (20_memory.md R65), so there is no byte order to lay out. -/
def decodeTableWord (nbits w : Nat) : Option Instr :=
  match decode (BitVec.ofNat 48 (w % 2 ^ nbits)) with
  | .instr i => some i
  | .illegal _ => none

end Sys2Proof
end

