-- ==== Sys2Proof/Config.lean ====
section
/-! DEFINITION. What is fixed when the block is built (00_scope.md R7 to R9), and the free values. -/

namespace Sys2Proof

/-- The two values of the build parameter P_HDR_ENDIAN (20_memory.md R64). -/
inductive Endian where
  | little
  | big
  deriving DecidableEq, Repr

/-- P_HDR_ENDIAN of this hardware (R9, R64): the value that `State.reset` holds. The parameter is open (92 D10), so every operation takes
it from the state it is given. Log entry 4. -/
def Config.hdrEndian : Endian := .little

/-- P_ID, the identification word of SR0 (R2, R46). -/
def Config.pId : Data := 0x48554601#32

/-- P_PLACEHOLDER_SYM, the symbol field of an internal node (R9, R132). -/
def Config.placeholderSym : Byte := 0x00#8

/-- P_NSYMS, the entries of the frequency table and of the code table (R7). -/
abbrev Config.nSyms : Nat := 256

/-- P_HDR_BYTES, the bytes of the container header (R7). -/
abbrev Config.hdrBytes : Nat := 1032

/-- P_HEAP_MAX, the capacity of the heap array (R8). -/
abbrev Config.heapMax : Nat := 256

/-- P_NODE_MAX, the capacity of the arena (R8). -/
abbrev Config.nodeMax : Nat := 511

/-- FREE VALUE: the frequency field an unallocated arena entry holds (10_state.md R42: "unspecified values"). Log entry 5. -/
opaque Config.staleFreq : Nat → NodeFreq

/-- FREE VALUE: the symbol field an unallocated arena entry holds (R42). Log entry 5. -/
opaque Config.staleSym : Nat → Byte

/-- FREE VALUE: the left child an unallocated arena entry holds (R42). Log entry 5. -/
opaque Config.staleLeft : Nat → Idx

/-- FREE VALUE: the right child an unallocated arena entry holds (R42). Log entry 5. -/
opaque Config.staleRight : Nat → Idx

/-- FREE VALUE: the owned bit an unallocated arena entry holds (R42). Log entry 5. -/
opaque Config.staleOwned : Nat → Bool

/-- FREE VALUE: the index a heap position at or above HEAP_SIZE holds (R42). Log entry 5. -/
opaque Config.staleHeap : Nat → Idx

end Sys2Proof
end

