-- ==== Sys2Proof/Machine/State.lean ====
section
/-! DEFINITION. The state of HUFCORE (10_state.md), all plain data, and its value right after reset (R55). -/

namespace Sys2Proof.Machine

/-- PHASE, the sequencer register: the seven values that are ever held (R40; the others are left out, 93 U11). -/
inductive Phase where
  | idle
  | count
  | encode
  | rdhdr
  | decode
  | drain
  | err
  deriving DecidableEq, Repr

/-- ERRCODE: no fault, or one of the eleven fault codes (60_exceptions.md R241). -/
inductive ErrCode where
  | ok
  | illCmd
  | seq
  | range
  | freqOvf
  | heapEmpty
  | heapFull
  | arenaFull
  | noCode
  | noTree
  | owned
  | zeroFreq
  deriving DecidableEq, Repr

/-- One entry of the arena (R23). A leaf has `left = right = NIL`; an internal node has two children (R25). -/
structure Node where
  freq : NodeFreq
  sym : Byte
  left : Idx
  right : Idx
  owned : Bool
  deriving DecidableEq, Repr

/-- CODE_LEN and CODE_BITS (R32): the code of symbol `s` has `len[s]` bits, left-aligned in `bits[s]`, first path bit in bit 255. -/
structure CodeTable where
  len : Vector (BitVec 8) 256
  bits : Vector (BitVec 256) 256
  deriving DecidableEq, Repr

/-- One coming rising edge of `clk` (R20): the levels the host drives on the input ports, or the block's own internal step (R15).
Plain data that says what happens next; log entries 2 and 3. -/
inductive Edge where
  /-- `rst` is high: the `Reset` step and no other (R270). -/
  | reset
  /-- The host's levels: `dout_ready`; the byte on din when `din_valid` is high; the word on cmd when `cmd_valid` is high. -/
  | ports (doutReady : Bool) (din : Option Byte) (cmd : Option CmdWord)
  /-- The block takes its internal step, `Emit1` or `DrainDone`, if one is enabled. -/
  | internal
  deriving DecidableEq, Repr

/-- The state: every register of 10_state.md under its own name, the response pins, and the host's side. -/
structure State where
  /-- P_HDR_ENDIAN (00_scope.md R9, 20_memory.md R64): the build parameter, which R48 makes no state of the block but an argument of every
  step. It is carried here because `exec` and `step` take nothing else; no step writes it. Log entry 4. -/
  hdrEndian : Endian
  /-- FREQ[0..255] (R21). -/
  freq : Vector Freq 256
  /-- ORIGLEN (R22). -/
  origLen : Count
  /-- NODE[0 .. NODE_CNT-1] (R23, R24); entries above are left out, which is exact (R42). -/
  nodes : List Node
  /-- HEAP[0 .. HEAP_SIZE-1] (R26); positions above are left out, which is exact (R42). -/
  heap : List Idx
  /-- ROOT (R28). -/
  root : Idx
  /-- NSYM (R29). -/
  nsym : BitVec 9
  /-- TREE_VALID (R30). -/
  treeValid : Bool
  /-- CODE_VALID (R31). -/
  codeValid : Bool
  /-- CODE_LEN and CODE_BITS (R32). -/
  codes : CodeTable
  /-- ACC (R33). -/
  acc : BitVec 8
  /-- ACC_CNT (R33). -/
  accCnt : BitVec 3
  /-- CUR (R34). -/
  cur : Idx
  /-- IN_CNT (R35). -/
  inCnt : Count
  /-- OUT_CNT (R35). -/
  outCnt : Count
  /-- EMIT_CNT (R35). -/
  emitCnt : Count
  /-- OQ, head first (R38). -/
  oq : List Byte
  /-- ERRCODE (R39). -/
  errCode : ErrCode
  /-- ERRINFO (R39). -/
  errInfo : Data
  /-- PHASE (R40). -/
  phase : Phase
  /-- The pins rsp_valid and rsp_word at the last edge: the response word pulsed there, if one was (R54). -/
  rsp : Option RspWord
  /-- The coming edges (the host's side and the timing of internal steps; not the block's: R48, log entries 2 and 3). -/
  edges : List Edge
  /-- The response words emitted so far, oldest first: what the host observed (R16; the host's side, log entry 2). -/
  rspLog : List RspWord
  /-- The bytes taken on dout so far, oldest first: what the host observed (R16; the host's side, log entry 2). -/
  doutLog : List Byte
  deriving DecidableEq, Repr

/-- Why the machine stops. The faults of the SPEC (R241) are not here: they are taken, as next states in phase ERR. -/
inductive Fault where
  /-- Raised by `GENCODE` alone, when its traversal (42_codegen.md R153) meets a walk of the arena that never ends. No reachable
  state raises it: a child's index is below its parent's (10_state.md R27 (a)). Safe: the model stops where the spec gives nothing.
  Log entry 8. -/
  | endlessWalk
  deriving DecidableEq, Repr

/-- Why an instruction is refused. -/
inductive Refusal where
  /-- Raised by a dispatch arm whose instruction has no meaning yet. Safe. No arm uses it: every instruction has its meaning. -/
  | notModelled (mnemonic : String)
  deriving DecidableEq, Repr

/-- The state right after reset (R55, R270). The spec gives every value but the code table's, which it leaves unspecified and
unobservable (R42): 0, DESIGN CHOICE, log entry 6. The host presents nothing and has observed nothing (log entry 2).
P_HDR_ENDIAN is this hardware's; a block built with the other value starts in this state with the other one (log entry 4). -/
def State.reset : State where
  hdrEndian := Config.hdrEndian
  freq := Vector.replicate 256 0#32
  origLen := 0#64
  nodes := []
  heap := []
  root := NIL
  nsym := 0#9
  treeValid := false
  codeValid := false
  codes := { len := Vector.replicate 256 0#8, bits := Vector.replicate 256 0#256 }
  acc := 0#8
  accCnt := 0#3
  cur := NIL
  inCnt := 0#64
  outCnt := 0#64
  emitCnt := 0#64
  oq := []
  errCode := .ok
  errInfo := 0#32
  phase := .idle
  rsp := none
  edges := []
  rspLog := []
  doutLog := []

end Sys2Proof.Machine
end

