-- ==== Sys2Proof/Machine/Ops.lean ====
section
/-! DEFINITION. The named operations over the state that every command and beat uses: access to the arrays, responses, the output
queue, the fault primitive and the return from it, and the checks of a command. -/

namespace Sys2Proof.Machine

/-- The outcome of a step of this machine. -/
abbrev Out := Host.Outcome State Fault Refusal

/-! ## Encodings of the enumerations -/

/-- The value of a fault code (60_exceptions.md R241). -/
def ErrCode.toBits : ErrCode → BitVec 4
  | .ok => 0#4
  | .illCmd => 1#4
  | .seq => 2#4
  | .range => 3#4
  | .freqOvf => 4#4
  | .heapEmpty => 5#4
  | .heapFull => 6#4
  | .arenaFull => 7#4
  | .noCode => 8#4
  | .noTree => 9#4
  | .owned => 10#4
  | .zeroFreq => 11#4

/-- The value of PHASE (10_state.md R40). -/
def Phase.toBits : Phase → BitVec 4
  | .idle => 0#4
  | .count => 1#4
  | .encode => 2#4
  | .rdhdr => 3#4
  | .decode => 4#4
  | .drain => 5#4
  | .err => 15#4

/-! ## The arrays -/

/-- `FREQ[a]` (R21). Every command tests `a < 256` first (R249). -/
def State.freqAt (s : State) (a : Nat) : Freq := (s.freq[a]?).getD 0#32

/-- `FREQ[a] <- v` (R21). -/
def State.setFreq (s : State) (a : Nat) (v : Freq) : State := { s with freq := s.freq.setIfInBounds a v }

/-- NODE_CNT: the number of allocated arena entries (R24, R42). -/
def State.nodeCnt (s : State) : Nat := s.nodes.length

/-- HEAP_SIZE: the number of live heap entries (R26, R42). -/
def State.heapSize (s : State) : Nat := s.heap.length

/-- What an unallocated arena entry holds: any value (R42). Free values; log entry 5. -/
def staleNode (n : Nat) : Node :=
  { freq := Config.staleFreq n, sym := Config.staleSym n, left := Config.staleLeft n, right := Config.staleRight n,
    owned := Config.staleOwned n }

/-- `NODE[n]` in an arena of which `nodes` is the allocated part (R23, R42). -/
def nodeOf (nodes : List Node) (n : Nat) : Node := (nodes[n]?).getD (staleNode n)

/-- `NODE[n]` (R23). -/
def State.nodeAt (s : State) (n : Nat) : Node := nodeOf s.nodes n

/-- `leaf(n)`: "NODE[n].left = NIL" (R25). -/
def Node.isLeaf (n : Node) : Bool := n.left == NIL

/-- `leaf(ROOT)` (R25, R28). -/
def State.rootIsLeaf (s : State) : Bool := (s.nodeAt s.root.toNat).isLeaf

/-- `HEAP[i]` in a heap array of which `h` is the live part (R26, R42). -/
def heapGet (h : List Idx) (i : Nat) : Idx := (h[i]?).getD (Config.staleHeap i)

/-- `HEAP[i]` (R26). -/
def State.heapAt (s : State) (i : Nat) : Idx := heapGet s.heap i

/-- `CODE_LEN[a]` (R32). -/
def State.codeLenAt (s : State) (a : Nat) : BitVec 8 := (s.codes.len[a]?).getD 0#8

/-- `CODE_BITS[a]` (R32). -/
def State.codeBitsAt (s : State) (a : Nat) : BitVec 256 := (s.codes.bits[a]?).getD 0#256

/-! ## Streams and responses (00_scope.md R12) -/

/-- `OqPush(b)`: append at the tail of OQ and add 1 to OUT_CNT (R12, R35). -/
def State.oqPush (s : State) (b : Byte) : State := { s with oq := s.oq ++ [b], outCnt := s.outCnt + 1#64 }

/-- `OqPush` of each byte in order. -/
def State.oqPushAll (s : State) (bs : List Byte) : State :=
  { s with oq := s.oq ++ bs, outCnt := s.outCnt + BitVec.ofNat 64 bs.length }

/-- The response word `{err, data}` (30_encoding.md R90). -/
def responseWord (code : ErrCode) (data : Data) : RspWord := code.toBits ++ data

/-- `respond(err, data)`: the response word is pulsed on the response port, and the host has seen it (R12, R54, R16). -/
def State.respond (s : State) (code : ErrCode) (data : Data) : State :=
  { s with rsp := some (responseWord code data), rspLog := s.rspLog ++ [responseWord code data] }

/-! ## Pins that gate steps (10_state.md R49 to R53) -/

/-- `cmd_ready` (R49). -/
def State.cmdReady (s : State) : Bool :=
  match s.phase with
  | .idle | .count | .encode | .err => true
  | .rdhdr | .decode | .drain => false

/-- `din_ready` (R50). -/
def State.dinReady (s : State) : Bool :=
  match s.phase with
  | .count | .encode | .rdhdr => true
  | .decode => !s.rootIsLeaf
  | .idle | .drain | .err => false

/-- `dout_valid` (R51). -/
def State.doutValid (s : State) : Bool := !s.oq.isEmpty

/-- `dout_data`: the head of OQ while `dout_valid` is high (R51). -/
def State.doutData (s : State) : Option Byte := s.oq.head?

/-- `busy` (R52). -/
def State.busy (s : State) : Bool :=
  match s.phase with
  | .idle | .err => false
  | .count | .encode | .rdhdr | .decode | .drain => true

/-- `err` (R53). -/
def State.errPin (s : State) : Bool := s.phase == .err

/-! ## Faults (60_exceptions.md R244 to R247) and the return from them -/

/-- What a fault writes: ERRCODE, ERRINFO and PHASE <- ERR; in phase ERR nothing, the first fault is kept (R244, R251). -/
def State.recordFault (s : State) (code : ErrCode) (info : Data) : State :=
  match s.phase with
  | .err => s
  | .idle | .count | .encode | .rdhdr | .decode | .drain => { s with errCode := code, errInfo := info, phase := .err }

/-- `fault(code)` of the `Cmd` step of word `w`: the command form of ERRINFO, and the response `{code, 0}` (R244, R245). -/
def State.cmdFault (s : State) (w : CmdWord) (code : ErrCode) : State :=
  (s.recordFault code (commandInfo w)).respond code 0#32

/-- ERRINFO of a beat fault: bit 31 and the byte (R245). -/
def beatInfo (b : Byte) : Data := 0x80000000#32 ||| b.setWidth 32

/-- `fault(code, beat b)` of a `Din` step: no response (R244, R245, R246). -/
def State.beatFault (s : State) (b : Byte) (code : ErrCode) : State := s.recordFault code (beatInfo b)

/-- Every piece of state at its value of the table R55: what `Reset` (R270) and `CLR` (46_access.md R217) do, and so the return from
phase ERR (R250). The code table is "not cleared by either" (R270) and stays as it was (log entry 6); the build parameter and the host's side
stay. -/
def State.cleared (s : State) : State :=
  { State.reset with
    hdrEndian := s.hdrEndian
    codes := s.codes
    rsp := s.rsp
    edges := s.edges
    rspLog := s.rspLog
    doutLog := s.doutLog }

/-! ## The checks of a command (30_encoding.md R92) -/

/-- `require c else fault(code)`: the rest of the command where `c` holds, else the fault of command `i` (R13, R244). -/
def require (c : Prop) [Decidable c] (code : ErrCode) (i : Instr) (s : State) (rest : Out) : Out :=
  if c then rest else .next (s.cmdFault (encode i) code)

/-- Step 3 of R92. Where no command is accepted (phases RDHDR, DECODE, DRAIN) a presented command waits and nothing happens (R49);
else the phase rule of R96 is tested. -/
def inPhases (allowed : Phase → Bool) (i : Instr) (s : State) (rest : Out) : Out :=
  if s.cmdReady then require (allowed s.phase = true) .seq i s rest else .next s

/-- The phases of an IDLE-only command (R96). -/
def idleOnly : Phase → Bool
  | .idle => true
  | .count | .encode | .rdhdr | .decode | .drain | .err => false

/-- The phases of `CLR` and of the array reads (R96). -/
def idleOrErr : Phase → Bool
  | .idle | .err => true
  | .count | .encode | .rdhdr | .decode | .drain => false

/-- The phases of `RDSR`: every phase in which a command is accepted (R96, R219). -/
def anyAccepting : Phase → Bool
  | .idle | .count | .encode | .err => true
  | .rdhdr | .decode | .drain => false

/-- The phases of `END` (R96, R166). -/
def countOrEncode : Phase → Bool
  | .count | .encode => true
  | .idle | .rdhdr | .decode | .drain | .err => false

end Sys2Proof.Machine
end

