-- ==== Sys2Proof/Machine/Flags.lean ====
section
/-! DEFINITION. The flags TREE_VALID and CODE_VALID (10_state.md R30, R31) and the STATUS word (R45). There are no arithmetic
condition codes (R31). -/

namespace Sys2Proof.Machine

/-- `DropTree()` (41_tree.md R130). -/
def State.dropTree (s : State) : State :=
  { s with nodes := [], heap := [], root := NIL, nsym := 0#9, treeValid := false, codeValid := false }

/-- `ROOT <- NIL ; TREE_VALID <- 0 ; CODE_VALID <- 0`: what a change of the arena withdraws (R135, R136, R276). -/
def State.withdrawTree (s : State) : State := { s with root := NIL, treeValid := false, codeValid := false }

/-- `ROOT <- a ; TREE_VALID <- 1 ; CODE_VALID <- 0` (R137). -/
def State.declareRoot (s : State) (a : Idx) : State := { s with root := a, treeValid := true, codeValid := false }

/-- STATUS.ROOT_NIL (R45). -/
def State.rootNil (s : State) : Bool := s.root == NIL

/-- STATUS.ROOT_LEAF: "1 when ROOT != NIL and leaf(ROOT)" (R45). -/
def State.rootLeaf (s : State) : Bool := !s.rootNil && s.rootIsLeaf

/-- SR1 STATUS, most significant field first (R45). -/
def State.status (s : State) : Data :=
  0#8 ++ s.acc ++ s.accCnt ++ BitVec.ofBool s.doutValid ++ BitVec.ofBool s.rootLeaf ++ BitVec.ofBool s.rootNil
    ++ BitVec.ofBool s.codeValid ++ BitVec.ofBool s.treeValid ++ s.errCode.toBits ++ s.phase.toBits

end Sys2Proof.Machine
end

