-- ==== Sys2Proof/Machine/Operands.lean ====
section
/-! DEFINITION. What the operands of commands select: status registers, halves, node fields, code words, header bytes. -/

namespace Sys2Proof.Machine

/-! ## Halves of a 64-bit register -/

/-- Bits [31:0]. -/
def low (v : Count) : Data := v.extractLsb' 0 32

/-- Bits [63:32]. -/
def high (v : Count) : Data := v.extractLsb' 32 32

/-- `ORIGLEN[31:0] <- d` for half 0, `ORIGLEN[63:32] <- d` otherwise (46_access.md R221). -/
def withHalf (v : Count) (half : Nat) (d : Data) : Count := if half = 0 then high v ++ d else d ++ low v

/-! ## Status registers (10_state.md R44) -/

/-- `SR[n]`, n < 16 (R44). `RDSR` tests the range first (R219). -/
def State.sr (s : State) (n : Nat) : Data :=
  match n with
  | 0 => Config.pId
  | 1 => s.status
  | 2 => s.errInfo
  | 3 => low s.origLen
  | 4 => high s.origLen
  | 5 => s.nsym.setWidth 32
  | 6 => BitVec.ofNat 32 s.nodeCnt
  | 7 => BitVec.ofNat 32 s.heapSize
  | 8 => s.root.setWidth 32
  | 9 => low s.inCnt
  | 10 => high s.inCnt
  | 11 => low s.outCnt
  | 12 => high s.outCnt
  | 13 => low s.emitCnt
  | 14 => high s.emitCnt
  | 15 => s.cur.setWidth 32
  | _ => 0#32

/-! ## Fields of an arena entry and words of a code -/

/-- Field `sel` of an arena entry, zero-extended (R226). `RDN` tests `sel < 6` first. -/
def Node.field (n : Node) (sel : Nat) : Data :=
  match sel with
  | 0 => n.freq.extractLsb' 0 32
  | 1 => (n.freq.extractLsb' 32 8).setWidth 32
  | 2 => n.sym.setWidth 32
  | 3 => n.left.setWidth 32
  | 4 => n.right.setWidth 32
  | 5 => (BitVec.ofBool n.owned).setWidth 32
  | _ => 0#32

/-- `CODE_LEN[a]` for selector 0, else `CODE_BITS[a][255 - 32*(sel-1) : 224 - 32*(sel-1)]` (R232). `RDC` tests `sel < 9` first. -/
def State.codeWord (s : State) (a sel : Nat) : Data :=
  if sel = 0 then (s.codeLenAt a).setWidth 32 else (s.codeBitsAt a).extractLsb' (224 - 32 * (sel - 1)) 32

/-! ## Header bytes (20_memory.md R64, 45_header.md R200, R206) -/

/-- The bit at which byte `j` (0 first in the stream) of an `n`-byte header integer begins, in byte order `e` (R64). -/
def headerLsb (e : Endian) (n j : Nat) : Nat :=
  match e with
  | .little => 8 * j
  | .big => 8 * (n - 1 - j)

/-- `HdrByte(i)` of the header with this length and table (R200). -/
def hdrByte (e : Endian) (s : State) (i : Nat) : Byte :=
  if i < 8 then s.origLen.extractLsb' (headerLsb e 8 i) 8
  else (s.freqAt ((i - 8) / 4)).extractLsb' (headerLsb e 4 ((i - 8) % 4)) 8

/-- `v[lo + 7 : lo] <- b` (R206). -/
def withByte {w : Nat} (v : BitVec w) (lo : Nat) (b : Byte) : BitVec w :=
  (v &&& ~~~(BitVec.setWidth w 0xFF#8 <<< lo)) ||| (b.setWidth w <<< lo)

/-- The register write of the header-read beat: byte `i` of the header goes where `hdrByte` reads it (R206). -/
def State.loadHdrByte (e : Endian) (s : State) (i : Nat) (b : Byte) : State :=
  if i < 8 then { s with origLen := withByte s.origLen (headerLsb e 8 i) b }
  else s.setFreq ((i - 8) / 4) (withByte (s.freqAt ((i - 8) / 4)) (headerLsb e 4 ((i - 8) % 4)) b)

end Sys2Proof.Machine
end

