-- ==== Sys2Proof/Machine/Access.lean ====
section
/-! DEFINITION. Register access and housekeeping commands (46_access.md): NOP, CLR, RDSR, WRLEN, RDF, WRF, RDN, RDH, RDC. -/

namespace Sys2Proof.Machine

/-- `NOP` (R216). -/
def execNop (s : State) : Out :=
  inPhases idleOnly .nop s <|
  .next (s.respond .ok 0#32)

/-- `CLR` (R217). -/
def execClr (s : State) : Out :=
  inPhases idleOrErr .clr s <|
  .next (s.cleared.respond .ok 0#32)

/-- `RDSR A` (R219). -/
def execRdsr (a : Nat) (s : State) : Out :=
  inPhases anyAccepting (.rdsr a) s <|
  require (a < 16) .range (.rdsr a) s <|
  .next (s.respond .ok (s.sr a))

/-- `WRLEN A, D` (R221). -/
def execWrlen (a : Nat) (d : Data) (s : State) : Out :=
  inPhases idleOnly (.wrlen a d) s <|
  require (a < 2) .range (.wrlen a d) s <|
  .next ({ s with origLen := withHalf s.origLen a d }.respond .ok 0#32)

/-- `RDF A` (R223). -/
def execRdf (a : Nat) (s : State) : Out :=
  inPhases idleOrErr (.rdf a) s <|
  require (a < Config.nSyms) .range (.rdf a) s <|
  .next (s.respond .ok (s.freqAt a))

/-- `WRF A, D` (R224). -/
def execWrf (a : Nat) (d : Data) (s : State) : Out :=
  inPhases idleOnly (.wrf a d) s <|
  require (a < Config.nSyms) .range (.wrf a d) s <|
  .next ((s.setFreq a d).dropTree.respond .ok 0#32)

/-- `RDN A, S` (R226). -/
def execRdn (a sel : Nat) (s : State) : Out :=
  inPhases idleOrErr (.rdn a sel) s <|
  require (a < s.nodeCnt) .range (.rdn a sel) s <|
  require (sel < 6) .range (.rdn a sel) s <|
  .next (s.respond .ok ((s.nodeAt a).field sel))

/-- `RDH A` (R229). -/
def execRdh (a : Nat) (s : State) : Out :=
  inPhases idleOrErr (.rdh a) s <|
  require (a < s.heapSize) .range (.rdh a) s <|
  .next (s.respond .ok ((s.heapAt a).setWidth 32))

/-- `RDC A, S` (R232). -/
def execRdc (a sel : Nat) (s : State) : Out :=
  inPhases idleOrErr (.rdc a sel) s <|
  require (s.codeValid = true) .seq (.rdc a sel) s <|
  require (a < Config.nSyms) .range (.rdc a sel) s <|
  require (sel < 9) .range (.rdc a sel) s <|
  .next (s.respond .ok (s.codeWord a sel))

end Sys2Proof.Machine
end

