-- ==== Sys2Proof/Machine/BitPack.lean ====
section
/-! DEFINITION. The bit packer (43_bitpack.md): commands ENCODE and END, the encode beat, AppendBit, Flush, and the `Dout` and
`DrainDone` steps. -/

namespace Sys2Proof.Machine

/-- `AppendBit(x)` (R163). -/
def State.appendBit (s : State) (x : Bool) : State :=
  let acc := (s.acc <<< 1) ||| (BitVec.ofBool x).setWidth 8
  if s.accCnt = 7#3 then { s.oqPush acc with acc := 0#8, accCnt := 0#3 }
  else { s with acc := acc, accCnt := s.accCnt + 1#3 }

/-- `Flush()` (R167). -/
def State.flush (s : State) : State :=
  if s.accCnt = 0#3 then s
  else { s.oqPush (s.acc <<< (8 - s.accCnt.toNat)) with acc := 0#8, accCnt := 0#3 }

/-- The code of symbol `b`, first edge first: `CODE_BITS[b][255 - k]` for k from 0 to CODE_LEN[b] - 1 (R162). -/
def State.codeOf (s : State) (b : Byte) : List Bool :=
  (List.range (s.codeLenAt b.toNat).toNat).map fun k => (s.codeBitsAt b.toNat).getLsbD (255 - k)

/-- The encode beat: `Din(b)` in phase ENCODE (R162, R165). -/
def State.encodeBeat (s : State) (b : Byte) : State :=
  if s.codeLenAt b.toNat = 0#8 then s.beatFault b .noCode
  else { (s.codeOf b).foldl State.appendBit s with inCnt := s.inCnt + 1#64 }

/-- `ENCODE` (R161). -/
def execEncode (s : State) : Out :=
  inPhases idleOnly .encode s <|
  require (s.codeValid = true) .seq .encode s <|
  .next ({ s with acc := 0#8, accCnt := 0#3, inCnt := 0#64, outCnt := 0#64, phase := .encode }.respond .ok 0#32)

/-- The end of a count pass: at once (R166). -/
def State.endCount (s : State) : State := { s with phase := .idle }.respond .ok 0#32

/-- The end of an encode pass: flush, then DRAIN; the response is deferred to `DrainDone` (R166, R171). -/
def State.endEncode (s : State) : State := { s.flush with phase := .drain }

/-- `END` (R166). -/
def execEndPass (s : State) : Out :=
  inPhases countOrEncode .endPass s <|
  .next (if s.phase = .count then s.endCount else s.endEncode)

/-- The `Dout` step: the head of OQ goes to the host (R170). It is enabled when OQ is not empty; else nothing happens. -/
def State.dout (s : State) : State :=
  match s.oq with
  | [] => s
  | b :: rest => { s with oq := rest, doutLog := s.doutLog ++ [b] }

/-- `DrainDone` is enabled (R171). -/
def State.drainReady (s : State) : Bool := s.phase == .drain && s.oq.isEmpty

/-- The `DrainDone` step (R171). -/
def State.drainDone (s : State) : State := { s with phase := .idle }.respond .ok 0#32

end Sys2Proof.Machine
end

