-- ==== Sys2Proof/Machine/BitUnpack.lean ====
section
/-! DEFINITION. The bit unpacker (44_bitunpack.md): the command DECODE, the decode beat and the `Emit1` step. -/

namespace Sys2Proof.Machine

/-- The registers a `DECODE` that does not fault writes in both its cases: the three counters cleared, the new phase (R181). -/
def State.openDecode (s : State) (p : Phase) : State :=
  { s with emitCnt := 0#64, inCnt := 0#64, outCnt := 0#64, phase := p }

/-- `DECODE` (R181). The response is deferred to `DrainDone`. -/
def execDecode (s : State) : Out :=
  inPhases idleOnly .decode s <|
  if s.origLen = 0#64 then .next (s.openDecode .drain)
  else
    require (s.treeValid = true) .seq .decode s <|
    require (s.root ≠ NIL) .noTree .decode s <|
    .next { s.openDecode .decode with cur := s.root }

/-- The child that a bit selects: "move left on bit 0", "right on bit 1" (R183). -/
def Node.child (n : Node) (x : Bool) : Idx := if x then n.right else n.left

/-- The leaf reached: its symbol emitted, the walk reset to the root (R183). -/
def State.emitAt (s : State) (n : Idx) : State :=
  { s.oqPush (s.nodeAt n.toNat).sym with emitCnt := s.emitCnt + 1#64, cur := s.root }

/-- One bit of the decode beat; a pad bit, after ORIGLEN symbols, is discarded (R183). -/
def State.decodeBit (s : State) (x : Bool) : State :=
  if s.emitCnt < s.origLen then
    let n := (s.nodeAt s.cur.toNat).child x
    if (s.nodeAt n.toNat).isLeaf then s.emitAt n else { s with cur := n }
  else s

/-- The bits of a byte, most significant first (R66, R183). -/
def bitsOf (b : Byte) : List Bool := [7, 6, 5, 4, 3, 2, 1, 0].map b.getLsbD

/-- `if EMIT_CNT = ORIGLEN: PHASE <- DRAIN` (R183, R186). -/
def State.drainIfDone (s : State) : State := if s.emitCnt = s.origLen then { s with phase := .drain } else s

/-- The decode beat: `Din(b)` in phase DECODE with an internal ROOT (R183). -/
def State.decodeBeat (s : State) (b : Byte) : State :=
  ((bitsOf b).foldl State.decodeBit { s with inCnt := s.inCnt + 1#64 }).drainIfDone

/-- `Emit1` is enabled (R186). -/
def State.emitReady (s : State) : Bool := s.phase == .decode && s.rootIsLeaf

/-- The `Emit1` step (R186). -/
def State.emit1 (s : State) : State :=
  { s.oqPush (s.nodeAt s.root.toNat).sym with emitCnt := s.emitCnt + 1#64 }.drainIfDone

end Sys2Proof.Machine
end

