-- ==== Sys2Proof/Machine/Codegen.lean ====
section
/-! DEFINITION. The code table generator (42_codegen.md): SetCode, Walk and the command GENCODE. -/

namespace Sys2Proof.Machine

/-- `CODE_BITS[255 - k] <- c[k]` for the bits `c` of a code from its bit `k` on, over 256 zero bits (R151). -/
def placeCode : Nat → List Bool → BitVec 256
  | _, [] => 0#256
  | k, x :: c => (if x then 1#256 <<< (255 - k) else 0#256) ||| placeCode (k + 1) c

/-- `SetCode(s, c)` (R151). -/
def setCode (sym : Byte) (c : List Bool) (t : CodeTable) : CodeTable :=
  { len := t.len.setIfInBounds sym.toNat (BitVec.ofNat 8 c.length)
    bits := t.bits.setIfInBounds sym.toNat (placeCode 0 c) }

/-- The table with no code: every CODE_LEN and CODE_BITS entry 0. -/
def emptyCodes : CodeTable := { len := Vector.replicate 256 0#8, bits := Vector.replicate 256 0#256 }

/-- `Walk(n, p)` (R153), pre-order, the left subtree first, at most `fuel` levels deep: `none` where the walk is deeper. A child's index
is below its parent's (10_state.md R27 (a)), so NODE_CNT levels are enough in every reachable state. -/
def walk (nodes : List Node) : Nat → Idx → List Bool → CodeTable → Option CodeTable
  | 0, _, _, _ => none
  | fuel + 1, n, p, t =>
    let e := nodeOf nodes n.toNat
    if e.isLeaf then some (setCode e.sym p t)
    else
      match walk nodes fuel e.left (p ++ [false]) t with
      | none => none
      | some t' => walk nodes fuel e.right (p ++ [true]) t'

/-- The code table of the current tree: empty tree, single-symbol tree (R152), general tree (R151). -/
def State.codeTable (s : State) : Option CodeTable :=
  if s.root = NIL then some emptyCodes
  else if s.rootIsLeaf then some (setCode (s.nodeAt s.root.toNat).sym [false] emptyCodes)
  else walk s.nodes s.nodeCnt s.root [] emptyCodes

/-- The end of `GENCODE`: the table stored, CODE_VALID set, the response; the stop where the traversal never ends (log entry 8). -/
def State.storeCodes (s : State) (t : Option CodeTable) : Out :=
  match t with
  | some t => .next ({ s with codes := t, codeValid := true }.respond .ok 0#32)
  | none => .fault .endlessWalk

/-- `GENCODE` (R151). -/
def execGencode (s : State) : Out :=
  inPhases idleOnly .gencode s <|
  require (s.treeValid = true) .seq .gencode s <|
  s.storeCodes s.codeTable

end Sys2Proof.Machine
end

