-- ==== Sys2Proof/Machine/Header.lean ====
section
/-! DEFINITION. The frequency counter and the container header (45_header.md): commands COUNT, WRHDR, RDHDR and their beats. -/

namespace Sys2Proof.Machine

/-- `COUNT` (R196). -/
def execCount (s : State) : Out :=
  inPhases idleOnly .count s <|
  .next ({ s.dropTree with freq := Vector.replicate 256 0#32, origLen := 0#64, inCnt := 0#64, phase := .count }.respond .ok 0#32)

/-- The count beat: `Din(b)` in phase COUNT (R198). -/
def State.countBeat (s : State) (b : Byte) : State :=
  if s.freqAt b.toNat = 0xFFFFFFFF#32 then s.beatFault b .freqOvf
  else { s.setFreq b.toNat (s.freqAt b.toNat + 1#32) with origLen := s.origLen + 1#64, inCnt := s.inCnt + 1#64 }

/-- The header of the current state in byte order `e`: `HdrByte(0) .. HdrByte(1031)` (R200). -/
def State.header (e : Endian) (s : State) : List Byte := (List.range Config.hdrBytes).map (hdrByte e s)

/-- The state after `WRHDR` in byte order `e` (R201). -/
def State.headerWritten (e : Endian) (s : State) : State :=
  { { s with outCnt := 0#64 }.oqPushAll (s.header e) with phase := .drain }

/-- `WRHDR` (R201). The response is deferred to `DrainDone`. -/
def execWrhdr (s : State) : Out :=
  inPhases idleOnly .wrhdr s <|
  .next (s.headerWritten s.hdrEndian)

/-- `RDHDR` (R204). The response is deferred to the 1032nd beat. -/
def execRdhdr (s : State) : Out :=
  inPhases idleOnly .rdhdr s <|
  .next { s.dropTree with inCnt := 0#64, phase := .rdhdr }

/-- The header-read beat in byte order `e`: `Din(b)` in phase RDHDR (R206). -/
def State.headerBeat (e : Endian) (s : State) (b : Byte) : State :=
  let t := { s.loadHdrByte e s.inCnt.toNat b with inCnt := s.inCnt + 1#64 }
  if t.inCnt = 1032#64 then { t with phase := .idle }.respond .ok 0#32 else t

end Sys2Proof.Machine
end

