-- ==== Sys2Proof/Machine/Heap.lean ====
section
/-! DEFINITION. The priority queue (40_heap.md): its micro-operations, which touch nothing but the heap array (R121), and the commands
HAPP, HINS, HEXT, HBLD. A micro-operation works on the list of live entries, `h`, with `key n` the frequency of node `n`. -/

namespace Sys2Proof.Machine

/-! ## Micro-operations -/

/-- The key of node index `n`: `NODE[n].freq` (10_state.md R26). -/
def nodeKey (nodes : List Node) (n : Idx) : NodeFreq := (nodeOf nodes n.toNat).freq

/-- `key(i)`: the key of heap position `i` (R26). -/
def keyAt (key : Idx → NodeFreq) (h : List Idx) (i : Nat) : NodeFreq := key (heapGet h i)

/-- `swap HEAP[i] and HEAP[j]`. -/
def swapAt (h : List Idx) (i j : Nat) : List Idx := (h.set i (heapGet h j)).set j (heapGet h i)

/-- The position `s` that one turn of Heapify's loop finds: `i`, or the smaller child, the left one on a tie (R111, R112). -/
def smallest (key : Idx → NodeFreq) (h : List Idx) (i : Nat) : Nat :=
  let l := 2 * i + 1
  let r := 2 * i + 2
  let s := if l < h.length ∧ keyAt key h l < keyAt key h i then l else i
  if r < h.length ∧ keyAt key h r < keyAt key h s then r else s

/-- `Heapify(i)` (R112), at most `fuel` turns of its loop; `h.length` turns are always enough, since `i` grows. -/
def heapifyLoop (key : Idx → NodeFreq) : Nat → Nat → List Idx → List Idx
  | 0, _, h => h
  | fuel + 1, i, h =>
    let s := smallest key h i
    if s = i then h else heapifyLoop key fuel s (swapAt h i s)

/-- `Heapify(i)` (R112). -/
def heapify (key : Idx → NodeFreq) (i : Nat) (h : List Idx) : List Idx := heapifyLoop key h.length i h

/-- `HeapAppend(n)` (R113). -/
def heapAppend (n : Idx) (h : List Idx) : List Idx := h ++ [n]

/-- The loop of HeapInsert (R114), at most `fuel` turns; `i` turns are always enough, since `(i-1)/2 < i`. -/
def siftUpLoop (key : Idx → NodeFreq) : Nat → Nat → List Idx → List Idx
  | 0, _, h => h
  | fuel + 1, i, h =>
    if i ≠ 0 ∧ keyAt key h i < keyAt key h ((i - 1) / 2) then
      siftUpLoop key fuel ((i - 1) / 2) (swapAt h i ((i - 1) / 2))
    else h

/-- `HeapInsert(n)` (R114). -/
def heapInsert (key : Idx → NodeFreq) (n : Idx) (h : List Idx) : List Idx := siftUpLoop key h.length h.length (h ++ [n])

/-- The index `HeapExtract()` returns: HEAP[0] (R115). -/
def heapMin (h : List Idx) : Idx := heapGet h 0

/-- What `HeapExtract()` leaves (R115): the last entry at position 0, one entry fewer, sifted down. -/
def heapRest (key : Idx → NodeFreq) (h : List Idx) : List Idx := heapify key 0 (h.set 0 (heapGet h (h.length - 1))).dropLast

/-- `for i from k down to 0: Heapify(i)`. -/
def heapBuildFrom (key : Idx → NodeFreq) : Nat → List Idx → List Idx
  | 0, h => heapify key 0 h
  | k + 1, h => heapBuildFrom key k (heapify key (k + 1) h)

/-- `HeapBuild()` (R124). -/
def heapBuild (key : Idx → NodeFreq) (h : List Idx) : List Idx :=
  if 2 ≤ h.length then heapBuildFrom key ((h.length - 2) / 2) h else h

/-- The key of node index `n` in this state. -/
def State.key (s : State) (n : Idx) : NodeFreq := nodeKey s.nodes n

/-! ## Commands -/

/-- `respond(0, HEAP_SIZE)` after the heap array became `h`. -/
def State.withHeapSized (s : State) (h : List Idx) : State :=
  { s with heap := h }.respond .ok (BitVec.ofNat 32 h.length)

/-- `HAPP a` (R116). -/
def execHapp (a : Nat) (s : State) : Out :=
  inPhases idleOnly (.happ a) s <|
  require (a < s.nodeCnt) .range (.happ a) s <|
  require (s.heapSize < Config.heapMax) .heapFull (.happ a) s <|
  .next (s.withHeapSized (heapAppend (BitVec.ofNat 9 a) s.heap))

/-- `HINS a` (R117). -/
def execHins (a : Nat) (s : State) : Out :=
  inPhases idleOnly (.hins a) s <|
  require (a < s.nodeCnt) .range (.hins a) s <|
  require (s.heapSize < Config.heapMax) .heapFull (.hins a) s <|
  .next (s.withHeapSized (heapInsert s.key (BitVec.ofNat 9 a) s.heap))

/-- `HEXT` (R118). -/
def execHext (s : State) : Out :=
  inPhases idleOnly .hext s <|
  require (0 < s.heapSize) .heapEmpty .hext s <|
  .next ({ s with heap := heapRest s.key s.heap }.respond .ok ((heapMin s.heap).setWidth 32))

/-- `HBLD` (R119). -/
def execHbld (s : State) : Out :=
  inPhases idleOnly .hbld s <|
  .next (s.withHeapSized (heapBuild s.key s.heap))

end Sys2Proof.Machine
end

