-- ==== Sys2Proof/Machine/Tree.lean ====
section
/-! DEFINITION. The tree builder and node merger (41_tree.md): its micro-operations and the commands NLEAF, NMRG, SETROOT, BUILD. -/

namespace Sys2Proof.Machine

/-! ## Micro-operations on the arena -/

/-- The index at which the next entry is allocated: NODE_CNT (10_state.md R24). -/
def nextIdx (nodes : List Node) : Idx := BitVec.ofNat 9 nodes.length

/-- The entry `AllocLeaf(s)` writes, for a symbol with frequency `f` (R131). -/
def leafNode (f : Freq) (sym : Nat) : Node :=
  { freq := f.setWidth 40, sym := BitVec.ofNat 8 sym, left := NIL, right := NIL, owned := false }

/-- The arena after `AllocLeaf(s)`; the entry's index is `nextIdx` before (R131). -/
def allocLeaf (f : Freq) (sym : Nat) (nodes : List Node) : List Node := nodes ++ [leafNode f sym]

/-- The entry `AllocMerge(a, b)` writes (R132). -/
def mergeNode (nodes : List Node) (a b : Idx) : Node :=
  { freq := (nodeOf nodes a.toNat).freq + (nodeOf nodes b.toNat).freq, sym := Config.placeholderSym, left := a, right := b,
    owned := false }

/-- `NODE[n].owned <- 1`. -/
def setOwned (n : Idx) (nodes : List Node) : List Node := nodes.modify n.toNat fun e => { e with owned := true }

/-- The arena after `AllocMerge(a, b)`; the entry's index is `nextIdx` before (R132). -/
def allocMerge (a b : Idx) (nodes : List Node) : List Node := setOwned b (setOwned a (nodes ++ [mergeNode nodes a b]))

/-! ## BUILD's algorithm (R138, R139) -/

/-- The arena and the heap array: what the builder works on. -/
structure Forest where
  nodes : List Node
  heap : List Idx
  deriving DecidableEq, Repr

/-- One turn of the seeding loop: `if FREQ[s] != 0: n <- AllocLeaf(s); HeapAppend(n)`. -/
def seedSymbol (s : State) (t : Forest) (sym : Nat) : Forest :=
  if s.freqAt sym = 0#32 then t
  else { nodes := allocLeaf (s.freqAt sym) sym t.nodes, heap := heapAppend (nextIdx t.nodes) t.heap }

/-- "for s from 0 to 255" over an empty arena and heap. -/
def seeded (s : State) : Forest := (List.range Config.nSyms).foldl (seedSymbol s) { nodes := [], heap := [] }

/-- One turn of the merge loop: extract two, merge, reinsert (R139). -/
def mergeTwo (t : Forest) : Forest :=
  let a := heapMin t.heap
  let h1 := heapRest (nodeKey t.nodes) t.heap
  let b := heapMin h1
  let h2 := heapRest (nodeKey t.nodes) h1
  let nodes := allocMerge a b t.nodes
  { nodes := nodes, heap := heapInsert (nodeKey nodes) (nextIdx t.nodes) h2 }

/-- "while HEAP_SIZE > 1", at most `fuel` turns; the heap's length is always enough, since each turn leaves one entry fewer. -/
def mergeLoop : Nat → Forest → Forest
  | 0, t => t
  | fuel + 1, t => if 1 < t.heap.length then mergeLoop fuel (mergeTwo t) else t

/-- HeapBuild and the merge loop over the seeded forest; with fewer than two entries nothing (R139). -/
def merged (t : Forest) : Forest :=
  if 2 ≤ t.heap.length then
    mergeLoop t.heap.length { nodes := t.nodes, heap := heapBuild (nodeKey t.nodes) t.heap }
  else t

/-- `if NSYM >= 1: ROOT <- HeapExtract()`; ROOT is NIL since DropTree otherwise. -/
def rootOf (t : Forest) : Idx := if t.heap = [] then NIL else heapMin t.heap

/-- The heap array after that extraction. -/
def heapAfterRoot (t : Forest) : List Idx := if t.heap = [] then [] else heapRest (nodeKey t.nodes) t.heap

/-- The state after `BUILD`'s whole atomic step, before its response (R139). -/
def State.built (s : State) : State :=
  let seed := seeded s
  let t := merged seed
  { s.dropTree with
    nodes := t.nodes
    heap := heapAfterRoot t
    nsym := BitVec.ofNat 9 seed.heap.length
    root := rootOf t
    treeValid := true }

/-! ## Commands -/

/-- `NLEAF s` (R135). -/
def execNleaf (a : Nat) (s : State) : Out :=
  inPhases idleOnly (.nleaf a) s <|
  require (a < Config.nSyms) .range (.nleaf a) s <|
  require (s.freqAt a ≠ 0#32) .zeroFreq (.nleaf a) s <|
  require (s.nodeCnt < Config.nodeMax) .arenaFull (.nleaf a) s <|
  .next ({ s with nodes := allocLeaf (s.freqAt a) a s.nodes }.withdrawTree.respond .ok ((nextIdx s.nodes).setWidth 32))

/-- `NMRG a, b` (R136). -/
def execNmrg (a b : Nat) (s : State) : Out :=
  inPhases idleOnly (.nmrg a b) s <|
  require (a < s.nodeCnt) .range (.nmrg a b) s <|
  require (b < s.nodeCnt) .range (.nmrg a b) s <|
  require (a ≠ b ∧ (s.nodeAt a).owned = false ∧ (s.nodeAt b).owned = false) .owned (.nmrg a b) s <|
  require (s.nodeCnt < Config.nodeMax) .arenaFull (.nmrg a b) s <|
  .next ({ s with nodes := allocMerge (BitVec.ofNat 9 a) (BitVec.ofNat 9 b) s.nodes }.withdrawTree.respond .ok
    ((nextIdx s.nodes).setWidth 32))

/-- `SETROOT a` (R137). -/
def execSetroot (a : Nat) (s : State) : Out :=
  inPhases idleOnly (.setroot a) s <|
  require (a < s.nodeCnt) .range (.setroot a) s <|
  require ((s.nodeAt a).owned = false) .owned (.setroot a) s <|
  .next ((s.declareRoot (BitVec.ofNat 9 a)).respond .ok (BitVec.ofNat 32 a))

/-- `BUILD` (R139). -/
def execBuild (s : State) : Out :=
  inPhases idleOnly .build s <|
  .next (s.built.respond .ok (s.built.root.setWidth 32))

end Sys2Proof.Machine
end

