-- ==== Sys2Proof/Machine/Dispatch.lean ====
section
/-! DEFINITION. One arm per command. -/

namespace Sys2Proof.Machine

/-- The meaning of each command. -/
def exec (i : Instr) (s : State) : Host.Outcome State Fault Refusal :=
  match i with
  | .nop => Sys2Proof.Machine.execNop s
  | .clr => Sys2Proof.Machine.execClr s
  | .rdsr a => Sys2Proof.Machine.execRdsr a s
  | .wrlen a d => Sys2Proof.Machine.execWrlen a d s
  | .rdf a => Sys2Proof.Machine.execRdf a s
  | .wrf a d => Sys2Proof.Machine.execWrf a d s
  | .count => Sys2Proof.Machine.execCount s
  | .endPass => Sys2Proof.Machine.execEndPass s
  | .rdhdr => Sys2Proof.Machine.execRdhdr s
  | .wrhdr => Sys2Proof.Machine.execWrhdr s
  | .build => Sys2Proof.Machine.execBuild s
  | .gencode => Sys2Proof.Machine.execGencode s
  | .encode => Sys2Proof.Machine.execEncode s
  | .decode => Sys2Proof.Machine.execDecode s
  | .nleaf a => Sys2Proof.Machine.execNleaf a s
  | .nmrg a b => Sys2Proof.Machine.execNmrg a b s
  | .happ a => Sys2Proof.Machine.execHapp a s
  | .hins a => Sys2Proof.Machine.execHins a s
  | .hext => Sys2Proof.Machine.execHext s
  | .hbld => Sys2Proof.Machine.execHbld s
  | .setroot a => Sys2Proof.Machine.execSetroot a s
  | .rdn a sel => Sys2Proof.Machine.execRdn a sel s
  | .rdh a => Sys2Proof.Machine.execRdh a s
  | .rdc a sel => Sys2Proof.Machine.execRdc a sel s

end Sys2Proof.Machine
end

