-- ==== Sys2Proof/Machine/Edges.lean ====
section
/-! DEFINITION. The steps of the block (00_scope.md R15) and what one rising edge of `clk` does (10_state.md R20). -/

namespace Sys2Proof.Machine

/-- The `Cmd(w)` step: decode, then execute (30_encoding.md R92). An illegal word faults with E_ILLCMD; in phase ERR that changes no
state but the response (R94, R247). The step exists only while `cmd_ready` is high (R49). -/
def cmdStep (w : CmdWord) (s : State) : Out :=
  match decode w with
  | .instr i => exec i s
  | .illegal _ => if s.cmdReady then .next (s.cmdFault w .illCmd) else .next s

/-- The `Din(b)` step of the current phase (R12, R50). Where `din_ready` is low there is none and the byte waits. -/
def State.din (s : State) (b : Byte) : State :=
  match s.phase with
  | .count => s.countBeat b
  | .encode => s.encodeBeat b
  | .rdhdr => s.headerBeat s.hdrEndian b
  | .decode => if s.rootIsLeaf then s else s.decodeBeat b
  | .idle | .drain | .err => s

/-- The internal step that is enabled, if one is (R15): `Emit1` (R186) or `DrainDone` (R171). -/
def State.internal (s : State) : State :=
  if s.emitReady then s.emit1 else if s.drainReady then s.drainDone else s

/-- The edge's `Dout` step, where `dout_valid` and `dout_ready` are both high (R20, R51). -/
def State.doutAt (s : State) (ready : Bool) : State := if ready then s.dout else s

/-- The edge's `Din` step, where `din_valid` and `din_ready` are both high (R20). -/
def State.dinAt (s : State) (b : Option Byte) : State :=
  match b with
  | some b => s.din b
  | none => s

/-- The edge's `Cmd` step, where `cmd_valid` and `cmd_ready` are both high; `ready` is the level of `cmd_ready` at the edge (R20). -/
def cmdAt (ready : Bool) (w : Option CmdWord) (s : State) : Out :=
  match w with
  | some w => if ready then cmdStep w s else .next s
  | none => .next s

/-- The handshakes of one edge, as separate steps in the order `Dout`, `Din`, `Cmd` (R20). A `Dout` step changes no ready pin, and
`Din` comes before `Cmd`, so `cmd_ready` alone has to be kept from the edge's beginning. -/
def ports (doutReady : Bool) (din : Option Byte) (cmd : Option CmdWord) (s : State) : Out :=
  cmdAt s.cmdReady cmd ((s.doutAt doutReady).dinAt din)

/-- One rising edge (R20, R270). -/
def edge (e : Edge) (s : State) : Out :=
  match e with
  | .reset => .next s.cleared
  | .ports doutReady din cmd => ports doutReady din cmd s
  | .internal => .next s.internal

/-- The next rising edge. The response pulse of the edge before is over (R54). When no edge is listed the host presents nothing more,
and the block takes its internal step if one is enabled (the fairness of R15; log entry 3). -/
def nextEdge (s : State) : Out :=
  match s.edges with
  | [] => edge .internal { s with rsp := none }
  | e :: rest => edge e { s with rsp := none, edges := rest }

end Sys2Proof.Machine
end

