-- ==== Sys2Proof/Machine/Step.lean ====
section
/-! DEFINITION. One step of the machine: one rising edge of `clk`. -/

namespace Sys2Proof.Machine

/-- One step: the next rising edge (10_state.md R20). -/
def step (s : State) : Host.Outcome State Fault Refusal := nextEdge s

/-- `s` with the command word whose first `nbits` bits are those of `w`, the bits above them 0, presented at the very next edge and nothing
else. In a phase that accepts no command (R49) the block is put in IDLE too, so that the very next step runs it. Log entry 9. -/
def State.withFetchWord (s : State) (nbits w : Nat) : State :=
  { s with
    phase := if s.cmdReady then s.phase else .idle
    edges := .ports false none (some (BitVec.ofNat 48 (w % 2 ^ nbits))) :: s.edges }

end Sys2Proof.Machine
end

