-- ==== Sys2Proof/Safety.lean ====
section
/-! DEFINITION. What the claims are stated in: the invariants the spec names, what an answered or a faulted command leaves, and the
bit sequences the packer and the unpacker work on, the tables of R41, R93 and R96, and the script BUILDMANUAL. -/

namespace Sys2Proof.Machine

/-! ## What a command leaves -/

/-- `s` with one response word pulsed, and nothing else changed (00_scope.md R12, 30_encoding.md R90). -/
def answered (s : State) (err : BitVec 4) (data : Data) : State :=
  { s with rsp := some (err ++ data), rspLog := s.rspLog ++ [err ++ data] }

/-- `s` after a command answered with ERR = 0. -/
abbrev okWith (s : State) (data : Data) : State := answered s 0#4 data

/-- `s` after command `i` faulted with `code`, outside phase ERR: ERRCODE, ERRINFO (`{OP, A}`), PHASE and the response, nothing else
(60_exceptions.md R244, R245). -/
def faulted (s : State) (i : Instr) (code : ErrCode) : State :=
  answered { s with errCode := code, errInfo := ((opcode i ++ BitVec.ofNat 10 (operandA i) : BitVec 16)).setWidth 32, phase := .err }
    code.toBits 0#32

/-- `s` after a command answered with a fault code and DATA = 0, and nothing else changed: what a fault does in phase ERR (R244, R247). -/
abbrev refusedWith (s : State) (code : ErrCode) : State := answered s code.toBits 0#32

/-- `s` after a failing check of command `i`: a fault, or in phase ERR the response alone (R236, R244). -/
def failed (s : State) (i : Instr) (code : ErrCode) : State :=
  if s.phase = .err then refusedWith s code else faulted s i code

/-- A host's edge that presents the command word of `i` and nothing else. -/
def presents (i : Instr) : Edge := .ports false none (some (encode i))

/-! ## The arena (10_state.md R25, R27) -/

/-- `c` is a child of the allocated internal node `m`. -/
def IsChild (nodes : List Node) (m : Nat) (c : Idx) : Prop :=
  m < nodes.length ∧ (nodeOf nodes m).isLeaf = false ∧ ((nodeOf nodes m).left = c ∨ (nodeOf nodes m).right = c)

/-- The allocated entries form a forest of strictly binary trees (R25, R27 (a), (b)). -/
structure ArenaOk (nodes : List Node) : Prop where
  /-- NODE_CNT <= 511 (R24). -/
  size : nodes.length ≤ 511
  /-- "left = right = NIL" or both not NIL (R25). -/
  twoOrNone : ∀ m, m < nodes.length → ((nodeOf nodes m).left = NIL ↔ (nodeOf nodes m).right = NIL)
  /-- A child's index is below its parent's (R27 (a)). -/
  below : ∀ m c, IsChild nodes m c → c.toNat < m
  /-- The two children are distinct (R27 (a)). -/
  apart : ∀ m, m < nodes.length → (nodeOf nodes m).isLeaf = false → (nodeOf nodes m).left ≠ (nodeOf nodes m).right
  /-- A child has owned = 1 (R27 (a)). -/
  childOwned : ∀ m c, IsChild nodes m c → (nodeOf nodes c.toNat).owned = true
  /-- An entry is the child of at most one internal node (R27 (b)). -/
  oneParent : ∀ m m' c, IsChild nodes m c → IsChild nodes m' c → m = m'
  /-- An entry with owned = 1 is the child of one (R27 (b)). -/
  ownedIsChild : ∀ n, n < nodes.length → (nodeOf nodes n).owned = true → ∃ m, IsChild nodes m (BitVec.ofNat 9 n)

/-- The arena, ROOT and the heap agree (R24, R26, R27). -/
structure ForestOk (s : State) : Prop where
  arena : ArenaOk s.nodes
  /-- HEAP_SIZE <= 256 (R26). -/
  heapSize : s.heap.length ≤ 256
  /-- R27 (d). -/
  root : s.root = NIL ∨ (s.root.toNat < s.nodes.length ∧ (s.nodeAt s.root.toNat).owned = false)
  /-- R27 (e). -/
  heapAllocated : ∀ n ∈ s.heap, n.toNat < s.nodes.length

/-- CODE_VALID = 1 implies TREE_VALID = 1 (43_bitpack.md R161), and a root is declared only with TREE_VALID = 1 (R28, R30). -/
def FlagsOk (s : State) : Prop := (s.codeValid = true → s.treeValid = true) ∧ (s.root ≠ NIL → s.treeValid = true)

/-! ## The sequencer -/

/-- In phases IDLE, COUNT and RDHDR, OQ is empty (10_state.md R47). -/
def QueueOk (s : State) : Prop := s.phase = .idle ∨ s.phase = .count ∨ s.phase = .rdhdr → s.oq = []

/-- ERRCODE is a fault's code exactly in phase ERR (R39, R244). -/
def ErrOk (s : State) : Prop := s.phase = .err ↔ s.errCode ≠ .ok

/-- Phase RDHDR ends with the 1032nd byte (R41). -/
def HeaderOk (s : State) : Prop := s.phase = .rdhdr → s.inCnt < 1032#64

/-- The bits of ACC above the ACC_CNT held ones are 0 (10_state.md R33). -/
def AccOk (s : State) : Prop := s.acc.toNat < 2 ^ s.accCnt.toNat

/-- The sum of FREQ[0..255]. -/
def freqSum (s : State) : Nat := (s.freq.toList.map BitVec.toNat).sum

/-- In phase COUNT the sum of FREQ equals ORIGLEN equals IN_CNT (45_header.md R197). -/
def CountOk (s : State) : Prop := s.phase = .count → freqSum s = s.origLen.toNat ∧ s.origLen = s.inCnt

/-- What PHASE = DECODE implies (44_bitunpack.md R182, R184): symbols remain, there is a tree, and the walk stands at an allocated
internal node, or at the single leaf. -/
def DecodeOk (s : State) : Prop :=
  s.phase = .decode → s.treeValid = true ∧ s.root ≠ NIL ∧ s.emitCnt < s.origLen ∧
    (if s.rootIsLeaf then s.cur = s.root
     else s.cur.toNat < s.nodes.length ∧ (s.nodeAt s.cur.toNat).isLeaf = false)

/-- The facts about the sequencer, the flags and the accumulator that every step keeps together. -/
structure SequencerOk (s : State) : Prop where
  flags : FlagsOk s
  queue : QueueOk s
  err : ErrOk s
  header : HeaderOk s
  acc : AccOk s

/-! ## The heap (40_heap.md R110) -/

/-- Every node's key is at most its children's keys. -/
def IsHeap (key : Idx → NodeFreq) (h : List Idx) : Prop :=
  ∀ i, 0 < i → i < h.length → keyAt key h ((i - 1) / 2) ≤ keyAt key h i

/-! ## Codes and bits -/

/-- The node that the path `p` leads to from `n`; none where a leaf is met before the path ends. -/
def descend (nodes : List Node) : Idx → List Bool → Option Idx
  | n, [] => some n
  | n, x :: p =>
    if (nodeOf nodes n.toNat).isLeaf then none else descend nodes ((nodeOf nodes n.toNat).child x) p

/-- The path `p` parts from the path `q` by going left where `q` goes right: its end lies left of the end of `q` (42_codegen.md R154). -/
def leftOf : List Bool → List Bool → Bool
  | x :: p, y :: q => if x = y then leftOf p q else y
  | [], _ | _ :: _, [] => false

/-- The walk of the decode beat (44_bitunpack.md R183) from node `n` over these bits, with `k` symbols still to come: the symbols of the
leaves it meets, each the end of one descent from the root, and the node it stands at after the last bit. -/
def symbolsAlong (nodes : List Node) (root : Idx) : Nat → Idx → List Bool → List Byte × Idx
  | _, n, [] => ([], n)
  | 0, n, _ :: _ => ([], n)
  | k + 1, n, x :: p =>
    let c := (nodeOf nodes n.toNat).child x
    if (nodeOf nodes c.toNat).isLeaf then
      ((nodeOf nodes c.toNat).sym :: (symbolsAlong nodes root k root p).1, (symbolsAlong nodes root k root p).2)
    else symbolsAlong nodes root (k + 1) c p

/-- The bits held in ACC, first appended first (R33). -/
def pendingBits (s : State) : List Bool :=
  (List.range s.accCnt.toNat).map fun k => s.acc.getLsbD (s.accCnt.toNat - 1 - k)

/-- The bits of the bytes in OQ, most significant first, then the bits held in ACC (20_memory.md R66). -/
def streamBits (s : State) : List Bool := s.oq.flatMap bitsOf ++ pendingBits s

/-- The state in which a decode pass over `n` symbols of the tree of `s` begins (R181): ORIGLEN = n, nothing emitted, OQ empty. -/
def decodeStart (s : State) (n : Nat) : State :=
  { s.openDecode .decode with origLen := BitVec.ofNat 64 n, cur := s.root, oq := [] }

/-- The state in which an encode pass begins (R161), OQ empty (R47). -/
def encodeStart (s : State) : State :=
  { s with acc := 0#8, accCnt := 0#3, inCnt := 0#64, outCnt := 0#64, phase := .encode, oq := [] }

/-! ## The opcode map (30_encoding.md R93), row by row as the spec writes it -/

/-- The mnemonic of a command. -/
def mnemonic : Instr → String
  | .nop => "NOP"
  | .clr => "CLR"
  | .rdsr _ => "RDSR"
  | .wrlen _ _ => "WRLEN"
  | .rdf _ => "RDF"
  | .wrf _ _ => "WRF"
  | .count => "COUNT"
  | .endPass => "END"
  | .rdhdr => "RDHDR"
  | .wrhdr => "WRHDR"
  | .build => "BUILD"
  | .gencode => "GENCODE"
  | .encode => "ENCODE"
  | .decode => "DECODE"
  | .nleaf _ => "NLEAF"
  | .nmrg _ _ => "NMRG"
  | .happ _ => "HAPP"
  | .hins _ => "HINS"
  | .hext => "HEXT"
  | .hbld => "HBLD"
  | .setroot _ => "SETROOT"
  | .rdn _ _ => "RDN"
  | .rdh _ => "RDH"
  | .rdc _ _ => "RDC"

/-- The rows of R93: mnemonic, match, mask. -/
def opcodeMap : List (String × CmdWord × CmdWord) :=
  [ ("NOP", 0x040000000000, 0xFFFFFFFFFFFF), ("CLR", 0x080000000000, 0xFFFFFFFFFFFF),
    ("RDSR", 0x0C0000000000, 0xFC00FFFFFFFF), ("WRLEN", 0x100000000000, 0xFC0000000000),
    ("RDF", 0x140000000000, 0xFC00FFFFFFFF), ("WRF", 0x180000000000, 0xFC0000000000),
    ("COUNT", 0x200000000000, 0xFFFFFFFFFFFF), ("END", 0x240000000000, 0xFFFFFFFFFFFF),
    ("RDHDR", 0x280000000000, 0xFFFFFFFFFFFF), ("WRHDR", 0x2C0000000000, 0xFFFFFFFFFFFF),
    ("BUILD", 0x300000000000, 0xFFFFFFFFFFFF), ("GENCODE", 0x340000000000, 0xFFFFFFFFFFFF),
    ("ENCODE", 0x380000000000, 0xFFFFFFFFFFFF), ("DECODE", 0x3C0000000000, 0xFFFFFFFFFFFF),
    ("NLEAF", 0x400000000000, 0xFC00FFFFFFFF), ("NMRG", 0x440000000000, 0xFC00FFFFFC00),
    ("HAPP", 0x480000000000, 0xFC00FFFFFFFF), ("HINS", 0x4C0000000000, 0xFC00FFFFFFFF),
    ("HEXT", 0x500000000000, 0xFFFFFFFFFFFF), ("HBLD", 0x540000000000, 0xFFFFFFFFFFFF),
    ("SETROOT", 0x580000000000, 0xFC00FFFFFFFF), ("RDN", 0x600000000000, 0xFC00FFFFFFF0),
    ("RDH", 0x640000000000, 0xFC00FFFFFFFF), ("RDC", 0x680000000000, 0xFC00FFFFFFF0) ]

/-- The word matches no row of R93. -/
def matchesNoRow (w : CmdWord) : Prop := ∀ r ∈ opcodeMap, w &&& r.2.2 ≠ r.2.1

/-- A reserved opcode value (R94). -/
def isReservedOp (op : Nat) : Prop := op = 0x00 ∨ op = 0x07 ∨ op = 0x17 ∨ (0x1B ≤ op ∧ op ≤ 0x3F)

/-- `s` after an illegal word: E_ILLCMD, ERRINFO = w[47:32], PHASE and the response; in phase ERR the response alone (R94, R244, R247). -/
def illegalAnswer (s : State) (w : CmdWord) : State :=
  if s.phase = .err then refusedWith s .illCmd
  else answered { s with errCode := .illCmd, errInfo := (w.extractLsb' 32 16).setWidth 32, phase := .err } 1#4 0#32

/-! ## Phase rules (30_encoding.md R96) -/

/-- The commands that run in phase ERR besides `CLR`: the read commands (R247). -/
def isRead : Instr → Bool
  | .rdsr _ | .rdf _ | .rdn _ _ | .rdh _ | .rdc _ _ => true
  | _ => false

/-- The table of R96: the phases in which a command passes the phase test. -/
def allowedIn (i : Instr) (p : Phase) : Bool :=
  match i, p with
  | .rdsr _, .idle | .rdsr _, .count | .rdsr _, .encode | .rdsr _, .err => true
  | .endPass, .count | .endPass, .encode => true
  | .clr, .idle | .clr, .err => true
  | .rdf _, .idle | .rdf _, .err | .rdn _ _, .idle | .rdn _ _, .err | .rdh _, .idle | .rdh _, .err => true
  | .rdc _ _, .idle | .rdc _ _, .err => true
  | .rdsr _, _ | .endPass, _ | .clr, _ | .rdf _, _ | .rdn _ _, _ | .rdh _, _ | .rdc _ _, _ => false
  | _, .idle => true
  | _, _ => false

/-- The faults a command's own execution can raise, beside E_SEQ (60_exceptions.md R242). -/
def ownFaults : Instr → List ErrCode
  | .nop | .clr | .count | .endPass | .rdhdr | .wrhdr | .build | .hbld | .gencode | .encode => [.seq]
  | .decode => [.seq, .noTree]
  | .rdsr _ => [.range]
  | .wrlen _ _ | .wrf _ _ | .rdf _ | .rdh _ | .rdn _ _ | .rdc _ _ => [.seq, .range]
  | .nleaf _ => [.seq, .range, .zeroFreq, .arenaFull]
  | .nmrg _ _ => [.seq, .range, .owned, .arenaFull]
  | .happ _ | .hins _ => [.seq, .range, .heapFull]
  | .hext => [.seq, .heapEmpty]
  | .setroot _ => [.seq, .range, .owned]

/-- A command presented in a phase of R96's table that is not "ok" faults with E_SEQ, or is refused with it in phase ERR. -/
def WrongPhase (i : Instr) : Prop :=
  ∀ s, s.cmdReady = true → allowedIn i s.phase = false → exec i s = .next (failed s i .seq)

/-- The table of R41 for a command that does not fault. -/
def commandMoves (s : State) : Instr → Phase
  | .count => .count
  | .encode => .encode
  | .rdhdr => .rdhdr
  | .wrhdr => .drain
  | .decode => if s.origLen = 0#64 then .drain else .decode
  | .endPass => if s.phase = .count then .idle else .drain
  | .clr => .idle
  | _ => s.phase

/-- The condition of the row of R41 that names command `i`; false for a command that no row names (its row is "any other command that
does not fault", or in phase ERR "any other command"). -/
def rowHolds (s : State) (i : Instr) : Bool :=
  match i with
  | .count | .rdhdr | .wrhdr | .endPass | .clr => true
  | .encode => s.codeValid
  | .decode => s.origLen == 0#64 || (s.treeValid && s.root != NIL)
  | .nop | .rdsr _ | .wrlen _ _ | .rdf _ | .wrf _ _ | .build | .gencode | .nleaf _ | .nmrg _ _ | .happ _ | .hins _ | .hext | .hbld
  | .setroot _ | .rdn _ _ | .rdh _ | .rdc _ _ => false

/-- The table of R41 for a `Din` step: the phase after byte `b`. The step that completes the ORIGLEN-th symbol is told by the counter it
leaves. -/
def dinMoves (s : State) (b : Byte) : Phase :=
  match s.phase with
  | .count => if s.freqAt b.toNat = 0xFFFFFFFF#32 then .err else .count
  | .encode => if s.codeLenAt b.toNat = 0#8 then .err else .encode
  | .rdhdr => if s.inCnt + 1#64 = 1032#64 then .idle else .rdhdr
  | .decode => if s.rootIsLeaf = false ∧ (s.din b).emitCnt = s.origLen then .drain else .decode
  | .idle => .idle
  | .drain => .drain
  | .err => .err

/-- The table of R41 for the block's internal step. -/
def internalMoves (s : State) : Phase :=
  match s.phase with
  | .decode => if s.rootIsLeaf = true ∧ s.emitCnt + 1#64 = s.origLen then .drain else .decode
  | .drain => if s.oq = [] then .idle else .drain
  | p => p

/-- The commands whose response is deferred when they do not fault (30_encoding.md R91). -/
def isDeferred (s : State) : Instr → Bool
  | .rdhdr | .wrhdr | .decode => true
  | .endPass => s.phase == .encode
  | _ => false

/-! ## The script BUILDMANUAL (30_encoding.md R109) -/

/-- The symbols with a non-zero FREQ entry, in ascending order. -/
def symbols (s : State) : List Nat := (List.range 256).filter fun a => s.freqAt a ≠ 0#32

/-- The state after command `i`; none where it does not complete with ERR = 0. -/
def ranOk (i : Instr) (s : State) : Option State :=
  match exec i s with
  | .next t => if t.phase = .err then none else some t
  | .fault _ | .refused _ => none

/-- The state after these commands, one after another. -/
def ranAll : List Instr → State → Option State
  | [], s => some s
  | i :: is, s => (ranOk i s).bind (ranAll is)

/-- DATA of the response just emitted, as the index it names. -/
def answer (s : State) : Nat := (s.rsp.elim 0#32 fun r => r.extractLsb' 0 32).toNat

/-- "HEXT (-> a)   HEXT (-> b)   NMRG a, b (-> m)   HINS m". -/
def manualTurn (s : State) : Option State :=
  (ranOk .hext s).bind fun s1 => (ranOk .hext s1).bind fun s2 =>
    (ranOk (.nmrg (answer s1) (answer s2)) s2).bind fun s3 => ranOk (.hins (answer s3)) s3

/-- "repeat n times". -/
def manualTurns : Nat → State → Option State
  | 0, s => some s
  | n + 1, s => (manualTurn s).bind (manualTurns n)

/-- BUILDMANUAL (R109) on a table that is already loaded: the drop by rewriting one entry with its own value, and, for N >= 1, the rest. -/
def buildManual (s : State) : Option State :=
  match symbols s with
  | [] => ranOk (.wrf 0 (s.freqAt 0)) s
  | a :: syms =>
    (ranAll (.wrf a (s.freqAt a) :: (a :: syms).map .nleaf ++ (List.range (syms.length + 1)).map .happ ++ [.hbld]) s).bind fun s1 =>
      (manualTurns syms.length s1).bind fun s2 =>
        (ranOk .hext s2).bind fun s3 => ranOk (.setroot (answer s3)) s3

end Sys2Proof.Machine
end

