-- ==== Sys2Proof/Certificates/Slice0/Obligations.lean ====
section
/-! DEFINITION. The statements for the provers. Each docstring says what its statement formalises and which rules of spec/ it rests on. -/

open Sys2Proof Sys2Proof.Machine

/-- O1 (R85, R86, R87, R88, R93). For every well-formed command i, with every operand at every value its field admits, decode
(encode i) is i. -/
def Obligations.DecodeOfEncodeIsTheCommand : Prop :=
  ∀ i, WellFormed i = true → decode (encode i) = .instr i

/-- O2 (R85, R86, R89, R95). If decode w gives the command i then i is well-formed and encode i = w: no bit of an accepted word is
ignored, and every command has one word. -/
def Obligations.EveryLegalWordIsTheWordOfItsCommand : Prop :=
  ∀ w i, decode w = .instr i → WellFormed i = true ∧ encode i = w

/-- O3 (R93). For every word w and every row of R93: if w & mask = match then w decodes to a command of that row's mnemonic. If w
decodes to a command, some row of that mnemonic has w & mask = match. -/
def Obligations.OpcodeMapDecidesEveryWord : Prop :=
  ∀ w, (∀ r ∈ opcodeMap, w &&& r.2.2 = r.2.1 → ∃ i, decode w = .instr i ∧ mnemonic i = r.1) ∧
    (∀ i, decode w = .instr i → ∃ r ∈ opcodeMap, r.1 = mnemonic i ∧ w &&& r.2.2 = r.2.1)

/-- O4 (R89, R94). A word whose OP is reserved matches no row of the opcode map, whatever its other bits. The Cmd step of a word
that matches no row, in a phase that accepts commands, records E_ILLCMD, ERRINFO = w[47:32] and PHASE = ERR and answers ERR=1
DATA=0 and does nothing else; in phase ERR it only answers. -/
def Obligations.WordsOfNoRowFaultIllegal : Prop :=
  (∀ w, isReservedOp (w.toNat / 2 ^ 42) → matchesNoRow w) ∧
    (∀ w s, matchesNoRow w → s.cmdReady = true → cmdStep w s = .next (illegalAnswer s w))

/-- O5 (R93, R97, 95_test_vectors.md section 2.1). The words the spec's vectors give for RDSR 1, WRLEN 1 1, WRF 255 0xFFFFFFFF,
COUNT, GENCODE, ENCODE, DECODE, NMRG 600 600, HINS 3, SETROOT 511, RDN 4 3 and RDC 'b' 1 decode to these commands, and
0x000000000000, 0x5C0000000000, 0x040000000001, 0x440000000400 and 0x600000000010 decode to none. -/
def Obligations.WordsOfTheSpecDecodeAsWritten : Prop :=
  decode 0x0C0100000000#48 = .instr (.rdsr 1) ∧ decode 0x100100000001#48 = .instr (.wrlen 1 1#32) ∧
    decode 0x18FFFFFFFFFF#48 = .instr (.wrf 255 0xFFFFFFFF#32) ∧ decode 0x200000000000#48 = .instr .count ∧
    decode 0x340000000000#48 = .instr .gencode ∧ decode 0x380000000000#48 = .instr .encode ∧
    decode 0x3C0000000000#48 = .instr .decode ∧ decode 0x465800000258#48 = .instr (.nmrg 600 600) ∧
    decode 0x4C0300000000#48 = .instr (.hins 3) ∧ decode 0x59FF00000000#48 = .instr (.setroot 511) ∧
    decode 0x600400000003#48 = .instr (.rdn 4 3) ∧ decode 0x686200000001#48 = .instr (.rdc 0x62 1) ∧
    decode 0x000000000000#48 = .illegal .reservedOp ∧ decode 0x5C0000000000#48 = .illegal .reservedOp ∧
    decode 0x040000000001#48 = .illegal .mustBeZero ∧ decode 0x440000000400#48 = .illegal .mustBeZero ∧
    decode 0x600000000010#48 = .illegal .mustBeZero

/-- O6 (R15, R20, R92). If the next edge presents a word that decodes to i, in a phase that accepts commands, then step is exec i of
the state with that edge taken and the old response pulse over, after the Dout and Din steps of the same edge if the host also
takes a byte or presents one. -/
def Obligations.StepRunsTheDecodedCommand : Prop :=
  ∀ s r b w i rest, s.edges = .ports r b (some w) :: rest → s.cmdReady = true → decode w = .instr i →
    step s = exec i ((({ s with rsp := none, edges := rest } : State).doutAt r).dinAt b)

/-- O7 (R49). cmd_ready is 1 exactly when PHASE is IDLE, COUNT, ENCODE or ERR; in the other phases an edge that presents a command
word changes nothing of the block (the response pulse of the edge before is over and the edge is spent; the command is still the
host's). -/
def Obligations.PresentedCommandWaits : Prop :=
  (∀ s : State, s.cmdReady = true ↔ s.phase = .idle ∨ s.phase = .count ∨ s.phase = .encode ∨ s.phase = .err) ∧
    (∀ s w rest, s.edges = .ports false none (some w) :: rest →
      (s.phase = .rdhdr ∨ s.phase = .decode ∨ s.phase = .drain) → step s = .next { s with rsp := none, edges := rest })

/-- O8 (R50). din_ready is 1 exactly when PHASE is COUNT, ENCODE or RDHDR, or PHASE is DECODE and the root is no leaf; in every
other state an edge that presents a din byte changes nothing of the block. -/
def Obligations.PresentedByteWaits : Prop :=
  (∀ s : State, s.dinReady = true ↔ s.phase = .count ∨ s.phase = .encode ∨ s.phase = .rdhdr ∨
      (s.phase = .decode ∧ (s.nodeAt s.root.toNat).left ≠ NIL)) ∧
    (∀ s b rest, s.edges = .ports false (some b) none :: rest → s.dinReady = false →
      step s = .next { s with rsp := none, edges := rest })

/-- O9 (R20, R75, R166, R198, R252). In phase COUNT, at one edge with byte b and the word of END: if FREQ[b] is not 0xFFFFFFFF, then
FREQ[b], ORIGLEN and IN_CNT grow by one, PHASE is IDLE and the answer is ERR=0; if it is, the beat faults with E_FREQ_OVF and
END is answered E_SEQ in phase ERR. -/
def Obligations.ByteBelongsToThePassThatEndsAtItsEdge : Prop :=
  ∀ s b rest, s.phase = .count → s.edges = .ports false (some b) (some 0x240000000000#48) :: rest →
    (s.freqAt b.toNat ≠ 0xFFFFFFFF#32 →
      step s = .next (okWith { (s.setFreq b.toNat (s.freqAt b.toNat + 1#32)) with
        origLen := s.origLen + 1#64, inCnt := s.inCnt + 1#64, phase := .idle, edges := rest } 0#32)) ∧
    (s.freqAt b.toNat = 0xFFFFFFFF#32 →
      step s = .next (refusedWith { s with
        errCode := .freqOvf, errInfo := 0x80000000#32 ||| b.setWidth 32, phase := .err, edges := rest } .seq))

/-- O10 (R55, R64, R270, R271). At an edge with rst high, from any state: FREQ is all 0, ORIGLEN 0, NODE_CNT 0, HEAP_SIZE 0, ROOT
NIL, NSYM 0, both flags 0, ACC and ACC_CNT 0, CUR NIL, the counters 0, OQ empty, ERRCODE 0, ERRINFO 0, PHASE IDLE; no response
is emitted and no byte delivered; the build parameter P_HDR_ENDIAN stays; the pins are those of the table. The code table,
unspecified after reset, is not spoken of. -/
def Obligations.ResetEdgeGivesTheResetValues : Prop :=
  ∀ s rest, s.edges = .reset :: rest → ∃ t, step s = .next t ∧
    (∀ a, a < 256 → t.freqAt a = 0#32) ∧ t.origLen = 0#64 ∧ t.nodeCnt = 0 ∧ t.heapSize = 0 ∧ t.root = NIL ∧ t.nsym = 0#9 ∧
    t.treeValid = false ∧ t.codeValid = false ∧ t.acc = 0#8 ∧ t.accCnt = 0#3 ∧ t.cur = NIL ∧ t.inCnt = 0#64 ∧
    t.outCnt = 0#64 ∧ t.emitCnt = 0#64 ∧ t.oq = [] ∧ t.errCode = .ok ∧ t.errInfo = 0#32 ∧ t.phase = .idle ∧
    t.rsp = none ∧ t.rspLog = s.rspLog ∧ t.doutLog = s.doutLog ∧ t.edges = rest ∧
    t.hdrEndian = s.hdrEndian ∧
    t.cmdReady = true ∧ t.dinReady = false ∧ t.doutValid = false ∧ t.busy = false ∧ t.errPin = false

/-- O11 (R242, R243, R244, R245). If a command executed outside phase ERR leaves PHASE = ERR, then for some code c among the faults
listed for that command the state is the old one but for ERRCODE = c, ERRINFO = {OP, A}, PHASE = ERR and the response {c, 0}. So
no memory, register, flag, queue or counter changes in a faulting command. -/
def Obligations.CommandFaultsArePrecise : Prop :=
  ∀ i s t, s.phase ≠ .err → exec i s = .next t → t.phase = .err → ∃ c ∈ ownFaults i, t = faulted s i c

/-- O12 (R246). If the Din step of byte b, outside phase ERR, leaves PHASE = ERR, then either PHASE was COUNT and FREQ[b] =
0xFFFFFFFF and the code is E_FREQ_OVF, or PHASE was ENCODE and CODE_LEN[b] = 0 and the code is E_NOCODE; the state is the old
one but for ERRCODE, ERRINFO = 0x80000000 | b and PHASE (so no response is emitted); err is then high and din_ready low; an END
presented then is refused with E_SEQ, and SR1 shows PHASE 15 and the code. -/
def Obligations.BeatFaultsArePrecise : Prop :=
  ∀ (s : State) b, s.phase ≠ .err → (s.din b).phase = .err →
    ((s.phase = .count ∧ s.freqAt b.toNat = 0xFFFFFFFF#32 ∧
        s.din b = { s with errCode := .freqOvf, errInfo := 0x80000000#32 ||| b.setWidth 32, phase := .err }) ∨
      (s.phase = .encode ∧ s.codeLenAt b.toNat = 0#8 ∧
        s.din b = { s with errCode := .noCode, errInfo := 0x80000000#32 ||| b.setWidth 32, phase := .err })) ∧
    (s.din b).errPin = true ∧ (s.din b).dinReady = false ∧
    exec .endPass (s.din b) = .next (refusedWith (s.din b) .seq) ∧
    exec (.rdsr 1) (s.din b) = .next (okWith (s.din b) ((s.din b).sr 1)) ∧
    ((s.din b).sr 1).extractLsb' 0 4 = 15#4 ∧ ((s.din b).sr 1).extractLsb' 4 4 = (s.din b).errCode.toBits

/-- O13 (R92, R96, R241). In a phase that accepts commands: a command whose entry in the phase table is not ok leaves the state
unchanged but for the fault E_SEQ and its response (in ERR the response alone); and a command whose entry is ok is not turned
away for its phase: only a failing flag precondition (step 4 of R92) can then give it E_SEQ (GENCODE with TREE_VALID 0, ENCODE
or RDC with CODE_VALID 0, DECODE with ORIGLEN not 0 and TREE_VALID 0). -/
def Obligations.WrongPhaseFaultsWithESeq : Prop :=
  (∀ i, WrongPhase i) ∧
    (∀ i s, allowedIn i s.phase = true → exec i s = .next (failed s i .seq) →
      (i = .gencode ∧ s.treeValid = false) ∨ (i = .encode ∧ s.codeValid = false) ∨
      (∃ a sel, i = .rdc a sel ∧ s.codeValid = false) ∨ (i = .decode ∧ s.origLen ≠ 0#64 ∧ s.treeValid = false))

/-- O14 (R236, R247). In phase ERR the Cmd step of any word: an illegal word is answered ERR=1 DATA=0; CLR leaves phase IDLE with
ERRCODE and ERRINFO 0; a read command is answered with its data, or with a fault code and DATA 0; any other command is answered
ERR=2 DATA=0. But for CLR nothing changes except the response. -/
def Obligations.ErrPhaseRunsOnlyClrAndReads : Prop :=
  ∀ s w, s.phase = .err →
    match decode w with
    | .illegal _ => cmdStep w s = .next (answered s 1#4 0#32)
    | .instr .clr => ∃ t, cmdStep w s = .next t ∧ t.phase = .idle ∧ t.errCode = .ok ∧ t.errInfo = 0#32
    | .instr i =>
      if isRead i then ∃ c d, cmdStep w s = .next (answered s c d) ∧ (c ≠ 0#4 → d = 0#32)
      else cmdStep w s = .next (answered s 2#4 0#32)

/-- O15 (R39, R237, R247, R251). From a state in phase ERR, an edge that is no reset and presents no word of CLR leaves PHASE,
ERRCODE, ERRINFO and every register, array, flag and counter as they were; only bytes taken from OQ and responses differ. -/
def Obligations.FirstFaultIsKept : Prop :=
  ∀ s t, s.phase = .err → s.edges.head? ≠ some .reset →
    (∀ r b rest, s.edges ≠ .ports r b (some 0x080000000000#48) :: rest) → step s = .next t →
    t = { s with oq := t.oq, doutLog := t.doutLog, rsp := t.rsp, rspLog := t.rspLog, edges := t.edges } ∧
      ((t.oq = s.oq ∧ t.doutLog = s.doutLog) ∨ ∃ b, s.oq = b :: t.oq ∧ t.doutLog = s.doutLog ++ [b])

/-- O16 (R41). For every command in an accepting phase: either it is allowed there, PHASE moves to the value the table gives it (in
ERR every command but CLR stays in ERR), and the condition of its row holds (ENCODE: CODE_VALID = 1; DECODE: ORIGLEN = 0, or
TREE_VALID = 1 and ROOT not NIL); or the next state is that of a fault (in ERR of the response alone), PHASE is ERR, and not
both is it allowed and the condition of a row that names it met. So COUNT, RDHDR, WRHDR, END and CLR always move where they are
allowed, and no command goes to ERR but by a fault. An illegal word goes to ERR; a word in a phase that accepts no command
changes nothing. For every din byte and every internal step PHASE moves exactly as the table says; a Dout step leaves it; a
reset gives IDLE. -/
def Obligations.PhaseChangesOnlyAsTheTableSays : Prop :=
  (∀ i s t, s.cmdReady = true → exec i s = .next t →
      (allowedIn i s.phase = true ∧ t.phase = commandMoves s i ∧ (i = .encode ∨ i = .decode → rowHolds s i = true)) ∨
        (¬ (allowedIn i s.phase = true ∧ rowHolds s i = true) ∧ t.phase = .err ∧ ∃ c ∈ ownFaults i, t = failed s i c)) ∧
    (∀ s w, s.cmdReady = true → (∀ i, decode w ≠ .instr i) → ∃ t, cmdStep w s = .next t ∧ t.phase = .err) ∧
    (∀ s w, s.cmdReady = false → cmdStep w s = .next s) ∧
    (∀ (s : State) b, (s.din b).phase = dinMoves s b) ∧
    (∀ s : State, s.internal.phase = internalMoves s) ∧
    (∀ s : State, s.dout.phase = s.phase) ∧
    (∀ s : State, s.cleared.phase = .idle)

/-- O17 (R54, R90, R91). A command executed in an accepting phase appends exactly one response word to those emitted, and pulses
that word; RDHDR, WRHDR, DECODE and END in phase ENCODE, when they do not fault, emit none in their own step. A Din, Dout or
internal step emits none, except the 1032nd header byte and DrainDone, which answer ERR=0 DATA=0. -/
def Obligations.OneResponsePerCommand : Prop :=
  (∀ i s t, s.cmdReady = true → exec i s = .next t →
      (∃ r, t.rsp = some r ∧ t.rspLog = s.rspLog ++ [r]) ∨
        (isDeferred s i = true ∧ t.phase ≠ .err ∧ t.rsp = s.rsp ∧ t.rspLog = s.rspLog)) ∧
    (∀ i s t, s.cmdReady = true → exec i s = .next t → isDeferred s i = true → allowedIn i s.phase = true → t.phase ≠ .err →
      t.rsp = s.rsp ∧ t.rspLog = s.rspLog) ∧
    (∀ (s : State) b, (s.din b).rspLog =
      if s.phase = .rdhdr ∧ s.inCnt + 1#64 = 1032#64 then s.rspLog ++ [0#36] else s.rspLog) ∧
    (∀ s : State, s.internal.rspLog = if s.phase = .drain ∧ s.oq = [] then s.rspLog ++ [0#36] else s.rspLog) ∧
    (∀ s : State, s.dout.rspLog = s.rspLog)

/-- O18 (R69, R236). RDSR, RDF, RDN, RDH and RDC in an accepting phase leave a next state that is the old one with a response, or,
where a check fails outside phase ERR, the state of that fault. -/
def Obligations.ReadsChangeNothing : Prop :=
  ∀ i s, isRead i = true → s.cmdReady = true →
    ∃ c d, exec i s = .next (answered s c.toBits d) ∨ (c ≠ .ok ∧ s.phase ≠ .err ∧ exec i s = .next (faulted s i c))

/-- O19 (R216). In IDLE, NOP leaves the state as it was but for the response ERR=0 DATA=0; in COUNT and ENCODE it faults with E_SEQ,
in ERR it is refused with it. -/
def Obligations.NopAnswersAndChangesNothing : Prop :=
  (∀ s, s.phase = .idle → exec .nop s = .next (okWith s 0#32)) ∧ WrongPhase .nop

/-- O20 (R55, R64, R217, R250). In IDLE and in ERR, CLR gives every piece of state a rule can read its reset value, empties OQ and
answers ERR=0 DATA=0; the host's side and the build parameter P_HDR_ENDIAN are untouched. In COUNT and ENCODE it faults with
E_SEQ. The code table, unreadable then, is not spoken of. -/
def Obligations.ClrReturnsToTheResetState : Prop :=
  (∀ s, (s.phase = .idle ∨ s.phase = .err) → ∃ t, exec .clr s = .next t ∧
      (∀ a, a < 256 → t.freqAt a = 0#32) ∧ t.origLen = 0#64 ∧ t.nodeCnt = 0 ∧ t.heapSize = 0 ∧ t.root = NIL ∧ t.nsym = 0#9 ∧
      t.treeValid = false ∧ t.codeValid = false ∧ t.acc = 0#8 ∧ t.accCnt = 0#3 ∧ t.cur = NIL ∧ t.inCnt = 0#64 ∧
      t.outCnt = 0#64 ∧ t.emitCnt = 0#64 ∧ t.oq = [] ∧ t.errCode = .ok ∧ t.errInfo = 0#32 ∧ t.phase = .idle ∧
      t.rsp = some 0#36 ∧ t.rspLog = s.rspLog ++ [0#36] ∧ t.doutLog = s.doutLog ∧ t.edges = s.edges ∧
      t.hdrEndian = s.hdrEndian) ∧
    WrongPhase .clr

/-- O21 (R44, R219). In IDLE, COUNT, ENCODE and ERR, RDSR A with A < 16 answers SR[A] and changes nothing else, where SR0 is the
identification word, SR1 STATUS, SR2 ERRINFO, SR3/SR4 the halves of ORIGLEN, SR5 NSYM, SR6 NODE_CNT, SR7 HEAP_SIZE, SR8 ROOT,
SR9/10, SR11/12, SR13/14 the halves of IN_CNT, OUT_CNT, EMIT_CNT and SR15 CUR, unlisted bits 0, and at reset they hold the
values of the map; A >= 16 fails with E_RANGE. -/
def Obligations.RdsrReadsTheStatusRegisters : Prop :=
  (∀ s a, s.cmdReady = true → a < 16 → exec (.rdsr a) s = .next (okWith s (s.sr a))) ∧
    (∀ s a, s.cmdReady = true → 16 ≤ a → exec (.rdsr a) s = .next (failed s (.rdsr a) .range)) ∧
    (∀ s : State, s.sr 0 = 0x48554601#32 ∧ s.sr 1 = s.status ∧ s.sr 2 = s.errInfo ∧
      (s.sr 3).toNat = s.origLen.toNat % 2 ^ 32 ∧ (s.sr 4).toNat = s.origLen.toNat / 2 ^ 32 ∧ (s.sr 5).toNat = s.nsym.toNat ∧
      (s.nodeCnt < 2 ^ 10 → (s.sr 6).toNat = s.nodeCnt) ∧ (s.heapSize < 2 ^ 9 → (s.sr 7).toNat = s.heapSize) ∧
      (s.sr 8).toNat = s.root.toNat ∧
      (s.sr 9).toNat = s.inCnt.toNat % 2 ^ 32 ∧ (s.sr 10).toNat = s.inCnt.toNat / 2 ^ 32 ∧
      (s.sr 11).toNat = s.outCnt.toNat % 2 ^ 32 ∧ (s.sr 12).toNat = s.outCnt.toNat / 2 ^ 32 ∧
      (s.sr 13).toNat = s.emitCnt.toNat % 2 ^ 32 ∧ (s.sr 14).toNat = s.emitCnt.toNat / 2 ^ 32 ∧
      (s.sr 15).toNat = s.cur.toNat) ∧
    (List.range 16).map State.reset.sr =
      [0x48554601#32, 0x00000400#32, 0, 0, 0, 0, 0, 0, 0x1FF#32, 0, 0, 0, 0, 0, 0, 0x1FF#32]

/-- O22 (R45). In every state SR1[3:0] is PHASE, [7:4] ERRCODE, [8] TREE_VALID, [9] CODE_VALID, [10] 1 when ROOT = NIL, [11] 1 when
ROOT is a leaf, [12] 1 when OQ is not empty, [15:13] ACC_CNT, [23:16] ACC, [31:24] 0; after reset it is 0x00000400. -/
def Obligations.StatusWordFields : Prop :=
  (∀ s : State, (s.sr 1).extractLsb' 0 4 = s.phase.toBits ∧ (s.sr 1).extractLsb' 4 4 = s.errCode.toBits ∧
      (s.sr 1).getLsbD 8 = s.treeValid ∧ (s.sr 1).getLsbD 9 = s.codeValid ∧
      ((s.sr 1).getLsbD 10 = true ↔ s.root = NIL) ∧
      ((s.sr 1).getLsbD 11 = true ↔ s.root ≠ NIL ∧ (s.nodeAt s.root.toNat).left = NIL) ∧
      ((s.sr 1).getLsbD 12 = true ↔ s.oq ≠ []) ∧ (s.sr 1).extractLsb' 13 3 = s.accCnt ∧
      (s.sr 1).extractLsb' 16 8 = s.acc ∧ (s.sr 1).extractLsb' 24 8 = 0#8) ∧
    State.reset.sr 1 = 0x00000400#32

/-- O23 (R221). In IDLE, WRLEN 0, D replaces ORIGLEN[31:0] and WRLEN 1, D replaces ORIGLEN[63:32]; the other half and all other
state stay; the answer is ERR=0. A >= 2 faults with E_RANGE; other phases with E_SEQ. -/
def Obligations.WrlenLoadsOneHalf : Prop :=
  (∀ s d, s.phase = .idle → exec (.wrlen 0 d) s =
      .next (okWith { s with origLen := BitVec.ofNat 64 (s.origLen.toNat / 2 ^ 32 * 2 ^ 32 + d.toNat) } 0#32)) ∧
    (∀ s d, s.phase = .idle → exec (.wrlen 1 d) s =
      .next (okWith { s with origLen := BitVec.ofNat 64 (d.toNat * 2 ^ 32 + s.origLen.toNat % 2 ^ 32) } 0#32)) ∧
    (∀ s a d, s.phase = .idle → 2 ≤ a → exec (.wrlen a d) s = .next (faulted s (.wrlen a d) .range)) ∧
    (∀ a d, WrongPhase (.wrlen a d))

/-- O24 (R223). In IDLE and ERR, RDF A with A < 256 answers FREQ[A] and changes nothing else; A >= 256 fails with E_RANGE; in COUNT
and ENCODE it faults with E_SEQ. -/
def Obligations.RdfReadsOneFrequency : Prop :=
  (∀ s a, (s.phase = .idle ∨ s.phase = .err) → a < 256 → exec (.rdf a) s = .next (okWith s (s.freqAt a))) ∧
    (∀ s a, (s.phase = .idle ∨ s.phase = .err) → 256 ≤ a → exec (.rdf a) s = .next (failed s (.rdf a) .range)) ∧
    (∀ a, WrongPhase (.rdf a))

/-- O25 (R130, R224). In IDLE, WRF A, D with A < 256 sets FREQ[A] = D, keeps every other entry, sets NODE_CNT, HEAP_SIZE and NSYM to
0, ROOT to NIL and both flags to 0, changes nothing else and answers ERR=0; A >= 256 faults with E_RANGE; other phases with
E_SEQ. -/
def Obligations.WrfWritesOneFrequencyAndDropsTheTree : Prop :=
  (∀ s a d, s.phase = .idle → a < 256 → ∃ f : Vector Freq 256, exec (.wrf a d) s =
      .next (okWith { s with
        freq := f, nodes := [], heap := [], root := NIL, nsym := 0#9, treeValid := false, codeValid := false } 0#32) ∧ f[a]? = some d ∧ ∀ b, b ≠ a → f[b]? = s.freq[b]?) ∧
    (∀ s a d, s.phase = .idle → 256 ≤ a → exec (.wrf a d) s = .next (faulted s (.wrf a d) .range)) ∧
    (∀ a d, WrongPhase (.wrf a d))

/-- O26 (R226). In IDLE and ERR, RDN A, S with A < NODE_CNT answers for S = 0 to 5 freq[31:0], freq[39:32], sym, left, right, owned
of NODE[A], zero-extended, and changes nothing else; A >= NODE_CNT or S >= 6 fails with E_RANGE; in COUNT and ENCODE E_SEQ. -/
def Obligations.RdnReadsOneNodeField : Prop :=
  (∀ s a, (s.phase = .idle ∨ s.phase = .err) → a < s.nodeCnt →
      exec (.rdn a 0) s = .next (okWith s (BitVec.ofNat 32 ((s.nodeAt a).freq.toNat % 2 ^ 32))) ∧
      exec (.rdn a 1) s = .next (okWith s (BitVec.ofNat 32 ((s.nodeAt a).freq.toNat / 2 ^ 32))) ∧
      exec (.rdn a 2) s = .next (okWith s (BitVec.ofNat 32 (s.nodeAt a).sym.toNat)) ∧
      exec (.rdn a 3) s = .next (okWith s (BitVec.ofNat 32 (s.nodeAt a).left.toNat)) ∧
      exec (.rdn a 4) s = .next (okWith s (BitVec.ofNat 32 (s.nodeAt a).right.toNat)) ∧
      exec (.rdn a 5) s = .next (okWith s (if (s.nodeAt a).owned then 1#32 else 0#32))) ∧
    (∀ s a sel, (s.phase = .idle ∨ s.phase = .err) → (s.nodeCnt ≤ a ∨ 6 ≤ sel) →
      exec (.rdn a sel) s = .next (failed s (.rdn a sel) .range)) ∧
    (∀ a sel, WrongPhase (.rdn a sel))

/-- O27 (R229). In IDLE and ERR, RDH A with A < HEAP_SIZE answers HEAP[A] zero-extended and changes nothing else; A >= HEAP_SIZE
fails with E_RANGE; in COUNT and ENCODE E_SEQ. -/
def Obligations.RdhReadsOneHeapPosition : Prop :=
  (∀ s a, (s.phase = .idle ∨ s.phase = .err) → a < s.heapSize →
      exec (.rdh a) s = .next (okWith s (BitVec.ofNat 32 (s.heapAt a).toNat))) ∧
    (∀ s a, (s.phase = .idle ∨ s.phase = .err) → s.heapSize ≤ a → exec (.rdh a) s = .next (failed s (.rdh a) .range)) ∧
    (∀ a, WrongPhase (.rdh a))

/-- O28 (R232). In IDLE and ERR with CODE_VALID = 1, RDC A, S with A < 256 answers CODE_LEN[A] for S = 0 and, for S = 1 to 8, the
word whose bit 31 is bit 255 - 32*(S-1) of CODE_BITS[A]; nothing else changes; A >= 256 or S >= 9 fails with E_RANGE; with
CODE_VALID = 0, or in COUNT or ENCODE, E_SEQ. -/
def Obligations.RdcReadsOneCode : Prop :=
  (∀ s a, (s.phase = .idle ∨ s.phase = .err) → s.codeValid = true → a < 256 →
      exec (.rdc a 0) s = .next (okWith s (BitVec.ofNat 32 (s.codeLenAt a).toNat))) ∧
    (∀ s a sel, (s.phase = .idle ∨ s.phase = .err) → s.codeValid = true → a < 256 → 1 ≤ sel → sel < 9 →
      ∃ d : Data, exec (.rdc a sel) s = .next (okWith s d) ∧
        ∀ k, k < 32 → d.getLsbD (31 - k) = (s.codeBitsAt a).getLsbD (255 - 32 * (sel - 1) - k)) ∧
    (∀ s a sel, (s.phase = .idle ∨ s.phase = .err) → s.codeValid = true → (256 ≤ a ∨ 9 ≤ sel) →
      exec (.rdc a sel) s = .next (failed s (.rdc a sel) .range)) ∧
    (∀ s a sel, (s.phase = .idle ∨ s.phase = .err) → s.codeValid = false →
      exec (.rdc a sel) s = .next (failed s (.rdc a sel) .seq)) ∧
    (∀ a sel, WrongPhase (.rdc a sel))

/-- O29 (R196). In IDLE, COUNT sets every FREQ entry, ORIGLEN and IN_CNT to 0, drops tree, heap, NSYM and both flags, sets PHASE to
COUNT, changes nothing else and answers ERR=0; other phases E_SEQ. -/
def Obligations.CountOpensAnEmptyPass : Prop :=
  (∀ s, s.phase = .idle → ∃ f : Vector Freq 256, exec .count s =
      .next (okWith { s with
        freq := f, origLen := 0#64, inCnt := 0#64, nodes := [], heap := [], root := NIL, nsym := 0#9,
        treeValid := false, codeValid := false, phase := .count } 0#32) ∧ ∀ a, a < 256 → f[a]? = some 0#32) ∧
    WrongPhase .count

/-- O30 (R198). In phase COUNT, the byte b with FREQ[b] below 0xFFFFFFFF adds one to FREQ[b], ORIGLEN and IN_CNT, keeps every other
entry and all other state and emits no response; with FREQ[b] = 0xFFFFFFFF only ERRCODE = E_FREQ_OVF, ERRINFO = 0x80000000 | b
and PHASE = ERR are written. -/
def Obligations.CountBeatCountsOneByte : Prop :=
  ∀ (s : State) b, s.phase = .count →
    (s.freqAt b.toNat ≠ 0xFFFFFFFF#32 → ∃ f : Vector Freq 256,
      s.din b = { s with freq := f, origLen := s.origLen + 1#64, inCnt := s.inCnt + 1#64 } ∧
        f[b.toNat]? = some (s.freqAt b.toNat + 1#32) ∧ ∀ a, a ≠ b.toNat → f[a]? = s.freq[a]?) ∧
    (s.freqAt b.toNat = 0xFFFFFFFF#32 →
      s.din b = { s with errCode := .freqOvf, errInfo := 0x80000000#32 ||| b.setWidth 32, phase := .err })

/-- O31 (R64, R200, R201). In IDLE, WRHDR appends to OQ eight bytes of ORIGLEN and four bytes of each FREQ entry in symbol order,
sets OUT_CNT to 1032 and PHASE to DRAIN, emits no response and changes nothing else; other phases E_SEQ. Byte j of an n-byte
integer v is v[8j+7:8j] where P_HDR_ENDIAN is little and v[8(n-1-j)+7:8(n-1-j)] where it is big. It holds for both values; that
the reset state has little is log entry 4 and no part of this statement. -/
def Obligations.WrhdrPushesTheHeader : Prop :=
  (∀ s : State, s.phase = .idle → ∃ bytes : List Byte, exec .wrhdr s =
      .next { s with oq := s.oq ++ bytes, outCnt := 1032#64, phase := .drain } ∧ bytes.length = 1032 ∧
        let place (n j : Nat) : Nat := if s.hdrEndian = .little then j else n - 1 - j
        (∀ j, j < 8 → bytes[j]? = some (BitVec.ofNat 8 (s.origLen.toNat / 2 ^ (8 * place 8 j)))) ∧
        (∀ a j, a < 256 → j < 4 → bytes[8 + 4 * a + j]? = some (BitVec.ofNat 8 ((s.freqAt a).toNat / 2 ^ (8 * place 4 j))))) ∧
    WrongPhase .wrhdr

/-- O32 (R204). In IDLE, RDHDR drops tree, heap, NSYM and both flags, sets IN_CNT to 0 and PHASE to RDHDR, emits no response and
changes nothing else (FREQ and ORIGLEN keep their values); other phases E_SEQ. -/
def Obligations.RdhdrOpensTheHeaderRead : Prop :=
  (∀ s, s.phase = .idle → exec .rdhdr s =
      .next { s with
        inCnt := 0#64, nodes := [], heap := [], root := NIL, nsym := 0#9, treeValid := false, codeValid := false,
        phase := .rdhdr }) ∧
    WrongPhase .rdhdr

/-- O33 (R64, R200, R201, R206, R209, R275). Let t be the state after WRHDR in a state s in IDLE with OQ empty, and u a state in
phase RDHDR with IN_CNT = 0 and the same P_HDR_ENDIAN, whichever of its two values that is. After the din beats of the bytes in
OQ of t, ORIGLEN and FREQ of u are those of s, IN_CNT is 1032, PHASE is IDLE, exactly one response ERR=0 DATA=0 has been
emitted, and all other state of u is unchanged. And no step of any kind changes P_HDR_ENDIAN. -/
def Obligations.HeaderReadRecoversTheHeaderWritten : Prop :=
  (∀ s t u : State, s.phase = .idle → s.oq = [] → exec .wrhdr s = .next t →
      u.phase = .rdhdr → u.inCnt = 0#64 → u.hdrEndian = s.hdrEndian →
      t.oq.foldl State.din u =
        okWith { u with origLen := s.origLen, freq := s.freq, inCnt := 1032#64, phase := .idle } 0#32) ∧
    (∀ s t, step s = .next t → t.hdrEndian = s.hdrEndian)

/-- O34 (R116). In IDLE with a < NODE_CNT and HEAP_SIZE < 256, HAPP a appends a, changes nothing else and answers the new size; a >=
NODE_CNT faults with E_RANGE; a full heap with E_HEAP_FULL; other phases with E_SEQ. (NODE_CNT <= 511 as in every reachable
state.) -/
def Obligations.HappAppendsWithoutSifting : Prop :=
  (∀ s a, s.phase = .idle → s.nodeCnt ≤ 511 → a < s.nodeCnt → s.heapSize < 256 →
      ∃ n : Idx, n.toNat = a ∧ exec (.happ a) s =
        .next (okWith { s with heap := s.heap ++ [n] } (BitVec.ofNat 32 (s.heapSize + 1)))) ∧
    (∀ s a, s.phase = .idle → s.nodeCnt ≤ a → exec (.happ a) s = .next (faulted s (.happ a) .range)) ∧
    (∀ s a, s.phase = .idle → a < s.nodeCnt → 256 ≤ s.heapSize → exec (.happ a) s = .next (faulted s (.happ a) .heapFull)) ∧
    (∀ a, WrongPhase (.happ a))

/-- O35 (R110, R114, R117, R120). In IDLE with a < NODE_CNT and HEAP_SIZE < 256, HINS a completes: the array holds the old entries
and a, every other piece of state is unchanged, the answer is the new size, and if the heap property held it holds after. a >=
NODE_CNT faults with E_RANGE, else a full heap with E_HEAP_FULL; other phases with E_SEQ. -/
def Obligations.HinsInsertsAndKeepsTheHeap : Prop :=
  (∀ s a, s.phase = .idle → a < s.nodeCnt → s.heapSize < 256 → ∃ h, exec (.hins a) s =
      .next (okWith { s with heap := h } (BitVec.ofNat 32 (s.heapSize + 1))) ∧
        h.Perm (BitVec.ofNat 9 a :: s.heap) ∧ (IsHeap s.key s.heap → IsHeap s.key h)) ∧
    (∀ s a, s.phase = .idle → s.nodeCnt ≤ a → exec (.hins a) s = .next (faulted s (.hins a) .range)) ∧
    (∀ s a, s.phase = .idle → a < s.nodeCnt → 256 ≤ s.heapSize → exec (.hins a) s = .next (faulted s (.hins a) .heapFull)) ∧
    (∀ a, WrongPhase (.hins a))

/-- O36 (R110, R115, R118, R120). In IDLE with HEAP_SIZE > 0, HEXT completes: it answers HEAP[0], the array holds the other entries,
every other piece of state is unchanged; if the heap property held, it holds after and the key answered is at most every
remaining key. With an empty heap it faults with E_HEAP_EMPTY. -/
def Obligations.HextTakesTheMinimum : Prop :=
  (∀ s, s.phase = .idle → 0 < s.heapSize → ∃ h, exec .hext s =
      .next (okWith { s with heap := h } ((s.heapAt 0).setWidth 32)) ∧ (s.heapAt 0 :: h).Perm s.heap ∧
        (IsHeap s.key s.heap → IsHeap s.key h ∧ ∀ n ∈ h, s.key (s.heapAt 0) ≤ s.key n)) ∧
    (∀ s, s.phase = .idle → s.heapSize = 0 → exec .hext s = .next (faulted s .hext .heapEmpty))

/-- O37 (R110, R119, R124). In IDLE, HBLD completes on any array: the entries are the same, the heap property holds after it,
whatever the array held before, an array of at most one entry is unchanged, all other state is unchanged and the answer is
HEAP_SIZE. -/
def Obligations.HbldMakesAnyArrayAHeap : Prop :=
  ∀ s, s.phase = .idle → ∃ h, exec .hbld s = .next (okWith { s with heap := h } (BitVec.ofNat 32 s.heapSize)) ∧
    h.Perm s.heap ∧ IsHeap s.key h ∧ (s.heapSize ≤ 1 → h = s.heap)

/-- O38 (R121). For each of the four heap commands executed in IDLE: the next state is the old one but for the heap array and the
response, or that of a fault; the new array and the answer depend on the old array and the freq fields of the nodes alone. -/
def Obligations.HeapCommandsTouchOnlyTheHeap : Prop :=
  (∀ i s t, (i = .hext ∨ i = .hbld ∨ ∃ a, i = .happ a ∨ i = .hins a) → s.phase = .idle → exec i s = .next t → t.phase ≠ .err →
      t = { s with heap := t.heap, rsp := t.rsp, rspLog := t.rspLog }) ∧
    (∀ i s s' t, (i = .hext ∨ i = .hbld ∨ ∃ a, i = .happ a ∨ i = .hins a) → s.phase = .idle → s'.phase = .idle →
      s'.heap = s.heap → s'.nodeCnt = s.nodeCnt → (∀ n, s'.key n = s.key n) → exec i s = .next t →
      ∃ t', exec i s' = .next t' ∧ t'.heap = t.heap ∧ t'.rsp = t.rsp)

/-- O39 (R131, R135). In IDLE with s < 256, FREQ[s] not 0 and NODE_CNT < 511, NLEAF s writes entry NODE_CNT = {FREQ[s] zero-
extended, s, NIL, NIL, 0}, keeps every other entry, sets ROOT to NIL and both flags to 0, changes nothing else and answers the
index; s >= 256 faults with E_RANGE, else FREQ[s] = 0 with E_ZEROFREQ, else NODE_CNT = 511 with E_ARENA_FULL; other phases
E_SEQ. -/
def Obligations.NleafAllocatesOneLeaf : Prop :=
  (∀ s a, s.phase = .idle → a < 256 → s.freqAt a ≠ 0#32 → s.nodeCnt < 511 → exec (.nleaf a) s =
      .next (okWith { s with
        nodes := s.nodes ++ [{ freq := (s.freqAt a).setWidth 40, sym := BitVec.ofNat 8 a, left := NIL, right := NIL, owned := false }],
        root := NIL, treeValid := false, codeValid := false } (BitVec.ofNat 32 s.nodeCnt))) ∧
    (∀ s a, s.phase = .idle → 256 ≤ a → exec (.nleaf a) s = .next (faulted s (.nleaf a) .range)) ∧
    (∀ s a, s.phase = .idle → a < 256 → s.freqAt a = 0#32 → exec (.nleaf a) s = .next (faulted s (.nleaf a) .zeroFreq)) ∧
    (∀ s a, s.phase = .idle → a < 256 → s.freqAt a ≠ 0#32 → 511 ≤ s.nodeCnt →
      exec (.nleaf a) s = .next (faulted s (.nleaf a) .arenaFull)) ∧
    (∀ a, WrongPhase (.nleaf a))

/-- O40 (R132, R136). In IDLE with a, b < NODE_CNT < 511, distinct and unowned, NMRG a, b writes entry NODE_CNT = {freq a + freq b,
0x00, a, b, 0}, sets owned of a and b, keeps every other field of every other entry, sets ROOT to NIL and both flags to 0,
changes nothing else and answers the index; an index at or above NODE_CNT faults with E_RANGE, else equal or owned nodes with
E_OWNED, else NODE_CNT = 511 with E_ARENA_FULL; other phases E_SEQ. -/
def Obligations.NmrgMergesTwoUnownedNodes : Prop :=
  (∀ s a b, s.phase = .idle → a < s.nodeCnt → b < s.nodeCnt → a ≠ b → (s.nodeAt a).owned = false → (s.nodeAt b).owned = false →
      s.nodeCnt < 511 → ∃ t, exec (.nmrg a b) s = .next t ∧
        t = okWith { s with nodes := t.nodes, root := NIL, treeValid := false, codeValid := false } (BitVec.ofNat 32 s.nodeCnt) ∧
        t.nodeCnt = s.nodeCnt + 1 ∧
        t.nodeAt s.nodeCnt = 
          { freq := (s.nodeAt a).freq + (s.nodeAt b).freq
            sym := 0x00#8
            left := BitVec.ofNat 9 a
            right := BitVec.ofNat 9 b
            owned := false } ∧
        ∀ n, n < s.nodeCnt → t.nodeAt n = { (s.nodeAt n) with owned := (s.nodeAt n).owned || n == a || n == b }) ∧
    (∀ s a b, s.phase = .idle → (s.nodeCnt ≤ a ∨ s.nodeCnt ≤ b) → exec (.nmrg a b) s = .next (faulted s (.nmrg a b) .range)) ∧
    (∀ s a b, s.phase = .idle → a < s.nodeCnt → b < s.nodeCnt →
      (a = b ∨ (s.nodeAt a).owned = true ∨ (s.nodeAt b).owned = true) →
      exec (.nmrg a b) s = .next (faulted s (.nmrg a b) .owned)) ∧
    (∀ s a b, s.phase = .idle → a < s.nodeCnt → b < s.nodeCnt → a ≠ b → (s.nodeAt a).owned = false → (s.nodeAt b).owned = false →
      511 ≤ s.nodeCnt → exec (.nmrg a b) s = .next (faulted s (.nmrg a b) .arenaFull)) ∧
    (∀ a b, WrongPhase (.nmrg a b))

/-- O41 (R137). In IDLE with a < NODE_CNT <= 511 and NODE[a] unowned, SETROOT a sets ROOT = a, TREE_VALID = 1, CODE_VALID = 0,
changes nothing else and answers a; a >= NODE_CNT faults with E_RANGE (so 0x1FF always does), an owned entry with E_OWNED; other
phases E_SEQ. -/
def Obligations.SetrootDeclaresTheRoot : Prop :=
  (∀ s a, s.phase = .idle → s.nodeCnt ≤ 511 → a < s.nodeCnt → (s.nodeAt a).owned = false → ∃ n : Idx, n.toNat = a ∧
      exec (.setroot a) s = .next (okWith { s with root := n, treeValid := true, codeValid := false } (BitVec.ofNat 32 a))) ∧
    (∀ s a, s.phase = .idle → s.nodeCnt ≤ a → exec (.setroot a) s = .next (faulted s (.setroot a) .range)) ∧
    (∀ s, s.phase = .idle → s.nodeCnt ≤ 511 → exec (.setroot 0x1FF) s = .next (faulted s (.setroot 0x1FF) .range)) ∧
    (∀ s a, s.phase = .idle → a < s.nodeCnt → (s.nodeAt a).owned = true →
      exec (.setroot a) s = .next (faulted s (.setroot a) .owned)) ∧
    (∀ a, WrongPhase (.setroot a))

/-- O42 (R25, R27, R138, R139, R140). In IDLE BUILD completes. With N non-zero FREQ entries: NSYM = N, HEAP_SIZE = 0, TREE_VALID =
1, CODE_VALID = 0, the answer is ROOT, all state but the arena, heap, ROOT, NSYM and flags is unchanged. N = 0: NODE_CNT = 0,
ROOT = NIL. N >= 1: NODE_CNT = 2N-1, ROOT = 2N-2, entry k < N is the leaf of the k-th non-zero symbol with its frequency.
Entries N..2N-2 are internal, each with sym 0x00 and freq the exact sum of its children's, and its children are the two least of
their time: the left freq is at most the right one, and the right one at most that of every other entry below it that no earlier
internal node has as a child. Every entry but ROOT is owned, the arena is a forest of binary trees as R25 and R27 say, and
NODE[ROOT].freq is the sum of FREQ. -/
def Obligations.BuildLeavesTheHuffmanTree : Prop :=
  ∀ s, s.phase = .idle → ∃ t, exec .build s = .next t ∧
    let syms := symbols s
    t = okWith { s with
      nodes := t.nodes, heap := [], root := t.root, nsym := BitVec.ofNat 9 syms.length, treeValid := true,
      codeValid := false } (t.root.setWidth 32) ∧
    (syms = [] → t.nodes = [] ∧ t.root = NIL) ∧
    (syms ≠ [] → t.nodeCnt = 2 * syms.length - 1 ∧ t.root.toNat = 2 * syms.length - 2 ∧
      (∀ k a, syms[k]? = some a → (t.nodeAt k).freq = (s.freqAt a).setWidth 40 ∧ (t.nodeAt k).sym = BitVec.ofNat 8 a ∧
        (t.nodeAt k).left = NIL ∧ (t.nodeAt k).right = NIL) ∧
      (∀ m, syms.length ≤ m → m < t.nodeCnt →
        let l := (t.nodeAt m).left.toNat
        let r := (t.nodeAt m).right.toNat
        (t.nodeAt m).isLeaf = false ∧ (t.nodeAt m).sym = 0x00#8 ∧
        (t.nodeAt m).freq.toNat = (t.nodeAt l).freq.toNat + (t.nodeAt r).freq.toNat ∧
        (t.nodeAt l).freq ≤ (t.nodeAt r).freq ∧
        ∀ n, n < m → n ≠ l → n ≠ r → (∀ m', m' < m → ¬ IsChild t.nodes m' (BitVec.ofNat 9 n)) →
          (t.nodeAt r).freq ≤ (t.nodeAt n).freq) ∧
      (∀ n, n < t.nodeCnt → ((t.nodeAt n).owned = true ↔ n ≠ t.root.toNat)) ∧
      ArenaOk t.nodes ∧ (t.nodeAt t.root.toNat).freq.toNat = freqSum s)

/-- O43 (R109, R141, R142). For two states in IDLE with the same FREQ, BUILD leaves the same NODE[0..NODE_CNT-1], ROOT and NSYM and
gives the same answer. From every state in IDLE with a non-zero FREQ entry the script BUILDMANUAL (the drop, NLEAF per symbol,
HAPP per leaf, HBLD, N-1 times HEXT, HEXT, NMRG, HINS, then HEXT and SETROOT) runs through without a fault and leaves the same
arena, ROOT, heap, TREE_VALID and CODE_VALID as BUILD does, with NSYM = 0. With FREQ all zero the script is only the drop:
nothing allocated, ROOT = NIL, TREE_VALID = 0, where BUILD gives 1. -/
def Obligations.BuildIsAFunctionOfTheTableAndEqualsTheScript : Prop :=
  (∀ s s', s.phase = .idle → s'.phase = .idle → (∀ a, a < 256 → s'.freqAt a = s.freqAt a) →
      ∃ t t', exec .build s = .next t ∧ exec .build s' = .next t' ∧ t'.nodes = t.nodes ∧ t'.root = t.root ∧ t'.nsym = t.nsym ∧
        t'.rsp = t.rsp) ∧
    (∀ s, s.phase = .idle → symbols s ≠ [] → ∃ t u, exec .build s = .next t ∧ buildManual s = some u ∧
      u.nodes = t.nodes ∧ u.root = t.root ∧ u.heap = t.heap ∧ u.treeValid = t.treeValid ∧ u.codeValid = t.codeValid ∧
      u.nsym = 0#9) ∧
    (∀ s, s.phase = .idle → symbols s = [] → ∃ t u, exec .build s = .next t ∧ buildManual s = some u ∧
      u.nodes = t.nodes ∧ u.root = t.root ∧ u.heap = t.heap ∧ u.nsym = 0#9 ∧ u.codeValid = t.codeValid ∧ u.treeValid = false ∧
      t.treeValid = true)

/-- O44 (R133). For every command and every arena entry below NODE_CNT: after the command either the arena was dropped by CLR, WRF,
COUNT, RDHDR or BUILD, or the entry is still allocated with the same freq, sym, left and right, and owned is unchanged or went
from 0 to 1 because NMRG made the entry a child. -/
def Obligations.ArenaEntriesNeverChangeButOwned : Prop :=
  ∀ i s t, exec i s = .next t →
    (i = .clr ∨ i = .count ∨ i = .rdhdr ∨ i = .build ∨ ∃ a d, i = .wrf a d) ∨
    (∀ n, n < s.nodeCnt → n < t.nodeCnt ∧ (t.nodeAt n).freq = (s.nodeAt n).freq ∧ (t.nodeAt n).sym = (s.nodeAt n).sym ∧
      (t.nodeAt n).left = (s.nodeAt n).left ∧ (t.nodeAt n).right = (s.nodeAt n).right ∧
      ((t.nodeAt n).owned = (s.nodeAt n).owned ∨
        ((s.nodeAt n).owned = false ∧ (t.nodeAt n).owned = true ∧ ∃ a b, i = .nmrg a b ∧ (n = a ∨ n = b))))

/-- O45 (R8, R27). In every arena that is a forest of strictly binary trees of at most 511 entries, a path of edges from an
allocated entry to an entry has at most 255 edges; so every code fits CODE_LEN and CODE_BITS. -/
def Obligations.EveryPathIsAtMost255Long : Prop :=
  ∀ nodes n p m, ArenaOk nodes → n.toNat < nodes.length → descend nodes n p = some m → p.length ≤ 255

/-- O46 (R32, R150, R151, R152, R153, R154). In IDLE with TREE_VALID = 1 and the arena, ROOT and heap as in every reachable state,
GENCODE completes: it writes the code table and CODE_VALID = 1 and nothing else and answers ERR=0. Empty tree: every length 0.
Single leaf: code "0" for its symbol, no other code. Internal root: a symbol with a code has a leaf at the end of that path of
left (0) and right (1) edges, and every leaf that a path reaches gives its symbol a code; of several leaves of one symbol the
last in left-to-right order gives it: the path of every other one lies to the left of the code. Bits past a code's length are 0.
With TREE_VALID = 0 it faults with E_SEQ. -/
def Obligations.GencodeRecordsTheRootToLeafPaths : Prop :=
  (∀ s, s.phase = .idle → s.treeValid = true → ForestOk s → ∃ t, exec .gencode s = .next t ∧
      t = okWith { s with codes := t.codes, codeValid := true } 0#32 ∧
      (s.root = NIL → ∀ a, t.codeLenAt a = 0#8) ∧
      (s.root ≠ NIL → s.rootIsLeaf = true → t.codeOf (s.nodeAt s.root.toNat).sym = [false] ∧
        ∀ b : Byte, b ≠ (s.nodeAt s.root.toNat).sym → t.codeLenAt b.toNat = 0#8) ∧
      (s.root ≠ NIL → s.rootIsLeaf = false →
        (∀ b : Byte, t.codeLenAt b.toNat ≠ 0#8 → ∃ n, descend s.nodes s.root (t.codeOf b) = some n ∧
          (s.nodeAt n.toNat).isLeaf = true ∧ (s.nodeAt n.toNat).sym = b) ∧
        (∀ p n, descend s.nodes s.root p = some n → (s.nodeAt n.toNat).isLeaf = true →
          t.codeLenAt (s.nodeAt n.toNat).sym.toNat ≠ 0#8 ∧
          (p ≠ t.codeOf (s.nodeAt n.toNat).sym → leftOf p (t.codeOf (s.nodeAt n.toNat).sym) = true))) ∧
      (∀ (b : Byte) k, (t.codeLenAt b.toNat).toNat ≤ k → k < 256 → (t.codeBitsAt b.toNat).getLsbD (255 - k) = false)) ∧
    (∀ s, s.phase = .idle → s.treeValid = false → exec .gencode s = .next (faulted s .gencode .seq))

/-- O47 (R155). After GENCODE in IDLE on a valid tree with an internal root (arena, ROOT and heap as in every reachable state), for
any two distinct symbols with codes neither code is a prefix of the other. -/
def Obligations.CodesArePrefixFree : Prop :=
  ∀ s t (a b : Byte), s.phase = .idle → s.treeValid = true → ForestOk s → s.root ≠ NIL → s.rootIsLeaf = false →
    exec .gencode s = .next t → a ≠ b → t.codeLenAt a.toNat ≠ 0#8 → t.codeLenAt b.toNat ≠ 0#8 →
    ¬ t.codeOf a <+: t.codeOf b

/-- O48 (R161). In IDLE with CODE_VALID = 1, ENCODE sets ACC, ACC_CNT, IN_CNT and OUT_CNT to 0 and PHASE to ENCODE, changes nothing
else and answers ERR=0; with CODE_VALID = 0 or in another phase it faults with E_SEQ; with OQ empty on entry, as in every
reachable state, END right after it emits no byte. -/
def Obligations.EncodeOpensThePass : Prop :=
  (∀ s, s.phase = .idle → s.codeValid = true → exec .encode s = .next (okWith { s with
      acc := 0#8, accCnt := 0#3, inCnt := 0#64, outCnt := 0#64, phase := .encode } 0#32)) ∧
    (∀ s, s.phase = .idle → s.codeValid = false → exec .encode s = .next (faulted s .encode .seq)) ∧
    (∀ s t, s.phase = .idle → s.codeValid = true → exec .encode s = .next t →
      exec .endPass t = .next { t with phase := .drain }) ∧
    WrongPhase .encode

/-- O49 (R162). In phase ENCODE, a byte b with a code: the bits of OQ, most significant first, followed by the bits held in ACC,
become those bits followed by the code of b; IN_CNT grows by one; all state but ACC, ACC_CNT, OQ, OUT_CNT and IN_CNT is
unchanged and no response is emitted. Without a code the beat faults with E_NOCODE and nothing else changes. (END then pads the
last byte with zeros on the low end.) -/
def Obligations.EncodeBeatAppendsTheCode : Prop :=
  ∀ (s : State) b, s.phase = .encode →
    (s.codeLenAt b.toNat ≠ 0#8 → ∃ t, s.din b = t ∧
      t = { s with acc := t.acc, accCnt := t.accCnt, oq := t.oq, outCnt := t.outCnt, inCnt := s.inCnt + 1#64 } ∧
      streamBits t = streamBits s ++ s.codeOf b ∧ (∃ out, t.oq = s.oq ++ out ∧ t.outCnt = s.outCnt + BitVec.ofNat 64 out.length) ∧
      streamBits t.flush = streamBits t ++ List.replicate ((8 - t.accCnt.toNat) % 8) false ∧ t.flush.accCnt = 0#3) ∧
    (s.codeLenAt b.toNat = 0#8 →
      s.din b = { s with errCode := .noCode, errInfo := 0x80000000#32 ||| b.setWidth 32, phase := .err })

/-- O50 (R166, R167). In COUNT, END sets PHASE to IDLE and answers ERR=0. In ENCODE it sets PHASE to DRAIN with no response: with
ACC_CNT = 0 nothing is pushed; else one byte is pushed whose top ACC_CNT bits are the held bits and whose other bits are 0,
OUT_CNT grows by one and ACC and ACC_CNT are 0. Nothing else changes. In IDLE it faults with E_SEQ. -/
def Obligations.EndClosesThePass : Prop :=
  (∀ s, s.phase = .count → exec .endPass s = .next (okWith { s with phase := .idle } 0#32)) ∧
    (∀ s, s.phase = .encode → s.accCnt = 0#3 → exec .endPass s = .next { s with phase := .drain }) ∧
    (∀ s, s.phase = .encode → s.accCnt ≠ 0#3 → ∃ b : Byte, exec .endPass s =
      .next { s with oq := s.oq ++ [b], outCnt := s.outCnt + 1#64, acc := 0#8, accCnt := 0#3, phase := .drain } ∧
        bitsOf b = pendingBits s ++ List.replicate (8 - s.accCnt.toNat) false) ∧
    WrongPhase .endPass

/-- O51 (R168). From the start of an encode pass, after the beats of a list of bytes that all have codes and the flush of END, OQ
holds (the sum of their code lengths + 7) / 8 bytes and OUT_CNT is that number (modulo 2^64); if every code is the single bit
"0" they are all 0x00. -/
def Obligations.PackedSizeIsTheRoundedBitCount : Prop :=
  ∀ (s : State) (input : List Byte), (∀ b ∈ input, s.codeLenAt b.toNat ≠ 0#8) →
    let t := (input.foldl State.din (encodeStart s)).flush
    let total := (input.map fun b => (s.codeLenAt b.toNat).toNat).sum
    t.oq.length = (total + 7) / 8 ∧ t.outCnt = BitVec.ofNat 64 ((total + 7) / 8) ∧
      ((∀ b ∈ input, s.codeOf b = [false]) → ∀ b ∈ t.oq, b = 0x00#8)

/-- O52 (R181). In IDLE: with ORIGLEN = 0, DECODE clears the three counters and sets PHASE to DRAIN; with ORIGLEN not 0, a valid
tree and ROOT not NIL it clears them, sets CUR = ROOT and PHASE = DECODE; no response, nothing else changes. ORIGLEN not 0 with
TREE_VALID = 0 faults with E_SEQ, with ROOT = NIL with E_NOTREE; other phases E_SEQ. -/
def Obligations.DecodeOpensByItsThreeCases : Prop :=
  (∀ s, s.phase = .idle → s.origLen = 0#64 → exec .decode s =
      .next { s with emitCnt := 0#64, inCnt := 0#64, outCnt := 0#64, phase := .drain }) ∧
    (∀ s, s.phase = .idle → s.origLen ≠ 0#64 → s.treeValid = true → s.root ≠ NIL → exec .decode s =
      .next { s with emitCnt := 0#64, inCnt := 0#64, outCnt := 0#64, cur := s.root, phase := .decode }) ∧
    (∀ s, s.phase = .idle → s.origLen ≠ 0#64 → s.treeValid = false → exec .decode s = .next (faulted s .decode .seq)) ∧
    (∀ s, s.phase = .idle → s.origLen ≠ 0#64 → s.treeValid = true → s.root = NIL →
      exec .decode s = .next (faulted s .decode .noTree)) ∧
    WrongPhase .decode

/-- O53 (R170, R171, R183, R186). A byte in phase DECODE with an internal root adds one to IN_CNT and appends to OQ the symbols of
the leaves its bits, most significant first, lead to from CUR (the walk going on from ROOT after each, and stopping at the
ORIGLEN-th symbol of the pass), 0 to 8 of them; it adds their number to OUT_CNT and EMIT_CNT, leaves CUR where the walk stands,
sets PHASE to DRAIN if EMIT_CNT is then ORIGLEN, and changes nothing else. An internal step in DECODE with a leaf root pushes
its symbol, counts it in OUT_CNT and EMIT_CNT and, at ORIGLEN, sets PHASE to DRAIN; in DRAIN with OQ empty it sets PHASE to IDLE
and answers ERR=0 DATA=0; in every other state there is no internal step and nothing changes. An edge with dout_ready high and
OQ not empty, in every phase, moves the head of OQ to the host and changes nothing else; no command word, din byte, internal
step or reset delivers a byte. -/
def Obligations.DecodeStepsAndDelivery : Prop :=
  (∀ (s : State) b, s.phase = .decode → s.rootIsLeaf = false →
      let r := symbolsAlong s.nodes s.root (s.origLen.toNat - s.emitCnt.toNat) s.cur (bitsOf b)
      r.1.length ≤ 8 ∧ s.din b =
        { s with
          inCnt := s.inCnt + 1#64, oq := s.oq ++ r.1, outCnt := s.outCnt + BitVec.ofNat 64 r.1.length,
          emitCnt := s.emitCnt + BitVec.ofNat 64 r.1.length, cur := r.2,
          phase := if s.emitCnt + BitVec.ofNat 64 r.1.length = s.origLen then .drain else .decode }) ∧
    (∀ s : State, s.phase = .decode → s.rootIsLeaf = true → s.internal =
      { s with
        oq := s.oq ++ [(s.nodeAt s.root.toNat).sym], outCnt := s.outCnt + 1#64, emitCnt := s.emitCnt + 1#64,
        phase := if s.emitCnt + 1#64 = s.origLen then .drain else .decode }) ∧
    (∀ s : State, s.phase = .drain → s.oq = [] → s.internal = okWith { s with phase := .idle } 0#32) ∧
    (∀ s : State, ¬ (s.phase = .decode ∧ s.rootIsLeaf = true) → ¬ (s.phase = .drain ∧ s.oq = []) → s.internal = s) ∧
    (∀ s b q rest, s.oq = b :: q → s.edges = .ports true none none :: rest →
      step s = .next { s with oq := q, doutLog := s.doutLog ++ [b], rsp := none, edges := rest }) ∧
    (∀ s w t, cmdStep w s = .next t → t.doutLog = s.doutLog) ∧
    (∀ (s : State) b, (s.din b).doutLog = s.doutLog ∧ s.internal.doutLog = s.doutLog ∧ s.cleared.doutLog = s.doutLog)

/-- O54 (R66, R152, R155, R168, R183, R185, R186, R189). For a valid tree (arena, ROOT and heap as in every reachable state), its
code table from GENCODE, and any input of fewer than 2^64 bytes that all have codes. Internal root: feeding the bytes that the
encode pass and END push to a decode pass of ORIGLEN = the input's length emits exactly the input, and, unless the input is
empty, the pass is then in DRAIN. Single-leaf root: as many Emit1 steps as the input has bytes emit exactly the input, and the
pass is then in DRAIN. For every n from 1 to 2^64 - 1, n Emit1 steps of a decode pass with ORIGLEN = n and a leaf root emit n
copies of its symbol, leave EMIT_CNT = OUT_CNT = n and PHASE = DRAIN, and change nothing else. -/
def Obligations.UnpackingUndoesPacking : Prop :=
  (∀ s t (input : List Byte), s.phase = .idle → s.treeValid = true → ForestOk s → s.root ≠ NIL → s.rootIsLeaf = false →
      exec .gencode s = .next t → (∀ b ∈ input, t.codeLenAt b.toNat ≠ 0#8) → input.length < 2 ^ 64 →
      let packed := (input.foldl State.din (encodeStart t)).flush.oq
      let u := packed.foldl State.din (decodeStart t input.length)
      u.oq = input ∧ (input ≠ [] → u.phase = .drain)) ∧
    (∀ s t (input : List Byte), s.phase = .idle → s.treeValid = true → s.root ≠ NIL → s.rootIsLeaf = true →
      exec .gencode s = .next t → (∀ b ∈ input, t.codeLenAt b.toNat ≠ 0#8) → input.length < 2 ^ 64 → input ≠ [] →
      let u := State.internal^[input.length] (decodeStart t input.length)
      u.oq = input ∧ u.phase = .drain) ∧
    (∀ (s : State) n, s.rootIsLeaf = true → 0 < n → n < 2 ^ 64 → State.internal^[n] (decodeStart s n) =
      { decodeStart s n with
        oq := List.replicate n (s.nodeAt s.root.toNat).sym, outCnt := BitVec.ofNat 64 n, emitCnt := BitVec.ofNat 64 n,
        phase := .drain })

/-- O55 (R24, R25, R26, R27). From every state in which the arena is a forest of strictly binary trees of at most 511 entries with
ownership as R27 says, ROOT is NIL or an allocated unowned entry, HEAP_SIZE is at most 256 and every heap entry is allocated,
every step that gives a next state keeps all of this. -/
def Obligations.StepKeepsTheForest : Prop :=
  ∀ s t, ForestOk s → step s = .next t → ForestOk t

/-- O56 (R30, R33, R39, R41, R47, R161). Every step from a state with these facts keeps them: CODE_VALID implies TREE_VALID and a
root implies TREE_VALID; OQ is empty in IDLE, COUNT and RDHDR; ERRCODE is a fault's code exactly in phase ERR; in RDHDR fewer
than 1032 bytes have been read; the bits of ACC above ACC_CNT are 0. -/
def Obligations.StepKeepsTheSequencerFacts : Prop :=
  ∀ s t, SequencerOk s → step s = .next t → SequencerOk t

/-- O57 (R36, R197). From every state in which phase COUNT implies that the sum of FREQ (as an exact integer) is ORIGLEN and ORIGLEN
is IN_CNT, every step that gives a next state keeps this. -/
def Obligations.StepKeepsTheCountOfThePass : Prop :=
  ∀ s t, CountOk s → step s = .next t → CountOk t

/-- O58 (R182, R184). From every state with a well-formed forest in which phase DECODE implies TREE_VALID, ROOT not NIL, EMIT_CNT <
ORIGLEN and CUR at an allocated internal node (or CUR = ROOT for a leaf root), every step keeps this implication. -/
def Obligations.StepKeepsTheWalkInsideTheTree : Prop :=
  ∀ s t, ForestOk s → DecodeOk s → step s = .next t → DecodeOk t

/-- O59 (R27, R47, R55, R270). The reset state, of a block built with either value of P_HDR_ENDIAN, has a well-formed forest, the
facts of the sequencer, the count and the decode. -/
def Obligations.ResetMeetsTheInvariants : Prop :=
  ∀ e : Endian, ForestOk { State.reset with hdrEndian := e } ∧ SequencerOk { State.reset with hdrEndian := e } ∧
    CountOk { State.reset with hdrEndian := e } ∧ DecodeOk { State.reset with hdrEndian := e }

/-- O60 (R16, R42). For two states that differ in the code table alone, with CODE_VALID = 0 and PHASE not ENCODE: a step gives the
same kind of outcome, with next states that differ in the code table alone, and not even there once CODE_VALID = 1. -/
def Obligations.UnreadCodeTableIsUnobservable : Prop :=
  ∀ s t c, s.codeValid = false → s.phase ≠ .encode → step s = .next t →
    step { s with codes := c } = .next (if t.codeValid then t else { t with codes := c })
end

