-- ==== Sys2Proof/Laws/State.lean ====
section
/-! SUPPORT. One lemma per field per update of the state, so that no proof unfolds a record update. -/

namespace Sys2Proof.Machine

variable (s : State)

/-! ### `State.setFreq` -/

@[simp] theorem State.setFreq_freq (a : Nat) (v : Freq) : (s.setFreq a v).freq = s.freq.setIfInBounds a v := rfl
@[simp] theorem State.setFreq_origLen (a : Nat) (v : Freq) : (s.setFreq a v).origLen = s.origLen := rfl
@[simp] theorem State.setFreq_nodes (a : Nat) (v : Freq) : (s.setFreq a v).nodes = s.nodes := rfl
@[simp] theorem State.setFreq_heap (a : Nat) (v : Freq) : (s.setFreq a v).heap = s.heap := rfl
@[simp] theorem State.setFreq_root (a : Nat) (v : Freq) : (s.setFreq a v).root = s.root := rfl
@[simp] theorem State.setFreq_nsym (a : Nat) (v : Freq) : (s.setFreq a v).nsym = s.nsym := rfl
@[simp] theorem State.setFreq_treeValid (a : Nat) (v : Freq) : (s.setFreq a v).treeValid = s.treeValid := rfl
@[simp] theorem State.setFreq_codeValid (a : Nat) (v : Freq) : (s.setFreq a v).codeValid = s.codeValid := rfl
@[simp] theorem State.setFreq_codes (a : Nat) (v : Freq) : (s.setFreq a v).codes = s.codes := rfl
@[simp] theorem State.setFreq_acc (a : Nat) (v : Freq) : (s.setFreq a v).acc = s.acc := rfl
@[simp] theorem State.setFreq_accCnt (a : Nat) (v : Freq) : (s.setFreq a v).accCnt = s.accCnt := rfl
@[simp] theorem State.setFreq_cur (a : Nat) (v : Freq) : (s.setFreq a v).cur = s.cur := rfl
@[simp] theorem State.setFreq_inCnt (a : Nat) (v : Freq) : (s.setFreq a v).inCnt = s.inCnt := rfl
@[simp] theorem State.setFreq_outCnt (a : Nat) (v : Freq) : (s.setFreq a v).outCnt = s.outCnt := rfl
@[simp] theorem State.setFreq_emitCnt (a : Nat) (v : Freq) : (s.setFreq a v).emitCnt = s.emitCnt := rfl
@[simp] theorem State.setFreq_oq (a : Nat) (v : Freq) : (s.setFreq a v).oq = s.oq := rfl
@[simp] theorem State.setFreq_errCode (a : Nat) (v : Freq) : (s.setFreq a v).errCode = s.errCode := rfl
@[simp] theorem State.setFreq_errInfo (a : Nat) (v : Freq) : (s.setFreq a v).errInfo = s.errInfo := rfl
@[simp] theorem State.setFreq_phase (a : Nat) (v : Freq) : (s.setFreq a v).phase = s.phase := rfl
@[simp] theorem State.setFreq_rsp (a : Nat) (v : Freq) : (s.setFreq a v).rsp = s.rsp := rfl
@[simp] theorem State.setFreq_edges (a : Nat) (v : Freq) : (s.setFreq a v).edges = s.edges := rfl
@[simp] theorem State.setFreq_rspLog (a : Nat) (v : Freq) : (s.setFreq a v).rspLog = s.rspLog := rfl
@[simp] theorem State.setFreq_hdrEndian (a : Nat) (v : Freq) : (s.setFreq a v).hdrEndian = s.hdrEndian := rfl
@[simp] theorem State.setFreq_doutLog (a : Nat) (v : Freq) : (s.setFreq a v).doutLog = s.doutLog := rfl

/-! ### `State.oqPush` -/

@[simp] theorem State.oqPush_freq (b : Byte) : (s.oqPush b).freq = s.freq := rfl
@[simp] theorem State.oqPush_origLen (b : Byte) : (s.oqPush b).origLen = s.origLen := rfl
@[simp] theorem State.oqPush_nodes (b : Byte) : (s.oqPush b).nodes = s.nodes := rfl
@[simp] theorem State.oqPush_heap (b : Byte) : (s.oqPush b).heap = s.heap := rfl
@[simp] theorem State.oqPush_root (b : Byte) : (s.oqPush b).root = s.root := rfl
@[simp] theorem State.oqPush_nsym (b : Byte) : (s.oqPush b).nsym = s.nsym := rfl
@[simp] theorem State.oqPush_treeValid (b : Byte) : (s.oqPush b).treeValid = s.treeValid := rfl
@[simp] theorem State.oqPush_codeValid (b : Byte) : (s.oqPush b).codeValid = s.codeValid := rfl
@[simp] theorem State.oqPush_codes (b : Byte) : (s.oqPush b).codes = s.codes := rfl
@[simp] theorem State.oqPush_acc (b : Byte) : (s.oqPush b).acc = s.acc := rfl
@[simp] theorem State.oqPush_accCnt (b : Byte) : (s.oqPush b).accCnt = s.accCnt := rfl
@[simp] theorem State.oqPush_cur (b : Byte) : (s.oqPush b).cur = s.cur := rfl
@[simp] theorem State.oqPush_inCnt (b : Byte) : (s.oqPush b).inCnt = s.inCnt := rfl
@[simp] theorem State.oqPush_outCnt (b : Byte) : (s.oqPush b).outCnt = s.outCnt + 1#64 := rfl
@[simp] theorem State.oqPush_emitCnt (b : Byte) : (s.oqPush b).emitCnt = s.emitCnt := rfl
@[simp] theorem State.oqPush_oq (b : Byte) : (s.oqPush b).oq = s.oq ++ [b] := rfl
@[simp] theorem State.oqPush_errCode (b : Byte) : (s.oqPush b).errCode = s.errCode := rfl
@[simp] theorem State.oqPush_errInfo (b : Byte) : (s.oqPush b).errInfo = s.errInfo := rfl
@[simp] theorem State.oqPush_phase (b : Byte) : (s.oqPush b).phase = s.phase := rfl
@[simp] theorem State.oqPush_rsp (b : Byte) : (s.oqPush b).rsp = s.rsp := rfl
@[simp] theorem State.oqPush_edges (b : Byte) : (s.oqPush b).edges = s.edges := rfl
@[simp] theorem State.oqPush_rspLog (b : Byte) : (s.oqPush b).rspLog = s.rspLog := rfl
@[simp] theorem State.oqPush_hdrEndian (b : Byte) : (s.oqPush b).hdrEndian = s.hdrEndian := rfl
@[simp] theorem State.oqPush_doutLog (b : Byte) : (s.oqPush b).doutLog = s.doutLog := rfl

/-! ### `State.oqPushAll` -/

@[simp] theorem State.oqPushAll_freq (bs : List Byte) : (s.oqPushAll bs).freq = s.freq := rfl
@[simp] theorem State.oqPushAll_origLen (bs : List Byte) : (s.oqPushAll bs).origLen = s.origLen := rfl
@[simp] theorem State.oqPushAll_nodes (bs : List Byte) : (s.oqPushAll bs).nodes = s.nodes := rfl
@[simp] theorem State.oqPushAll_heap (bs : List Byte) : (s.oqPushAll bs).heap = s.heap := rfl
@[simp] theorem State.oqPushAll_root (bs : List Byte) : (s.oqPushAll bs).root = s.root := rfl
@[simp] theorem State.oqPushAll_nsym (bs : List Byte) : (s.oqPushAll bs).nsym = s.nsym := rfl
@[simp] theorem State.oqPushAll_treeValid (bs : List Byte) : (s.oqPushAll bs).treeValid = s.treeValid := rfl
@[simp] theorem State.oqPushAll_codeValid (bs : List Byte) : (s.oqPushAll bs).codeValid = s.codeValid := rfl
@[simp] theorem State.oqPushAll_codes (bs : List Byte) : (s.oqPushAll bs).codes = s.codes := rfl
@[simp] theorem State.oqPushAll_acc (bs : List Byte) : (s.oqPushAll bs).acc = s.acc := rfl
@[simp] theorem State.oqPushAll_accCnt (bs : List Byte) : (s.oqPushAll bs).accCnt = s.accCnt := rfl
@[simp] theorem State.oqPushAll_cur (bs : List Byte) : (s.oqPushAll bs).cur = s.cur := rfl
@[simp] theorem State.oqPushAll_inCnt (bs : List Byte) : (s.oqPushAll bs).inCnt = s.inCnt := rfl
@[simp] theorem State.oqPushAll_outCnt (bs : List Byte) : (s.oqPushAll bs).outCnt = s.outCnt + BitVec.ofNat 64 bs.length := rfl
@[simp] theorem State.oqPushAll_emitCnt (bs : List Byte) : (s.oqPushAll bs).emitCnt = s.emitCnt := rfl
@[simp] theorem State.oqPushAll_oq (bs : List Byte) : (s.oqPushAll bs).oq = s.oq ++ bs := rfl
@[simp] theorem State.oqPushAll_errCode (bs : List Byte) : (s.oqPushAll bs).errCode = s.errCode := rfl
@[simp] theorem State.oqPushAll_errInfo (bs : List Byte) : (s.oqPushAll bs).errInfo = s.errInfo := rfl
@[simp] theorem State.oqPushAll_phase (bs : List Byte) : (s.oqPushAll bs).phase = s.phase := rfl
@[simp] theorem State.oqPushAll_rsp (bs : List Byte) : (s.oqPushAll bs).rsp = s.rsp := rfl
@[simp] theorem State.oqPushAll_edges (bs : List Byte) : (s.oqPushAll bs).edges = s.edges := rfl
@[simp] theorem State.oqPushAll_rspLog (bs : List Byte) : (s.oqPushAll bs).rspLog = s.rspLog := rfl
@[simp] theorem State.oqPushAll_hdrEndian (bs : List Byte) : (s.oqPushAll bs).hdrEndian = s.hdrEndian := rfl
@[simp] theorem State.oqPushAll_doutLog (bs : List Byte) : (s.oqPushAll bs).doutLog = s.doutLog := rfl

/-! ### `State.respond` -/

@[simp] theorem State.respond_freq (c : ErrCode) (d : Data) : (s.respond c d).freq = s.freq := rfl
@[simp] theorem State.respond_origLen (c : ErrCode) (d : Data) : (s.respond c d).origLen = s.origLen := rfl
@[simp] theorem State.respond_nodes (c : ErrCode) (d : Data) : (s.respond c d).nodes = s.nodes := rfl
@[simp] theorem State.respond_heap (c : ErrCode) (d : Data) : (s.respond c d).heap = s.heap := rfl
@[simp] theorem State.respond_root (c : ErrCode) (d : Data) : (s.respond c d).root = s.root := rfl
@[simp] theorem State.respond_nsym (c : ErrCode) (d : Data) : (s.respond c d).nsym = s.nsym := rfl
@[simp] theorem State.respond_treeValid (c : ErrCode) (d : Data) : (s.respond c d).treeValid = s.treeValid := rfl
@[simp] theorem State.respond_codeValid (c : ErrCode) (d : Data) : (s.respond c d).codeValid = s.codeValid := rfl
@[simp] theorem State.respond_codes (c : ErrCode) (d : Data) : (s.respond c d).codes = s.codes := rfl
@[simp] theorem State.respond_acc (c : ErrCode) (d : Data) : (s.respond c d).acc = s.acc := rfl
@[simp] theorem State.respond_accCnt (c : ErrCode) (d : Data) : (s.respond c d).accCnt = s.accCnt := rfl
@[simp] theorem State.respond_cur (c : ErrCode) (d : Data) : (s.respond c d).cur = s.cur := rfl
@[simp] theorem State.respond_inCnt (c : ErrCode) (d : Data) : (s.respond c d).inCnt = s.inCnt := rfl
@[simp] theorem State.respond_outCnt (c : ErrCode) (d : Data) : (s.respond c d).outCnt = s.outCnt := rfl
@[simp] theorem State.respond_emitCnt (c : ErrCode) (d : Data) : (s.respond c d).emitCnt = s.emitCnt := rfl
@[simp] theorem State.respond_oq (c : ErrCode) (d : Data) : (s.respond c d).oq = s.oq := rfl
@[simp] theorem State.respond_errCode (c : ErrCode) (d : Data) : (s.respond c d).errCode = s.errCode := rfl
@[simp] theorem State.respond_errInfo (c : ErrCode) (d : Data) : (s.respond c d).errInfo = s.errInfo := rfl
@[simp] theorem State.respond_phase (c : ErrCode) (d : Data) : (s.respond c d).phase = s.phase := rfl
@[simp] theorem State.respond_rsp (c : ErrCode) (d : Data) : (s.respond c d).rsp = some (responseWord c d) := rfl
@[simp] theorem State.respond_edges (c : ErrCode) (d : Data) : (s.respond c d).edges = s.edges := rfl
@[simp] theorem State.respond_rspLog (c : ErrCode) (d : Data) : (s.respond c d).rspLog = s.rspLog ++ [responseWord c d] := rfl
@[simp] theorem State.respond_hdrEndian (c : ErrCode) (d : Data) : (s.respond c d).hdrEndian = s.hdrEndian := rfl
@[simp] theorem State.respond_doutLog (c : ErrCode) (d : Data) : (s.respond c d).doutLog = s.doutLog := rfl

/-! ### `State.dropTree` -/

@[simp] theorem State.dropTree_freq : (s.dropTree).freq = s.freq := rfl
@[simp] theorem State.dropTree_origLen : (s.dropTree).origLen = s.origLen := rfl
@[simp] theorem State.dropTree_nodes : (s.dropTree).nodes = [] := rfl
@[simp] theorem State.dropTree_heap : (s.dropTree).heap = [] := rfl
@[simp] theorem State.dropTree_root : (s.dropTree).root = NIL := rfl
@[simp] theorem State.dropTree_nsym : (s.dropTree).nsym = 0#9 := rfl
@[simp] theorem State.dropTree_treeValid : (s.dropTree).treeValid = false := rfl
@[simp] theorem State.dropTree_codeValid : (s.dropTree).codeValid = false := rfl
@[simp] theorem State.dropTree_codes : (s.dropTree).codes = s.codes := rfl
@[simp] theorem State.dropTree_acc : (s.dropTree).acc = s.acc := rfl
@[simp] theorem State.dropTree_accCnt : (s.dropTree).accCnt = s.accCnt := rfl
@[simp] theorem State.dropTree_cur : (s.dropTree).cur = s.cur := rfl
@[simp] theorem State.dropTree_inCnt : (s.dropTree).inCnt = s.inCnt := rfl
@[simp] theorem State.dropTree_outCnt : (s.dropTree).outCnt = s.outCnt := rfl
@[simp] theorem State.dropTree_emitCnt : (s.dropTree).emitCnt = s.emitCnt := rfl
@[simp] theorem State.dropTree_oq : (s.dropTree).oq = s.oq := rfl
@[simp] theorem State.dropTree_errCode : (s.dropTree).errCode = s.errCode := rfl
@[simp] theorem State.dropTree_errInfo : (s.dropTree).errInfo = s.errInfo := rfl
@[simp] theorem State.dropTree_phase : (s.dropTree).phase = s.phase := rfl
@[simp] theorem State.dropTree_rsp : (s.dropTree).rsp = s.rsp := rfl
@[simp] theorem State.dropTree_edges : (s.dropTree).edges = s.edges := rfl
@[simp] theorem State.dropTree_rspLog : (s.dropTree).rspLog = s.rspLog := rfl
@[simp] theorem State.dropTree_hdrEndian : (s.dropTree).hdrEndian = s.hdrEndian := rfl
@[simp] theorem State.dropTree_doutLog : (s.dropTree).doutLog = s.doutLog := rfl

/-! ### `State.withdrawTree` -/

@[simp] theorem State.withdrawTree_freq : (s.withdrawTree).freq = s.freq := rfl
@[simp] theorem State.withdrawTree_origLen : (s.withdrawTree).origLen = s.origLen := rfl
@[simp] theorem State.withdrawTree_nodes : (s.withdrawTree).nodes = s.nodes := rfl
@[simp] theorem State.withdrawTree_heap : (s.withdrawTree).heap = s.heap := rfl
@[simp] theorem State.withdrawTree_root : (s.withdrawTree).root = NIL := rfl
@[simp] theorem State.withdrawTree_nsym : (s.withdrawTree).nsym = s.nsym := rfl
@[simp] theorem State.withdrawTree_treeValid : (s.withdrawTree).treeValid = false := rfl
@[simp] theorem State.withdrawTree_codeValid : (s.withdrawTree).codeValid = false := rfl
@[simp] theorem State.withdrawTree_codes : (s.withdrawTree).codes = s.codes := rfl
@[simp] theorem State.withdrawTree_acc : (s.withdrawTree).acc = s.acc := rfl
@[simp] theorem State.withdrawTree_accCnt : (s.withdrawTree).accCnt = s.accCnt := rfl
@[simp] theorem State.withdrawTree_cur : (s.withdrawTree).cur = s.cur := rfl
@[simp] theorem State.withdrawTree_inCnt : (s.withdrawTree).inCnt = s.inCnt := rfl
@[simp] theorem State.withdrawTree_outCnt : (s.withdrawTree).outCnt = s.outCnt := rfl
@[simp] theorem State.withdrawTree_emitCnt : (s.withdrawTree).emitCnt = s.emitCnt := rfl
@[simp] theorem State.withdrawTree_oq : (s.withdrawTree).oq = s.oq := rfl
@[simp] theorem State.withdrawTree_errCode : (s.withdrawTree).errCode = s.errCode := rfl
@[simp] theorem State.withdrawTree_errInfo : (s.withdrawTree).errInfo = s.errInfo := rfl
@[simp] theorem State.withdrawTree_phase : (s.withdrawTree).phase = s.phase := rfl
@[simp] theorem State.withdrawTree_rsp : (s.withdrawTree).rsp = s.rsp := rfl
@[simp] theorem State.withdrawTree_edges : (s.withdrawTree).edges = s.edges := rfl
@[simp] theorem State.withdrawTree_rspLog : (s.withdrawTree).rspLog = s.rspLog := rfl
@[simp] theorem State.withdrawTree_hdrEndian : (s.withdrawTree).hdrEndian = s.hdrEndian := rfl
@[simp] theorem State.withdrawTree_doutLog : (s.withdrawTree).doutLog = s.doutLog := rfl

/-! ### `State.declareRoot` -/

@[simp] theorem State.declareRoot_freq (a : Idx) : (s.declareRoot a).freq = s.freq := rfl
@[simp] theorem State.declareRoot_origLen (a : Idx) : (s.declareRoot a).origLen = s.origLen := rfl
@[simp] theorem State.declareRoot_nodes (a : Idx) : (s.declareRoot a).nodes = s.nodes := rfl
@[simp] theorem State.declareRoot_heap (a : Idx) : (s.declareRoot a).heap = s.heap := rfl
@[simp] theorem State.declareRoot_root (a : Idx) : (s.declareRoot a).root = a := rfl
@[simp] theorem State.declareRoot_nsym (a : Idx) : (s.declareRoot a).nsym = s.nsym := rfl
@[simp] theorem State.declareRoot_treeValid (a : Idx) : (s.declareRoot a).treeValid = true := rfl
@[simp] theorem State.declareRoot_codeValid (a : Idx) : (s.declareRoot a).codeValid = false := rfl
@[simp] theorem State.declareRoot_codes (a : Idx) : (s.declareRoot a).codes = s.codes := rfl
@[simp] theorem State.declareRoot_acc (a : Idx) : (s.declareRoot a).acc = s.acc := rfl
@[simp] theorem State.declareRoot_accCnt (a : Idx) : (s.declareRoot a).accCnt = s.accCnt := rfl
@[simp] theorem State.declareRoot_cur (a : Idx) : (s.declareRoot a).cur = s.cur := rfl
@[simp] theorem State.declareRoot_inCnt (a : Idx) : (s.declareRoot a).inCnt = s.inCnt := rfl
@[simp] theorem State.declareRoot_outCnt (a : Idx) : (s.declareRoot a).outCnt = s.outCnt := rfl
@[simp] theorem State.declareRoot_emitCnt (a : Idx) : (s.declareRoot a).emitCnt = s.emitCnt := rfl
@[simp] theorem State.declareRoot_oq (a : Idx) : (s.declareRoot a).oq = s.oq := rfl
@[simp] theorem State.declareRoot_errCode (a : Idx) : (s.declareRoot a).errCode = s.errCode := rfl
@[simp] theorem State.declareRoot_errInfo (a : Idx) : (s.declareRoot a).errInfo = s.errInfo := rfl
@[simp] theorem State.declareRoot_phase (a : Idx) : (s.declareRoot a).phase = s.phase := rfl
@[simp] theorem State.declareRoot_rsp (a : Idx) : (s.declareRoot a).rsp = s.rsp := rfl
@[simp] theorem State.declareRoot_edges (a : Idx) : (s.declareRoot a).edges = s.edges := rfl
@[simp] theorem State.declareRoot_rspLog (a : Idx) : (s.declareRoot a).rspLog = s.rspLog := rfl
@[simp] theorem State.declareRoot_hdrEndian (a : Idx) : (s.declareRoot a).hdrEndian = s.hdrEndian := rfl
@[simp] theorem State.declareRoot_doutLog (a : Idx) : (s.declareRoot a).doutLog = s.doutLog := rfl

/-! ### `State.openDecode` -/

@[simp] theorem State.openDecode_freq (p : Phase) : (s.openDecode p).freq = s.freq := rfl
@[simp] theorem State.openDecode_origLen (p : Phase) : (s.openDecode p).origLen = s.origLen := rfl
@[simp] theorem State.openDecode_nodes (p : Phase) : (s.openDecode p).nodes = s.nodes := rfl
@[simp] theorem State.openDecode_heap (p : Phase) : (s.openDecode p).heap = s.heap := rfl
@[simp] theorem State.openDecode_root (p : Phase) : (s.openDecode p).root = s.root := rfl
@[simp] theorem State.openDecode_nsym (p : Phase) : (s.openDecode p).nsym = s.nsym := rfl
@[simp] theorem State.openDecode_treeValid (p : Phase) : (s.openDecode p).treeValid = s.treeValid := rfl
@[simp] theorem State.openDecode_codeValid (p : Phase) : (s.openDecode p).codeValid = s.codeValid := rfl
@[simp] theorem State.openDecode_codes (p : Phase) : (s.openDecode p).codes = s.codes := rfl
@[simp] theorem State.openDecode_acc (p : Phase) : (s.openDecode p).acc = s.acc := rfl
@[simp] theorem State.openDecode_accCnt (p : Phase) : (s.openDecode p).accCnt = s.accCnt := rfl
@[simp] theorem State.openDecode_cur (p : Phase) : (s.openDecode p).cur = s.cur := rfl
@[simp] theorem State.openDecode_inCnt (p : Phase) : (s.openDecode p).inCnt = 0#64 := rfl
@[simp] theorem State.openDecode_outCnt (p : Phase) : (s.openDecode p).outCnt = 0#64 := rfl
@[simp] theorem State.openDecode_emitCnt (p : Phase) : (s.openDecode p).emitCnt = 0#64 := rfl
@[simp] theorem State.openDecode_oq (p : Phase) : (s.openDecode p).oq = s.oq := rfl
@[simp] theorem State.openDecode_errCode (p : Phase) : (s.openDecode p).errCode = s.errCode := rfl
@[simp] theorem State.openDecode_errInfo (p : Phase) : (s.openDecode p).errInfo = s.errInfo := rfl
@[simp] theorem State.openDecode_phase (p : Phase) : (s.openDecode p).phase = p := rfl
@[simp] theorem State.openDecode_rsp (p : Phase) : (s.openDecode p).rsp = s.rsp := rfl
@[simp] theorem State.openDecode_edges (p : Phase) : (s.openDecode p).edges = s.edges := rfl
@[simp] theorem State.openDecode_rspLog (p : Phase) : (s.openDecode p).rspLog = s.rspLog := rfl
@[simp] theorem State.openDecode_hdrEndian (p : Phase) : (s.openDecode p).hdrEndian = s.hdrEndian := rfl
@[simp] theorem State.openDecode_doutLog (p : Phase) : (s.openDecode p).doutLog = s.doutLog := rfl

/-! ### `State.emitAt` -/

@[simp] theorem State.emitAt_freq (n : Idx) : (s.emitAt n).freq = s.freq := rfl
@[simp] theorem State.emitAt_origLen (n : Idx) : (s.emitAt n).origLen = s.origLen := rfl
@[simp] theorem State.emitAt_nodes (n : Idx) : (s.emitAt n).nodes = s.nodes := rfl
@[simp] theorem State.emitAt_heap (n : Idx) : (s.emitAt n).heap = s.heap := rfl
@[simp] theorem State.emitAt_root (n : Idx) : (s.emitAt n).root = s.root := rfl
@[simp] theorem State.emitAt_nsym (n : Idx) : (s.emitAt n).nsym = s.nsym := rfl
@[simp] theorem State.emitAt_treeValid (n : Idx) : (s.emitAt n).treeValid = s.treeValid := rfl
@[simp] theorem State.emitAt_codeValid (n : Idx) : (s.emitAt n).codeValid = s.codeValid := rfl
@[simp] theorem State.emitAt_codes (n : Idx) : (s.emitAt n).codes = s.codes := rfl
@[simp] theorem State.emitAt_acc (n : Idx) : (s.emitAt n).acc = s.acc := rfl
@[simp] theorem State.emitAt_accCnt (n : Idx) : (s.emitAt n).accCnt = s.accCnt := rfl
@[simp] theorem State.emitAt_cur (n : Idx) : (s.emitAt n).cur = s.root := rfl
@[simp] theorem State.emitAt_inCnt (n : Idx) : (s.emitAt n).inCnt = s.inCnt := rfl
@[simp] theorem State.emitAt_outCnt (n : Idx) : (s.emitAt n).outCnt = s.outCnt + 1#64 := rfl
@[simp] theorem State.emitAt_emitCnt (n : Idx) : (s.emitAt n).emitCnt = s.emitCnt + 1#64 := rfl
@[simp] theorem State.emitAt_oq (n : Idx) : (s.emitAt n).oq = s.oq ++ [(s.nodeAt n.toNat).sym] := rfl
@[simp] theorem State.emitAt_errCode (n : Idx) : (s.emitAt n).errCode = s.errCode := rfl
@[simp] theorem State.emitAt_errInfo (n : Idx) : (s.emitAt n).errInfo = s.errInfo := rfl
@[simp] theorem State.emitAt_phase (n : Idx) : (s.emitAt n).phase = s.phase := rfl
@[simp] theorem State.emitAt_rsp (n : Idx) : (s.emitAt n).rsp = s.rsp := rfl
@[simp] theorem State.emitAt_edges (n : Idx) : (s.emitAt n).edges = s.edges := rfl
@[simp] theorem State.emitAt_rspLog (n : Idx) : (s.emitAt n).rspLog = s.rspLog := rfl
@[simp] theorem State.emitAt_hdrEndian (n : Idx) : (s.emitAt n).hdrEndian = s.hdrEndian := rfl
@[simp] theorem State.emitAt_doutLog (n : Idx) : (s.emitAt n).doutLog = s.doutLog := rfl

/-! ### `State.withHeapSized` -/

@[simp] theorem State.withHeapSized_freq (h : List Idx) : (s.withHeapSized h).freq = s.freq := rfl
@[simp] theorem State.withHeapSized_origLen (h : List Idx) : (s.withHeapSized h).origLen = s.origLen := rfl
@[simp] theorem State.withHeapSized_nodes (h : List Idx) : (s.withHeapSized h).nodes = s.nodes := rfl
@[simp] theorem State.withHeapSized_heap (h : List Idx) : (s.withHeapSized h).heap = h := rfl
@[simp] theorem State.withHeapSized_root (h : List Idx) : (s.withHeapSized h).root = s.root := rfl
@[simp] theorem State.withHeapSized_nsym (h : List Idx) : (s.withHeapSized h).nsym = s.nsym := rfl
@[simp] theorem State.withHeapSized_treeValid (h : List Idx) : (s.withHeapSized h).treeValid = s.treeValid := rfl
@[simp] theorem State.withHeapSized_codeValid (h : List Idx) : (s.withHeapSized h).codeValid = s.codeValid := rfl
@[simp] theorem State.withHeapSized_codes (h : List Idx) : (s.withHeapSized h).codes = s.codes := rfl
@[simp] theorem State.withHeapSized_acc (h : List Idx) : (s.withHeapSized h).acc = s.acc := rfl
@[simp] theorem State.withHeapSized_accCnt (h : List Idx) : (s.withHeapSized h).accCnt = s.accCnt := rfl
@[simp] theorem State.withHeapSized_cur (h : List Idx) : (s.withHeapSized h).cur = s.cur := rfl
@[simp] theorem State.withHeapSized_inCnt (h : List Idx) : (s.withHeapSized h).inCnt = s.inCnt := rfl
@[simp] theorem State.withHeapSized_outCnt (h : List Idx) : (s.withHeapSized h).outCnt = s.outCnt := rfl
@[simp] theorem State.withHeapSized_emitCnt (h : List Idx) : (s.withHeapSized h).emitCnt = s.emitCnt := rfl
@[simp] theorem State.withHeapSized_oq (h : List Idx) : (s.withHeapSized h).oq = s.oq := rfl
@[simp] theorem State.withHeapSized_errCode (h : List Idx) : (s.withHeapSized h).errCode = s.errCode := rfl
@[simp] theorem State.withHeapSized_errInfo (h : List Idx) : (s.withHeapSized h).errInfo = s.errInfo := rfl
@[simp] theorem State.withHeapSized_phase (h : List Idx) : (s.withHeapSized h).phase = s.phase := rfl
@[simp] theorem State.withHeapSized_rsp (h : List Idx) : (s.withHeapSized h).rsp = some (responseWord .ok (BitVec.ofNat 32 h.length)) := rfl
@[simp] theorem State.withHeapSized_edges (h : List Idx) : (s.withHeapSized h).edges = s.edges := rfl
@[simp] theorem State.withHeapSized_rspLog (h : List Idx) : (s.withHeapSized h).rspLog = s.rspLog ++ [responseWord .ok (BitVec.ofNat 32 h.length)] := rfl
@[simp] theorem State.withHeapSized_hdrEndian (h : List Idx) : (s.withHeapSized h).hdrEndian = s.hdrEndian := rfl
@[simp] theorem State.withHeapSized_doutLog (h : List Idx) : (s.withHeapSized h).doutLog = s.doutLog := rfl

/-! ### `State.cleared` -/

@[simp] theorem State.cleared_freq : (s.cleared).freq = State.reset.freq := rfl
@[simp] theorem State.cleared_origLen : (s.cleared).origLen = State.reset.origLen := rfl
@[simp] theorem State.cleared_nodes : (s.cleared).nodes = State.reset.nodes := rfl
@[simp] theorem State.cleared_heap : (s.cleared).heap = State.reset.heap := rfl
@[simp] theorem State.cleared_root : (s.cleared).root = State.reset.root := rfl
@[simp] theorem State.cleared_nsym : (s.cleared).nsym = State.reset.nsym := rfl
@[simp] theorem State.cleared_treeValid : (s.cleared).treeValid = State.reset.treeValid := rfl
@[simp] theorem State.cleared_codeValid : (s.cleared).codeValid = State.reset.codeValid := rfl
@[simp] theorem State.cleared_codes : (s.cleared).codes = s.codes := rfl
@[simp] theorem State.cleared_acc : (s.cleared).acc = State.reset.acc := rfl
@[simp] theorem State.cleared_accCnt : (s.cleared).accCnt = State.reset.accCnt := rfl
@[simp] theorem State.cleared_cur : (s.cleared).cur = State.reset.cur := rfl
@[simp] theorem State.cleared_inCnt : (s.cleared).inCnt = State.reset.inCnt := rfl
@[simp] theorem State.cleared_outCnt : (s.cleared).outCnt = State.reset.outCnt := rfl
@[simp] theorem State.cleared_emitCnt : (s.cleared).emitCnt = State.reset.emitCnt := rfl
@[simp] theorem State.cleared_oq : (s.cleared).oq = State.reset.oq := rfl
@[simp] theorem State.cleared_errCode : (s.cleared).errCode = State.reset.errCode := rfl
@[simp] theorem State.cleared_errInfo : (s.cleared).errInfo = State.reset.errInfo := rfl
@[simp] theorem State.cleared_phase : (s.cleared).phase = State.reset.phase := rfl
@[simp] theorem State.cleared_rsp : (s.cleared).rsp = s.rsp := rfl
@[simp] theorem State.cleared_edges : (s.cleared).edges = s.edges := rfl
@[simp] theorem State.cleared_rspLog : (s.cleared).rspLog = s.rspLog := rfl
@[simp] theorem State.cleared_hdrEndian : (s.cleared).hdrEndian = s.hdrEndian := rfl
@[simp] theorem State.cleared_doutLog : (s.cleared).doutLog = s.doutLog := rfl

/-! ### `State.recordFault`: the fields it never touches -/

@[simp] theorem State.recordFault_freq (c : ErrCode) (i : Data) : (s.recordFault c i).freq = s.freq := by unfold State.recordFault; split <;> rfl
@[simp] theorem State.recordFault_origLen (c : ErrCode) (i : Data) : (s.recordFault c i).origLen = s.origLen := by unfold State.recordFault; split <;> rfl
@[simp] theorem State.recordFault_nodes (c : ErrCode) (i : Data) : (s.recordFault c i).nodes = s.nodes := by unfold State.recordFault; split <;> rfl
@[simp] theorem State.recordFault_heap (c : ErrCode) (i : Data) : (s.recordFault c i).heap = s.heap := by unfold State.recordFault; split <;> rfl
@[simp] theorem State.recordFault_root (c : ErrCode) (i : Data) : (s.recordFault c i).root = s.root := by unfold State.recordFault; split <;> rfl
@[simp] theorem State.recordFault_nsym (c : ErrCode) (i : Data) : (s.recordFault c i).nsym = s.nsym := by unfold State.recordFault; split <;> rfl
@[simp] theorem State.recordFault_treeValid (c : ErrCode) (i : Data) : (s.recordFault c i).treeValid = s.treeValid := by unfold State.recordFault; split <;> rfl
@[simp] theorem State.recordFault_codeValid (c : ErrCode) (i : Data) : (s.recordFault c i).codeValid = s.codeValid := by unfold State.recordFault; split <;> rfl
@[simp] theorem State.recordFault_codes (c : ErrCode) (i : Data) : (s.recordFault c i).codes = s.codes := by unfold State.recordFault; split <;> rfl
@[simp] theorem State.recordFault_acc (c : ErrCode) (i : Data) : (s.recordFault c i).acc = s.acc := by unfold State.recordFault; split <;> rfl
@[simp] theorem State.recordFault_accCnt (c : ErrCode) (i : Data) : (s.recordFault c i).accCnt = s.accCnt := by unfold State.recordFault; split <;> rfl
@[simp] theorem State.recordFault_cur (c : ErrCode) (i : Data) : (s.recordFault c i).cur = s.cur := by unfold State.recordFault; split <;> rfl
@[simp] theorem State.recordFault_inCnt (c : ErrCode) (i : Data) : (s.recordFault c i).inCnt = s.inCnt := by unfold State.recordFault; split <;> rfl
@[simp] theorem State.recordFault_outCnt (c : ErrCode) (i : Data) : (s.recordFault c i).outCnt = s.outCnt := by unfold State.recordFault; split <;> rfl
@[simp] theorem State.recordFault_emitCnt (c : ErrCode) (i : Data) : (s.recordFault c i).emitCnt = s.emitCnt := by unfold State.recordFault; split <;> rfl
@[simp] theorem State.recordFault_oq (c : ErrCode) (i : Data) : (s.recordFault c i).oq = s.oq := by unfold State.recordFault; split <;> rfl
@[simp] theorem State.recordFault_rsp (c : ErrCode) (i : Data) : (s.recordFault c i).rsp = s.rsp := by unfold State.recordFault; split <;> rfl
@[simp] theorem State.recordFault_edges (c : ErrCode) (i : Data) : (s.recordFault c i).edges = s.edges := by unfold State.recordFault; split <;> rfl
@[simp] theorem State.recordFault_rspLog (c : ErrCode) (i : Data) : (s.recordFault c i).rspLog = s.rspLog := by unfold State.recordFault; split <;> rfl
@[simp] theorem State.recordFault_hdrEndian (c : ErrCode) (i : Data) : (s.recordFault c i).hdrEndian = s.hdrEndian := by unfold State.recordFault; split <;> rfl
@[simp] theorem State.recordFault_doutLog (c : ErrCode) (i : Data) : (s.recordFault c i).doutLog = s.doutLog := by unfold State.recordFault; split <;> rfl

/-! ### `State.beatFault`: the fields it never touches -/

@[simp] theorem State.beatFault_freq (b : Byte) (c : ErrCode) : (s.beatFault b c).freq = s.freq := State.recordFault_freq _ _ _
@[simp] theorem State.beatFault_origLen (b : Byte) (c : ErrCode) : (s.beatFault b c).origLen = s.origLen := State.recordFault_origLen _ _ _
@[simp] theorem State.beatFault_nodes (b : Byte) (c : ErrCode) : (s.beatFault b c).nodes = s.nodes := State.recordFault_nodes _ _ _
@[simp] theorem State.beatFault_heap (b : Byte) (c : ErrCode) : (s.beatFault b c).heap = s.heap := State.recordFault_heap _ _ _
@[simp] theorem State.beatFault_root (b : Byte) (c : ErrCode) : (s.beatFault b c).root = s.root := State.recordFault_root _ _ _
@[simp] theorem State.beatFault_nsym (b : Byte) (c : ErrCode) : (s.beatFault b c).nsym = s.nsym := State.recordFault_nsym _ _ _
@[simp] theorem State.beatFault_treeValid (b : Byte) (c : ErrCode) : (s.beatFault b c).treeValid = s.treeValid := State.recordFault_treeValid _ _ _
@[simp] theorem State.beatFault_codeValid (b : Byte) (c : ErrCode) : (s.beatFault b c).codeValid = s.codeValid := State.recordFault_codeValid _ _ _
@[simp] theorem State.beatFault_codes (b : Byte) (c : ErrCode) : (s.beatFault b c).codes = s.codes := State.recordFault_codes _ _ _
@[simp] theorem State.beatFault_acc (b : Byte) (c : ErrCode) : (s.beatFault b c).acc = s.acc := State.recordFault_acc _ _ _
@[simp] theorem State.beatFault_accCnt (b : Byte) (c : ErrCode) : (s.beatFault b c).accCnt = s.accCnt := State.recordFault_accCnt _ _ _
@[simp] theorem State.beatFault_cur (b : Byte) (c : ErrCode) : (s.beatFault b c).cur = s.cur := State.recordFault_cur _ _ _
@[simp] theorem State.beatFault_inCnt (b : Byte) (c : ErrCode) : (s.beatFault b c).inCnt = s.inCnt := State.recordFault_inCnt _ _ _
@[simp] theorem State.beatFault_outCnt (b : Byte) (c : ErrCode) : (s.beatFault b c).outCnt = s.outCnt := State.recordFault_outCnt _ _ _
@[simp] theorem State.beatFault_emitCnt (b : Byte) (c : ErrCode) : (s.beatFault b c).emitCnt = s.emitCnt := State.recordFault_emitCnt _ _ _
@[simp] theorem State.beatFault_oq (b : Byte) (c : ErrCode) : (s.beatFault b c).oq = s.oq := State.recordFault_oq _ _ _
@[simp] theorem State.beatFault_rsp (b : Byte) (c : ErrCode) : (s.beatFault b c).rsp = s.rsp := State.recordFault_rsp _ _ _
@[simp] theorem State.beatFault_edges (b : Byte) (c : ErrCode) : (s.beatFault b c).edges = s.edges := State.recordFault_edges _ _ _
@[simp] theorem State.beatFault_rspLog (b : Byte) (c : ErrCode) : (s.beatFault b c).rspLog = s.rspLog := State.recordFault_rspLog _ _ _
@[simp] theorem State.beatFault_hdrEndian (b : Byte) (c : ErrCode) : (s.beatFault b c).hdrEndian = s.hdrEndian := State.recordFault_hdrEndian _ _ _
@[simp] theorem State.beatFault_doutLog (b : Byte) (c : ErrCode) : (s.beatFault b c).doutLog = s.doutLog := State.recordFault_doutLog _ _ _

/-! ### `State.cmdFault`: the fields it never touches -/

@[simp] theorem State.cmdFault_freq (w : CmdWord) (c : ErrCode) : (s.cmdFault w c).freq = s.freq := State.recordFault_freq _ _ _
@[simp] theorem State.cmdFault_origLen (w : CmdWord) (c : ErrCode) : (s.cmdFault w c).origLen = s.origLen := State.recordFault_origLen _ _ _
@[simp] theorem State.cmdFault_nodes (w : CmdWord) (c : ErrCode) : (s.cmdFault w c).nodes = s.nodes := State.recordFault_nodes _ _ _
@[simp] theorem State.cmdFault_heap (w : CmdWord) (c : ErrCode) : (s.cmdFault w c).heap = s.heap := State.recordFault_heap _ _ _
@[simp] theorem State.cmdFault_root (w : CmdWord) (c : ErrCode) : (s.cmdFault w c).root = s.root := State.recordFault_root _ _ _
@[simp] theorem State.cmdFault_nsym (w : CmdWord) (c : ErrCode) : (s.cmdFault w c).nsym = s.nsym := State.recordFault_nsym _ _ _
@[simp] theorem State.cmdFault_treeValid (w : CmdWord) (c : ErrCode) : (s.cmdFault w c).treeValid = s.treeValid := State.recordFault_treeValid _ _ _
@[simp] theorem State.cmdFault_codeValid (w : CmdWord) (c : ErrCode) : (s.cmdFault w c).codeValid = s.codeValid := State.recordFault_codeValid _ _ _
@[simp] theorem State.cmdFault_codes (w : CmdWord) (c : ErrCode) : (s.cmdFault w c).codes = s.codes := State.recordFault_codes _ _ _
@[simp] theorem State.cmdFault_acc (w : CmdWord) (c : ErrCode) : (s.cmdFault w c).acc = s.acc := State.recordFault_acc _ _ _
@[simp] theorem State.cmdFault_accCnt (w : CmdWord) (c : ErrCode) : (s.cmdFault w c).accCnt = s.accCnt := State.recordFault_accCnt _ _ _
@[simp] theorem State.cmdFault_cur (w : CmdWord) (c : ErrCode) : (s.cmdFault w c).cur = s.cur := State.recordFault_cur _ _ _
@[simp] theorem State.cmdFault_inCnt (w : CmdWord) (c : ErrCode) : (s.cmdFault w c).inCnt = s.inCnt := State.recordFault_inCnt _ _ _
@[simp] theorem State.cmdFault_outCnt (w : CmdWord) (c : ErrCode) : (s.cmdFault w c).outCnt = s.outCnt := State.recordFault_outCnt _ _ _
@[simp] theorem State.cmdFault_emitCnt (w : CmdWord) (c : ErrCode) : (s.cmdFault w c).emitCnt = s.emitCnt := State.recordFault_emitCnt _ _ _
@[simp] theorem State.cmdFault_oq (w : CmdWord) (c : ErrCode) : (s.cmdFault w c).oq = s.oq := State.recordFault_oq _ _ _
@[simp] theorem State.cmdFault_edges (w : CmdWord) (c : ErrCode) : (s.cmdFault w c).edges = s.edges := State.recordFault_edges _ _ _
@[simp] theorem State.cmdFault_hdrEndian (w : CmdWord) (c : ErrCode) : (s.cmdFault w c).hdrEndian = s.hdrEndian := State.recordFault_hdrEndian _ _ _
@[simp] theorem State.cmdFault_doutLog (w : CmdWord) (c : ErrCode) : (s.cmdFault w c).doutLog = s.doutLog := State.recordFault_doutLog _ _ _

/-! ### `State.drainIfDone`: the fields it never touches -/

@[simp] theorem State.drainIfDone_freq : (s.drainIfDone).freq = s.freq := by unfold State.drainIfDone; split <;> rfl
@[simp] theorem State.drainIfDone_origLen : (s.drainIfDone).origLen = s.origLen := by unfold State.drainIfDone; split <;> rfl
@[simp] theorem State.drainIfDone_nodes : (s.drainIfDone).nodes = s.nodes := by unfold State.drainIfDone; split <;> rfl
@[simp] theorem State.drainIfDone_heap : (s.drainIfDone).heap = s.heap := by unfold State.drainIfDone; split <;> rfl
@[simp] theorem State.drainIfDone_root : (s.drainIfDone).root = s.root := by unfold State.drainIfDone; split <;> rfl
@[simp] theorem State.drainIfDone_nsym : (s.drainIfDone).nsym = s.nsym := by unfold State.drainIfDone; split <;> rfl
@[simp] theorem State.drainIfDone_treeValid : (s.drainIfDone).treeValid = s.treeValid := by unfold State.drainIfDone; split <;> rfl
@[simp] theorem State.drainIfDone_codeValid : (s.drainIfDone).codeValid = s.codeValid := by unfold State.drainIfDone; split <;> rfl
@[simp] theorem State.drainIfDone_codes : (s.drainIfDone).codes = s.codes := by unfold State.drainIfDone; split <;> rfl
@[simp] theorem State.drainIfDone_acc : (s.drainIfDone).acc = s.acc := by unfold State.drainIfDone; split <;> rfl
@[simp] theorem State.drainIfDone_accCnt : (s.drainIfDone).accCnt = s.accCnt := by unfold State.drainIfDone; split <;> rfl
@[simp] theorem State.drainIfDone_cur : (s.drainIfDone).cur = s.cur := by unfold State.drainIfDone; split <;> rfl
@[simp] theorem State.drainIfDone_inCnt : (s.drainIfDone).inCnt = s.inCnt := by unfold State.drainIfDone; split <;> rfl
@[simp] theorem State.drainIfDone_outCnt : (s.drainIfDone).outCnt = s.outCnt := by unfold State.drainIfDone; split <;> rfl
@[simp] theorem State.drainIfDone_emitCnt : (s.drainIfDone).emitCnt = s.emitCnt := by unfold State.drainIfDone; split <;> rfl
@[simp] theorem State.drainIfDone_oq : (s.drainIfDone).oq = s.oq := by unfold State.drainIfDone; split <;> rfl
@[simp] theorem State.drainIfDone_errCode : (s.drainIfDone).errCode = s.errCode := by unfold State.drainIfDone; split <;> rfl
@[simp] theorem State.drainIfDone_errInfo : (s.drainIfDone).errInfo = s.errInfo := by unfold State.drainIfDone; split <;> rfl
@[simp] theorem State.drainIfDone_rsp : (s.drainIfDone).rsp = s.rsp := by unfold State.drainIfDone; split <;> rfl
@[simp] theorem State.drainIfDone_edges : (s.drainIfDone).edges = s.edges := by unfold State.drainIfDone; split <;> rfl
@[simp] theorem State.drainIfDone_rspLog : (s.drainIfDone).rspLog = s.rspLog := by unfold State.drainIfDone; split <;> rfl
@[simp] theorem State.drainIfDone_hdrEndian : (s.drainIfDone).hdrEndian = s.hdrEndian := by unfold State.drainIfDone; split <;> rfl
@[simp] theorem State.drainIfDone_doutLog : (s.drainIfDone).doutLog = s.doutLog := by unfold State.drainIfDone; split <;> rfl

/-! ### `State.dout`: the fields it never touches -/

@[simp] theorem State.dout_freq : (s.dout).freq = s.freq := by unfold State.dout; split <;> rfl
@[simp] theorem State.dout_origLen : (s.dout).origLen = s.origLen := by unfold State.dout; split <;> rfl
@[simp] theorem State.dout_nodes : (s.dout).nodes = s.nodes := by unfold State.dout; split <;> rfl
@[simp] theorem State.dout_heap : (s.dout).heap = s.heap := by unfold State.dout; split <;> rfl
@[simp] theorem State.dout_root : (s.dout).root = s.root := by unfold State.dout; split <;> rfl
@[simp] theorem State.dout_nsym : (s.dout).nsym = s.nsym := by unfold State.dout; split <;> rfl
@[simp] theorem State.dout_treeValid : (s.dout).treeValid = s.treeValid := by unfold State.dout; split <;> rfl
@[simp] theorem State.dout_codeValid : (s.dout).codeValid = s.codeValid := by unfold State.dout; split <;> rfl
@[simp] theorem State.dout_codes : (s.dout).codes = s.codes := by unfold State.dout; split <;> rfl
@[simp] theorem State.dout_acc : (s.dout).acc = s.acc := by unfold State.dout; split <;> rfl
@[simp] theorem State.dout_accCnt : (s.dout).accCnt = s.accCnt := by unfold State.dout; split <;> rfl
@[simp] theorem State.dout_cur : (s.dout).cur = s.cur := by unfold State.dout; split <;> rfl
@[simp] theorem State.dout_inCnt : (s.dout).inCnt = s.inCnt := by unfold State.dout; split <;> rfl
@[simp] theorem State.dout_outCnt : (s.dout).outCnt = s.outCnt := by unfold State.dout; split <;> rfl
@[simp] theorem State.dout_emitCnt : (s.dout).emitCnt = s.emitCnt := by unfold State.dout; split <;> rfl
@[simp] theorem State.dout_errCode : (s.dout).errCode = s.errCode := by unfold State.dout; split <;> rfl
@[simp] theorem State.dout_errInfo : (s.dout).errInfo = s.errInfo := by unfold State.dout; split <;> rfl
@[simp] theorem State.dout_phase : (s.dout).phase = s.phase := by unfold State.dout; split <;> rfl
@[simp] theorem State.dout_rsp : (s.dout).rsp = s.rsp := by unfold State.dout; split <;> rfl
@[simp] theorem State.dout_edges : (s.dout).edges = s.edges := by unfold State.dout; split <;> rfl
@[simp] theorem State.dout_rspLog : (s.dout).rspLog = s.rspLog := by unfold State.dout; split <;> rfl

/-! ### `State.appendBit`: the fields it never touches -/

@[simp] theorem State.appendBit_freq (x : Bool) : (s.appendBit x).freq = s.freq := by unfold State.appendBit; dsimp only; split <;> rfl
@[simp] theorem State.appendBit_origLen (x : Bool) : (s.appendBit x).origLen = s.origLen := by unfold State.appendBit; dsimp only; split <;> rfl
@[simp] theorem State.appendBit_nodes (x : Bool) : (s.appendBit x).nodes = s.nodes := by unfold State.appendBit; dsimp only; split <;> rfl
@[simp] theorem State.appendBit_heap (x : Bool) : (s.appendBit x).heap = s.heap := by unfold State.appendBit; dsimp only; split <;> rfl
@[simp] theorem State.appendBit_root (x : Bool) : (s.appendBit x).root = s.root := by unfold State.appendBit; dsimp only; split <;> rfl
@[simp] theorem State.appendBit_nsym (x : Bool) : (s.appendBit x).nsym = s.nsym := by unfold State.appendBit; dsimp only; split <;> rfl
@[simp] theorem State.appendBit_treeValid (x : Bool) : (s.appendBit x).treeValid = s.treeValid := by unfold State.appendBit; dsimp only; split <;> rfl
@[simp] theorem State.appendBit_codeValid (x : Bool) : (s.appendBit x).codeValid = s.codeValid := by unfold State.appendBit; dsimp only; split <;> rfl
@[simp] theorem State.appendBit_codes (x : Bool) : (s.appendBit x).codes = s.codes := by unfold State.appendBit; dsimp only; split <;> rfl
@[simp] theorem State.appendBit_cur (x : Bool) : (s.appendBit x).cur = s.cur := by unfold State.appendBit; dsimp only; split <;> rfl
@[simp] theorem State.appendBit_inCnt (x : Bool) : (s.appendBit x).inCnt = s.inCnt := by unfold State.appendBit; dsimp only; split <;> rfl
@[simp] theorem State.appendBit_emitCnt (x : Bool) : (s.appendBit x).emitCnt = s.emitCnt := by unfold State.appendBit; dsimp only; split <;> rfl
@[simp] theorem State.appendBit_errCode (x : Bool) : (s.appendBit x).errCode = s.errCode := by unfold State.appendBit; dsimp only; split <;> rfl
@[simp] theorem State.appendBit_errInfo (x : Bool) : (s.appendBit x).errInfo = s.errInfo := by unfold State.appendBit; dsimp only; split <;> rfl
@[simp] theorem State.appendBit_phase (x : Bool) : (s.appendBit x).phase = s.phase := by unfold State.appendBit; dsimp only; split <;> rfl
@[simp] theorem State.appendBit_rsp (x : Bool) : (s.appendBit x).rsp = s.rsp := by unfold State.appendBit; dsimp only; split <;> rfl
@[simp] theorem State.appendBit_edges (x : Bool) : (s.appendBit x).edges = s.edges := by unfold State.appendBit; dsimp only; split <;> rfl
@[simp] theorem State.appendBit_rspLog (x : Bool) : (s.appendBit x).rspLog = s.rspLog := by unfold State.appendBit; dsimp only; split <;> rfl
@[simp] theorem State.appendBit_hdrEndian (x : Bool) : (s.appendBit x).hdrEndian = s.hdrEndian := by unfold State.appendBit; dsimp only; split <;> rfl
@[simp] theorem State.appendBit_doutLog (x : Bool) : (s.appendBit x).doutLog = s.doutLog := by unfold State.appendBit; dsimp only; split <;> rfl

/-! ### `State.flush`: the fields it never touches -/

@[simp] theorem State.flush_freq : (s.flush).freq = s.freq := by unfold State.flush; split <;> rfl
@[simp] theorem State.flush_origLen : (s.flush).origLen = s.origLen := by unfold State.flush; split <;> rfl
@[simp] theorem State.flush_nodes : (s.flush).nodes = s.nodes := by unfold State.flush; split <;> rfl
@[simp] theorem State.flush_heap : (s.flush).heap = s.heap := by unfold State.flush; split <;> rfl
@[simp] theorem State.flush_root : (s.flush).root = s.root := by unfold State.flush; split <;> rfl
@[simp] theorem State.flush_nsym : (s.flush).nsym = s.nsym := by unfold State.flush; split <;> rfl
@[simp] theorem State.flush_treeValid : (s.flush).treeValid = s.treeValid := by unfold State.flush; split <;> rfl
@[simp] theorem State.flush_codeValid : (s.flush).codeValid = s.codeValid := by unfold State.flush; split <;> rfl
@[simp] theorem State.flush_codes : (s.flush).codes = s.codes := by unfold State.flush; split <;> rfl
@[simp] theorem State.flush_cur : (s.flush).cur = s.cur := by unfold State.flush; split <;> rfl
@[simp] theorem State.flush_inCnt : (s.flush).inCnt = s.inCnt := by unfold State.flush; split <;> rfl
@[simp] theorem State.flush_emitCnt : (s.flush).emitCnt = s.emitCnt := by unfold State.flush; split <;> rfl
@[simp] theorem State.flush_errCode : (s.flush).errCode = s.errCode := by unfold State.flush; split <;> rfl
@[simp] theorem State.flush_errInfo : (s.flush).errInfo = s.errInfo := by unfold State.flush; split <;> rfl
@[simp] theorem State.flush_phase : (s.flush).phase = s.phase := by unfold State.flush; split <;> rfl
@[simp] theorem State.flush_rsp : (s.flush).rsp = s.rsp := by unfold State.flush; split <;> rfl
@[simp] theorem State.flush_edges : (s.flush).edges = s.edges := by unfold State.flush; split <;> rfl
@[simp] theorem State.flush_rspLog : (s.flush).rspLog = s.rspLog := by unfold State.flush; split <;> rfl
@[simp] theorem State.flush_hdrEndian : (s.flush).hdrEndian = s.hdrEndian := by unfold State.flush; split <;> rfl
@[simp] theorem State.flush_doutLog : (s.flush).doutLog = s.doutLog := by unfold State.flush; split <;> rfl

/-! ### `State.decodeBit`: the fields it never touches -/

@[simp] theorem State.decodeBit_freq (x : Bool) : (s.decodeBit x).freq = s.freq := by unfold State.decodeBit; dsimp only; split <;> (try split) <;> rfl
@[simp] theorem State.decodeBit_origLen (x : Bool) : (s.decodeBit x).origLen = s.origLen := by unfold State.decodeBit; dsimp only; split <;> (try split) <;> rfl
@[simp] theorem State.decodeBit_nodes (x : Bool) : (s.decodeBit x).nodes = s.nodes := by unfold State.decodeBit; dsimp only; split <;> (try split) <;> rfl
@[simp] theorem State.decodeBit_heap (x : Bool) : (s.decodeBit x).heap = s.heap := by unfold State.decodeBit; dsimp only; split <;> (try split) <;> rfl
@[simp] theorem State.decodeBit_root (x : Bool) : (s.decodeBit x).root = s.root := by unfold State.decodeBit; dsimp only; split <;> (try split) <;> rfl
@[simp] theorem State.decodeBit_nsym (x : Bool) : (s.decodeBit x).nsym = s.nsym := by unfold State.decodeBit; dsimp only; split <;> (try split) <;> rfl
@[simp] theorem State.decodeBit_treeValid (x : Bool) : (s.decodeBit x).treeValid = s.treeValid := by unfold State.decodeBit; dsimp only; split <;> (try split) <;> rfl
@[simp] theorem State.decodeBit_codeValid (x : Bool) : (s.decodeBit x).codeValid = s.codeValid := by unfold State.decodeBit; dsimp only; split <;> (try split) <;> rfl
@[simp] theorem State.decodeBit_codes (x : Bool) : (s.decodeBit x).codes = s.codes := by unfold State.decodeBit; dsimp only; split <;> (try split) <;> rfl
@[simp] theorem State.decodeBit_acc (x : Bool) : (s.decodeBit x).acc = s.acc := by unfold State.decodeBit; dsimp only; split <;> (try split) <;> rfl
@[simp] theorem State.decodeBit_accCnt (x : Bool) : (s.decodeBit x).accCnt = s.accCnt := by unfold State.decodeBit; dsimp only; split <;> (try split) <;> rfl
@[simp] theorem State.decodeBit_inCnt (x : Bool) : (s.decodeBit x).inCnt = s.inCnt := by unfold State.decodeBit; dsimp only; split <;> (try split) <;> rfl
@[simp] theorem State.decodeBit_errCode (x : Bool) : (s.decodeBit x).errCode = s.errCode := by unfold State.decodeBit; dsimp only; split <;> (try split) <;> rfl
@[simp] theorem State.decodeBit_errInfo (x : Bool) : (s.decodeBit x).errInfo = s.errInfo := by unfold State.decodeBit; dsimp only; split <;> (try split) <;> rfl
@[simp] theorem State.decodeBit_phase (x : Bool) : (s.decodeBit x).phase = s.phase := by unfold State.decodeBit; dsimp only; split <;> (try split) <;> rfl
@[simp] theorem State.decodeBit_rsp (x : Bool) : (s.decodeBit x).rsp = s.rsp := by unfold State.decodeBit; dsimp only; split <;> (try split) <;> rfl
@[simp] theorem State.decodeBit_edges (x : Bool) : (s.decodeBit x).edges = s.edges := by unfold State.decodeBit; dsimp only; split <;> (try split) <;> rfl
@[simp] theorem State.decodeBit_rspLog (x : Bool) : (s.decodeBit x).rspLog = s.rspLog := by unfold State.decodeBit; dsimp only; split <;> (try split) <;> rfl
@[simp] theorem State.decodeBit_hdrEndian (x : Bool) : (s.decodeBit x).hdrEndian = s.hdrEndian := by unfold State.decodeBit; dsimp only; split <;> (try split) <;> rfl
@[simp] theorem State.decodeBit_doutLog (x : Bool) : (s.decodeBit x).doutLog = s.doutLog := by unfold State.decodeBit; dsimp only; split <;> (try split) <;> rfl

/-! ### What a fault records -/

@[simp] theorem State.recordFault_phase (c : ErrCode) (i : Data) : (s.recordFault c i).phase = .err := by
  unfold State.recordFault; split <;> simp_all

theorem State.recordFault_of_ne_err (c : ErrCode) (i : Data) (h : s.phase ≠ .err) :
    s.recordFault c i = { s with errCode := c, errInfo := i, phase := .err } := by
  unfold State.recordFault; split <;> simp_all

theorem State.recordFault_of_err (c : ErrCode) (i : Data) (h : s.phase = .err) : s.recordFault c i = s := by
  unfold State.recordFault; rw [h]

@[simp] theorem State.cmdFault_phase (w : CmdWord) (c : ErrCode) : (s.cmdFault w c).phase = .err := s.recordFault_phase _ _

@[simp] theorem State.beatFault_phase (b : Byte) (c : ErrCode) : (s.beatFault b c).phase = .err := s.recordFault_phase _ _

end Sys2Proof.Machine
end

