-- ==== Sys2Proof/Laws/Arrays.lean ====
section
/-! SUPPORT. Read after write for the arrays: the frequency table, the arena, the heap array, the code table. -/

namespace Sys2Proof.Machine

/-! ## FREQ -/

@[simp] theorem freqAt_setFreq_self (s : State) {a : Nat} (h : a < 256) (v : Freq) : (s.setFreq a v).freqAt a = v := by
  simp [State.freqAt, h]

@[simp] theorem freqAt_setFreq_ne (s : State) {a b : Nat} (h : b ≠ a) (v : Freq) : (s.setFreq a v).freqAt b = s.freqAt b := by
  simp [State.freqAt, Ne.symm h]

@[simp] theorem freqAt_reset (a : Nat) : State.reset.freqAt a = 0#32 := by
  simp only [State.freqAt, State.reset, Vector.getElem?_replicate]
  split <;> rfl

theorem freqAt_of_lt (s : State) {a : Nat} (h : a < 256) : s.freqAt a = s.freq[a] := by
  simp [State.freqAt, h]

/-! ## NODE -/

theorem nodeOf_of_lt {nodes : List Node} {n : Nat} (h : n < nodes.length) : nodeOf nodes n = nodes[n] := by
  simp [nodeOf, h]

@[simp] theorem nodeOf_append_left {nodes more : List Node} {n : Nat} (h : n < nodes.length) :
    nodeOf (nodes ++ more) n = nodeOf nodes n := by
  simp [nodeOf, List.getElem?_append_left h]

@[simp] theorem nodeOf_append_self (nodes : List Node) (e : Node) : nodeOf (nodes ++ [e]) nodes.length = e := by
  simp [nodeOf]

theorem length_setOwned (n : Idx) (nodes : List Node) : (setOwned n nodes).length = nodes.length := by
  simp [setOwned]

/-- `NODE[n].owned <- 1` changes that bit of that entry alone. -/
theorem nodeOf_setOwned (n : Idx) {nodes : List Node} {m : Nat} (h : m < nodes.length) :
    nodeOf (setOwned n nodes) m = { nodeOf nodes m with owned := (nodeOf nodes m).owned || m == n.toNat } := by
  have h' : m < (setOwned n nodes).length := by rwa [length_setOwned]
  rw [nodeOf_of_lt h', nodeOf_of_lt h]
  simp only [setOwned, List.getElem_modify]
  by_cases e : n.toNat = m
  · simp [e]
  · have hb : (m == n.toNat) = false := by simpa using Ne.symm e
    simp [e, hb]

theorem length_allocMerge (a b : Idx) (nodes : List Node) : (allocMerge a b nodes).length = nodes.length + 1 := by
  simp [allocMerge, length_setOwned]

/-- AllocMerge (41_tree.md R132): an old entry keeps everything but `owned`, which rises for the two children. -/
theorem nodeOf_allocMerge_old {a b : Idx} {nodes : List Node} {m : Nat} (h : m < nodes.length) :
    nodeOf (allocMerge a b nodes) m =
      { nodeOf nodes m with owned := (nodeOf nodes m).owned || m == a.toNat || m == b.toNat } := by
  rw [allocMerge, nodeOf_setOwned _ (by simp [length_setOwned]; omega), nodeOf_setOwned _ (by simp; omega),
    nodeOf_append_left h]

/-- AllocMerge (R132): the new entry. -/
theorem nodeOf_allocMerge_new {a b : Idx} {nodes : List Node} (ha : a.toNat < nodes.length) (hb : b.toNat < nodes.length) :
    nodeOf (allocMerge a b nodes) nodes.length = mergeNode nodes a b := by
  rw [allocMerge, nodeOf_setOwned _ (by simp [length_setOwned]), nodeOf_setOwned _ (by simp), nodeOf_append_self]
  have h1 : (nodes.length == a.toNat) = false := by simpa using Nat.ne_of_gt ha
  have h2 : (nodes.length == b.toNat) = false := by simpa using Nat.ne_of_gt hb
  rw [h1, h2]
  simp [mergeNode]

/-! ## HEAP -/

theorem heapGet_of_lt {h : List Idx} {i : Nat} (hi : i < h.length) : heapGet h i = h[i] := by
  simp [heapGet, hi]

@[simp] theorem heapGet_set_self {h : List Idx} {i : Nat} (hi : i < h.length) (n : Idx) : heapGet (h.set i n) i = n := by
  simp [heapGet, hi]

@[simp] theorem heapGet_set_ne (h : List Idx) {i j : Nat} (hij : i ≠ j) (n : Idx) : heapGet (h.set i n) j = heapGet h j := by
  simp [heapGet, hij]

/-! ## The code table -/

/-- SetCode (42_codegen.md R151) writes the symbol's length and bits. -/
theorem setCode_len_self (b : Byte) (c : List Bool) (t : CodeTable) :
    (setCode b c t).len[b.toNat]? = some (BitVec.ofNat 8 c.length) := by
  have : b.toNat < 256 := b.isLt
  simp [setCode, this]

theorem setCode_bits_self (b : Byte) (c : List Bool) (t : CodeTable) : (setCode b c t).bits[b.toNat]? = some (placeCode 0 c) := by
  have : b.toNat < 256 := b.isLt
  simp [setCode, this]

/-- SetCode leaves every other symbol's code. -/
theorem setCode_len_ne {b : Byte} {a : Nat} (h : a ≠ b.toNat) (c : List Bool) (t : CodeTable) :
    (setCode b c t).len[a]? = t.len[a]? := by
  simp [setCode, Ne.symm h]

theorem setCode_bits_ne {b : Byte} {a : Nat} (h : a ≠ b.toNat) (c : List Bool) (t : CodeTable) :
    (setCode b c t).bits[a]? = t.bits[a]? := by
  simp [setCode, Ne.symm h]

end Sys2Proof.Machine
end

