-- ==== Sys2Proof/Laws/Arena.lean ====
section
/-! SUPPORT. The arena's operations keep the forest (10_state.md R25, R27): the empty arena, AllocLeaf, AllocMerge; and paths in it. -/

namespace Sys2Proof.Machine

variable {nodes : List Node}

/-- An index below 511 is its own nine-bit value, and not NIL. -/
theorem toNat_idx {n : Nat} (h : n < 511) : (BitVec.ofNat 9 n).toNat = n := by
  rw [BitVec.toNat_ofNat]; omega

theorem idx_ne_nil {n : Nat} (h : n < 511) : BitVec.ofNat 9 n ≠ NIL := by
  intro e
  have := congrArg BitVec.toNat e
  rw [toNat_idx h] at this
  simp [NIL] at this
  omega

theorem Node.isLeaf_iff (e : Node) : e.isLeaf = true ↔ e.left = NIL := by simp [Node.isLeaf]

/-- The children of an entry, by bit (44_bitunpack.md R183). -/
theorem isChild_child {n : Idx} (x : Bool) (hn : n.toNat < nodes.length) (hl : (nodeOf nodes n.toNat).isLeaf = false) :
    IsChild nodes n.toNat ((nodeOf nodes n.toNat).child x) := by
  refine ⟨hn, hl, ?_⟩
  cases x <;> simp [Node.child]

/-- An arena with nothing allocated is a forest. -/
theorem arenaOk_nil : ArenaOk [] where
  size := by simp
  twoOrNone := fun m h => by simp at h
  below := fun m c h => absurd h.1 (by simp)
  apart := fun m h => by simp at h
  childOwned := fun m c h => absurd h.1 (by simp)
  oneParent := fun m m' c h => absurd h.1 (by simp)
  ownedIsChild := fun n h => by simp at h

/-- AllocLeaf (41_tree.md R131) keeps the forest, while an entry is free. -/
theorem arenaOk_allocLeaf (h : ArenaOk nodes) (hn : nodes.length < 511) (f : Freq) (sym : Nat) :
    ArenaOk (allocLeaf f sym nodes) := by
  have old : ∀ m, m < nodes.length → nodeOf (allocLeaf f sym nodes) m = nodeOf nodes m := fun m hm => nodeOf_append_left hm
  have new : nodeOf (allocLeaf f sym nodes) nodes.length = leafNode f sym := nodeOf_append_self _ _
  have len : (allocLeaf f sym nodes).length = nodes.length + 1 := by simp [allocLeaf]
  have split : ∀ m, m < nodes.length + 1 → m < nodes.length ∨ m = nodes.length := by omega
  have kid : ∀ m c, IsChild (allocLeaf f sym nodes) m c ↔ IsChild nodes m c := by
    intro m c
    constructor
    · rintro ⟨h1, h2, h3⟩
      rcases split m (by omega) with hm | rfl
      · rw [old m hm] at h2 h3; exact ⟨hm, h2, h3⟩
      · rw [new] at h2; simp [leafNode, Node.isLeaf] at h2
    · rintro ⟨h1, h2, h3⟩
      refine ⟨by omega, ?_, ?_⟩ <;> rw [old m h1] <;> assumption
  refine ⟨by omega, ?_, fun m c hc => h.below m c ((kid m c).1 hc), ?_, ?_,
    fun m m' c a b => h.oneParent m m' c ((kid m c).1 a) ((kid m' c).1 b), ?_⟩
  · intro m hm
    rcases split m (by omega) with hm | rfl
    · rw [old m hm]; exact h.twoOrNone m hm
    · rw [new]; simp [leafNode]
  · intro m hm hl
    rcases split m (by omega) with hm | rfl
    · rw [old m hm] at hl ⊢; exact h.apart m hm hl
    · rw [new] at hl; simp [leafNode, Node.isLeaf] at hl
  · intro m c hc
    have hc := (kid m c).1 hc
    rw [old _ (Nat.lt_trans (h.below m c hc) hc.1)]
    exact h.childOwned m c hc
  · intro n hn' ho
    rcases split n (by omega) with hm | rfl
    · rw [old n hm] at ho
      obtain ⟨m, hm⟩ := h.ownedIsChild n hm ho
      exact ⟨m, (kid _ _).2 hm⟩
    · rw [new] at ho; simp [leafNode] at ho

/-- The entry AllocMerge adds is internal (R132). -/
theorem mergeNode_isLeaf {a b : Idx} (ha : a ≠ NIL) : (mergeNode nodes a b).isLeaf = false := by
  simp [mergeNode, Node.isLeaf, ha]

/-- Who is a child of whom after AllocMerge (R132): as before, and `a` and `b` of the new entry. -/
theorem isChild_allocMerge {a b : Idx} (ha : a.toNat < nodes.length) (hb : b.toNat < nodes.length) (hna : a ≠ NIL) (m : Nat)
    (c : Idx) :
    IsChild (allocMerge a b nodes) m c ↔ IsChild nodes m c ∨ (m = nodes.length ∧ (c = a ∨ c = b)) := by
  have new : nodeOf (allocMerge a b nodes) nodes.length = mergeNode nodes a b := nodeOf_allocMerge_new ha hb
  constructor
  · rintro ⟨h1, h2, h3⟩
    rw [length_allocMerge] at h1
    by_cases hm : m < nodes.length
    · rw [nodeOf_allocMerge_old hm] at h2 h3; exact .inl ⟨hm, h2, h3⟩
    · have : m = nodes.length := by omega
      subst this
      rw [new] at h3
      exact .inr ⟨rfl, h3.imp Eq.symm Eq.symm⟩
  · rintro (⟨h1, h2, h3⟩ | ⟨rfl, h3⟩)
    · refine ⟨by rw [length_allocMerge]; omega, ?_, ?_⟩ <;> rw [nodeOf_allocMerge_old h1] <;> assumption
    · refine ⟨by rw [length_allocMerge]; omega, ?_, ?_⟩ <;> rw [new]
      · exact mergeNode_isLeaf hna
      · exact h3.imp Eq.symm Eq.symm

/-- AllocMerge (R132) keeps the forest: of two distinct allocated entries that nothing owns, while an entry is free. -/
theorem arenaOk_allocMerge {a b : Idx} (h : ArenaOk nodes) (hn : nodes.length < 511) (ha : a.toNat < nodes.length)
    (hb : b.toNat < nodes.length) (hab : a ≠ b) (hoa : (nodeOf nodes a.toNat).owned = false)
    (hob : (nodeOf nodes b.toNat).owned = false) : ArenaOk (allocMerge a b nodes) := by
  have notNil : ∀ n : Idx, n.toNat < nodes.length → n ≠ NIL := by rintro n hn' rfl; simp [NIL] at hn'; omega
  have kid := fun m c => isChild_allocMerge (m := m) (c := c) ha hb (notNil a ha)
  have new : nodeOf (allocMerge a b nodes) nodes.length = mergeNode nodes a b := nodeOf_allocMerge_new ha hb
  have len : (allocMerge a b nodes).length = nodes.length + 1 := length_allocMerge a b nodes
  have split : ∀ m, m < nodes.length + 1 → m < nodes.length ∨ m = nodes.length := by omega
  have unowned : ∀ m c, IsChild nodes m c → c ≠ a ∧ c ≠ b := by
    intro m c hc
    have := h.childOwned m c hc
    constructor <;> rintro rfl <;> simp_all
  refine ⟨by omega, ?_, ?_, ?_, ?_, ?_, ?_⟩
  · intro m hm
    rcases split m (by omega) with hm | rfl
    · rw [nodeOf_allocMerge_old hm]; exact h.twoOrNone m hm
    · rw [new]; simp [mergeNode, notNil a ha, notNil b hb]
  · intro m c hc
    rcases (kid m c).1 hc with hc | ⟨rfl, rfl | rfl⟩
    · exact h.below m c hc
    · exact ha
    · exact hb
  · intro m hm hl
    rcases split m (by omega) with hm | rfl
    · rw [nodeOf_allocMerge_old hm] at hl ⊢; exact h.apart m hm hl
    · rw [new]; exact hab
  · intro m c hc
    rcases (kid m c).1 hc with hc | ⟨rfl, rfl | rfl⟩
    · rw [nodeOf_allocMerge_old (Nat.lt_trans (h.below m c hc) hc.1)]; simp [h.childOwned m c hc]
    · rw [nodeOf_allocMerge_old ha]; simp
    · rw [nodeOf_allocMerge_old hb]; simp
  · intro m m' c hc hc'
    rcases (kid m c).1 hc with hc | ⟨rfl, e⟩ <;> rcases (kid m' c).1 hc' with hc' | ⟨rfl, e'⟩
    · exact h.oneParent m m' c hc hc'
    · exact absurd e' (by simpa using unowned m c hc)
    · exact absurd e (by simpa using unowned m' c hc')
    · rfl
  · intro n hn' ho
    rcases split n (by omega) with hm | rfl
    · rw [nodeOf_allocMerge_old hm] at ho
      simp only [Bool.or_eq_true, beq_iff_eq] at ho
      rcases ho with (ho | rfl) | rfl
      · obtain ⟨m, hm⟩ := h.ownedIsChild n hm ho
        exact ⟨m, (kid _ _).2 (.inl hm)⟩
      · exact ⟨nodes.length, (kid _ _).2 (.inr ⟨rfl, .inl (by simp)⟩)⟩
      · exact ⟨nodes.length, (kid _ _).2 (.inr ⟨rfl, .inr (by simp)⟩)⟩
    · rw [new] at ho; simp [mergeNode] at ho

/-! ## Paths -/

theorem descend_cons (n : Idx) (x : Bool) (p : List Bool) :
    descend nodes n (x :: p) =
      if (nodeOf nodes n.toNat).isLeaf then none else descend nodes ((nodeOf nodes n.toNat).child x) p := rfl

/-- A path is followed part by part. -/
theorem descend_append (p q : List Bool) (n : Idx) :
    descend nodes n (p ++ q) = (descend nodes n p).bind fun m => descend nodes m q := by
  induction p generalizing n with
  | nil => rfl
  | cons x p ih =>
    rw [List.cons_append, descend_cons, descend_cons]
    split
    · rfl
    · exact ih _

end Sys2Proof.Machine
end

