-- ==== Sys2Proof/Laws/Ops.lean ====
section
/-! SUPPORT. The shared operations, each said once: the checks of a command, the fault primitive, the response. -/

namespace Sys2Proof.Machine

/-! ## Encoding -/

/-- The upper 16 bits of a command's word are `{OP, A}` (30_encoding.md R85). -/
theorem commandInfo_encode (i : Instr) :
    commandInfo (encode i) = ((opcode i ++ BitVec.ofNat 10 (operandA i) : BitVec 16)).setWidth 32 := by
  have h : (encode i).extractLsb' 32 16 = (opcode i ++ BitVec.ofNat 10 (operandA i) : BitVec 16) := by
    apply BitVec.eq_of_getLsbD_eq
    intro k hk
    rw [BitVec.getLsbD_extractLsb']
    simp only [encode, BitVec.getLsbD_append, hk, decide_true, Bool.true_and]
    rw [if_neg (by omega), show 32 + k - 32 = k by omega]
  rw [commandInfo, h]

/-! ## Response and fault -/

theorem respond_eq_answered (s : State) (c : ErrCode) (d : Data) : s.respond c d = answered s c.toBits d := rfl

theorem respond_ok (s : State) (d : Data) : s.respond .ok d = okWith s d := rfl

/-- The fault primitive of a `Cmd` step (60_exceptions.md R244): everything it can do. -/
theorem cmdFault_eq_failed (s : State) (i : Instr) (c : ErrCode) : s.cmdFault (encode i) c = failed s i c := by
  unfold State.cmdFault failed
  by_cases h : s.phase = .err
  · rw [if_pos h, State.recordFault_of_err _ _ _ h, respond_eq_answered]
  · rw [if_neg h, State.recordFault_of_ne_err _ _ _ h, respond_eq_answered, commandInfo_encode]
    rfl

theorem failed_of_ne_err {s : State} (h : s.phase ≠ .err) (i : Instr) (c : ErrCode) : failed s i c = faulted s i c := if_neg h

theorem failed_of_err {s : State} (h : s.phase = .err) (i : Instr) (c : ErrCode) : failed s i c = refusedWith s c := if_pos h

theorem failed_of_idle {s : State} (h : s.phase = .idle) (i : Instr) (c : ErrCode) : failed s i c = faulted s i c :=
  failed_of_ne_err (by rw [h]; decide) i c

@[simp] theorem failed_phase (s : State) (i : Instr) (c : ErrCode) : (failed s i c).phase = .err := by
  unfold failed; split
  · assumption
  · rfl

/-- The `Din` step's fault outside phase ERR (R244, R245): no response. -/
theorem beatFault_eq {s : State} (h : s.phase ≠ .err) (b : Byte) (c : ErrCode) :
    s.beatFault b c = { s with errCode := c, errInfo := 0x80000000#32 ||| b.setWidth 32, phase := .err } :=
  State.recordFault_of_ne_err _ _ _ h

/-! ## Checks -/

theorem require_pos {c : Prop} [Decidable c] (h : c) (code : ErrCode) (i : Instr) (s : State) (k : Out) :
    require c code i s k = k := if_pos h

theorem require_neg {c : Prop} [Decidable c] (h : ¬c) (code : ErrCode) (i : Instr) (s : State) (k : Out) :
    require c code i s k = .next (failed s i code) := by
  rw [require, if_neg h, cmdFault_eq_failed]

/-- A check passes and the rest decides, or it fails and that is all. -/
theorem require_cases {c : Prop} [Decidable c] {code : ErrCode} {i : Instr} {s : State} {k : Out} {o : Out}
    (h : require c code i s k = o) : (c ∧ k = o) ∨ (¬c ∧ o = .next (failed s i code)) := by
  by_cases hc : c
  · exact .inl ⟨hc, by rwa [require_pos hc] at h⟩
  · exact .inr ⟨hc, by rw [← h, require_neg hc]⟩

/-- The phase test: the command waits, or runs, or fails with E_SEQ, and that is all. -/
theorem inPhases_cases {allowed : Phase → Bool} {i : Instr} {s : State} {k : Out} {o : Out} (h : inPhases allowed i s k = o) :
    (s.cmdReady = false ∧ o = .next s) ∨ (s.cmdReady = true ∧ allowed s.phase = true ∧ k = o) ∨
      (s.cmdReady = true ∧ allowed s.phase = false ∧ o = .next (failed s i .seq)) := by
  unfold inPhases at h
  cases hr : s.cmdReady with
  | false => rw [hr] at h; exact .inl ⟨rfl, h.symm⟩
  | true =>
    rw [hr, if_pos rfl] at h
    rcases require_cases h with ⟨ha, hk⟩ | ⟨ha, ho⟩
    · exact .inr (.inl ⟨rfl, ha, hk⟩)
    · exact .inr (.inr ⟨rfl, by simpa using ha, ho⟩)

/-- In an allowed accepting phase the phase test passes. -/
theorem inPhases_pos {allowed : Phase → Bool} {s : State} (hr : s.cmdReady = true) (ha : allowed s.phase = true) (i : Instr)
    (k : Out) : inPhases allowed i s k = k := by
  rw [inPhases, if_pos hr, require_pos ha]

theorem inPhases_neg {allowed : Phase → Bool} {s : State} (hr : s.cmdReady = true) (ha : allowed s.phase = false) (i : Instr)
    (k : Out) : inPhases allowed i s k = .next (failed s i .seq) := by
  rw [inPhases, if_pos hr, require_neg (by simp [ha])]

theorem inPhases_wait {allowed : Phase → Bool} {s : State} (hr : s.cmdReady = false) (i : Instr) (k : Out) :
    inPhases allowed i s k = .next s := by
  rw [inPhases, hr]; rfl

@[simp] theorem inPhases_idle {s : State} (h : s.phase = .idle) (i : Instr) (k : Out) : inPhases idleOnly i s k = k :=
  inPhases_pos (by simp [State.cmdReady, h]) (by rw [h]; rfl) i k

theorem inPhases_idleOrErr {s : State} (h : s.phase = .idle ∨ s.phase = .err) (i : Instr) (k : Out) :
    inPhases idleOrErr i s k = k := by
  rcases h with h | h <;> exact inPhases_pos (by simp [State.cmdReady, h]) (by rw [h]; rfl) i k

theorem inPhases_anyAccepting {s : State} (h : s.cmdReady = true) (i : Instr) (k : Out) : inPhases anyAccepting i s k = k := by
  apply inPhases_pos h
  revert h
  unfold State.cmdReady
  cases s.phase <;> simp [anyAccepting]

/-- `cmd_ready` by phase (10_state.md R49). -/
theorem cmdReady_iff (s : State) :
    s.cmdReady = true ↔ s.phase = .idle ∨ s.phase = .count ∨ s.phase = .encode ∨ s.phase = .err := by
  unfold State.cmdReady; cases s.phase <;> simp

end Sys2Proof.Machine
end

