-- ==== Sys2Proof/Laws/Edges.lean ====
section
/-! SUPPORT. One rising edge taken apart: what a `Din`, `Dout` or internal step is in each phase, and what `step` is for each kind of
edge. -/

namespace Sys2Proof.Machine

/-! ## Commands -/

/-- Where no command is accepted a command waits (10_state.md R49). -/
theorem exec_of_not_ready {s : State} (h : s.cmdReady = false) (i : Instr) : exec i s = .next s := by
  cases i <;> exact inPhases_wait h _ _

/-! ## The Din step by phase -/

theorem din_of_count {s : State} (h : s.phase = .count) (b : Byte) : s.din b = s.countBeat b := by simp only [State.din, h]

theorem din_of_encode {s : State} (h : s.phase = .encode) (b : Byte) : s.din b = s.encodeBeat b := by simp only [State.din, h]

theorem din_of_rdhdr {s : State} (h : s.phase = .rdhdr) (b : Byte) : s.din b = s.headerBeat s.hdrEndian b := by
  simp only [State.din, h]

theorem din_of_decode {s : State} (h : s.phase = .decode) (hr : s.rootIsLeaf = false) (b : Byte) : s.din b = s.decodeBeat b := by
  simp [State.din, h, hr]

/-- Where `din_ready` is low a byte waits (10_state.md R50). -/
theorem din_of_not_ready {s : State} (h : s.dinReady = false) (b : Byte) : s.din b = s := by
  unfold State.dinReady at h
  unfold State.din
  cases hp : s.phase <;> simp [hp] at h ⊢
  simp [h]

/-- The count beat that counts (45_header.md R198). -/
theorem countBeat_counts {s : State} {b : Byte} (h : s.freqAt b.toNat ≠ 0xFFFFFFFF#32) :
    s.countBeat b =
      { s.setFreq b.toNat (s.freqAt b.toNat + 1#32) with origLen := s.origLen + 1#64, inCnt := s.inCnt + 1#64 } :=
  if_neg h

/-- The count beat that overflows (R198): the fault alone. -/
theorem countBeat_overflows {s : State} {b : Byte} (hp : s.phase ≠ .err) (h : s.freqAt b.toNat = 0xFFFFFFFF#32) :
    s.countBeat b = { s with errCode := .freqOvf, errInfo := 0x80000000#32 ||| b.setWidth 32, phase := .err } :=
  (if_pos h).trans (beatFault_eq hp b _)

/-- The encode beat without a code (43_bitpack.md R165): the fault alone. -/
theorem encodeBeat_noCode {s : State} {b : Byte} (hp : s.phase ≠ .err) (h : s.codeLenAt b.toNat = 0#8) :
    s.encodeBeat b = { s with errCode := .noCode, errInfo := 0x80000000#32 ||| b.setWidth 32, phase := .err } :=
  (if_pos h).trans (beatFault_eq hp b _)

theorem encodeBeat_packs {s : State} {b : Byte} (h : s.codeLenAt b.toNat ≠ 0#8) :
    s.encodeBeat b = { (s.codeOf b).foldl State.appendBit s with inCnt := s.inCnt + 1#64 } :=
  if_neg h

/-! ## The Dout and internal steps -/

theorem dout_of_empty {s : State} (h : s.oq = []) : s.dout = s := by simp only [State.dout, h]

theorem dout_of_cons {s : State} {b : Byte} {q : List Byte} (h : s.oq = b :: q) :
    s.dout = { s with oq := q, doutLog := s.doutLog ++ [b] } := by
  simp only [State.dout, h]

theorem internal_of_emit {s : State} (hp : s.phase = .decode) (hr : s.rootIsLeaf = true) : s.internal = s.emit1 := by
  simp [State.internal, State.emitReady, hp, hr]

theorem internal_of_drain {s : State} (hp : s.phase = .drain) (hq : s.oq = []) : s.internal = s.drainDone := by
  simp [State.internal, State.emitReady, State.drainReady, hp, hq]

/-- No internal step is enabled (00_scope.md R15). -/
theorem internal_of_none {s : State} (he : ¬(s.phase = .decode ∧ s.rootIsLeaf = true)) (hd : ¬(s.phase = .drain ∧ s.oq = [])) :
    s.internal = s := by
  have h1 : s.emitReady = false := by simpa [State.emitReady] using he
  have h2 : s.drainReady = false := by simpa [State.drainReady] using hd
  simp [State.internal, h1, h2]

/-! ## One edge -/

/-- The state at an edge, before its steps: the response pulse of the edge before is over, the edge is spent. -/
abbrev State.atEdge (s : State) (rest : List Edge) : State := { s with rsp := none, edges := rest }

theorem step_of_reset {s : State} {rest : List Edge} (h : s.edges = .reset :: rest) :
    step s = .next (s.atEdge rest).cleared := by
  simp only [step, nextEdge, h, edge]

theorem step_of_internal {s : State} {rest : List Edge} (h : s.edges = .internal :: rest) :
    step s = .next (s.atEdge rest).internal := by
  simp only [step, nextEdge, h, edge]

theorem step_of_no_edge {s : State} (h : s.edges = []) : step s = .next (s.atEdge []).internal := by
  simp only [step, nextEdge, h, edge]

theorem step_of_ports {s : State} {r : Bool} {b : Option Byte} {w : Option CmdWord} {rest : List Edge}
    (h : s.edges = .ports r b w :: rest) :
    step s = cmdAt s.cmdReady w (((s.atEdge rest).doutAt r).dinAt b) := by
  simp only [step, nextEdge, h, edge, ports]
  rfl

/-- An edge with a command word, in an accepting phase (10_state.md R20, R49). -/
theorem step_of_command {s : State} {r : Bool} {b : Option Byte} {w : CmdWord} {rest : List Edge}
    (h : s.edges = .ports r b (some w) :: rest) (hr : s.cmdReady = true) :
    step s = cmdStep w (((s.atEdge rest).doutAt r).dinAt b) := by
  rw [step_of_ports h, hr]; rfl

/-- An edge whose command word, if it has one, waits. -/
theorem step_of_no_command {s : State} {r : Bool} {b : Option Byte} {w : Option CmdWord} {rest : List Edge}
    (h : s.edges = .ports r b w :: rest) (hw : w = none ∨ s.cmdReady = false) :
    step s = .next (((s.atEdge rest).doutAt r).dinAt b) := by
  rw [step_of_ports h]
  rcases hw with rfl | hr
  · rfl
  · rw [hr]; cases w <;> rfl

end Sys2Proof.Machine
end

