-- ==== Sys2Proof/Laws/Beats.lean ====
section
/-! SUPPORT. The frames of the beats' parts: what AppendBit, Flush, one decoded bit and one header byte leave as it was. -/

namespace Sys2Proof.Machine

/-! ## The packer (43_bitpack.md) -/

/-- AppendBit (R163) writes ACC, ACC_CNT, OQ and OUT_CNT alone. -/
theorem appendBit_frame (s : State) (x : Bool) :
    s.appendBit x = { s with
      acc := (s.appendBit x).acc, accCnt := (s.appendBit x).accCnt, oq := (s.appendBit x).oq, outCnt := (s.appendBit x).outCnt } := by
  unfold State.appendBit; dsimp only; split <;> rfl

/-- A run of AppendBit writes the same four alone. -/
theorem appendBits_frame (l : List Bool) (s : State) :
    l.foldl State.appendBit s = { s with
      acc := (l.foldl State.appendBit s).acc, accCnt := (l.foldl State.appendBit s).accCnt
      oq := (l.foldl State.appendBit s).oq, outCnt := (l.foldl State.appendBit s).outCnt } := by
  induction l generalizing s with
  | nil => rfl
  | cons x l ih =>
    rw [List.foldl_cons, ih (s.appendBit x), appendBit_frame s x]

@[simp] theorem appendBits_phase (l : List Bool) (s : State) : (l.foldl State.appendBit s).phase = s.phase := by
  rw [appendBits_frame]

/-- Flush (R167) writes the same four alone. -/
theorem flush_frame (s : State) :
    s.flush = { s with acc := s.flush.acc, accCnt := s.flush.accCnt, oq := s.flush.oq, outCnt := s.flush.outCnt } := by
  unfold State.flush; split <;> rfl

@[simp] theorem flush_accCnt (s : State) : s.flush.accCnt = 0#3 := by
  unfold State.flush; split
  · assumption
  · rfl

/-! ## The unpacker (44_bitunpack.md) -/

/-- One bit of the decode beat (R183) writes CUR, OQ, OUT_CNT and EMIT_CNT alone. -/
theorem decodeBit_frame (s : State) (x : Bool) :
    s.decodeBit x = { s with
      cur := (s.decodeBit x).cur, oq := (s.decodeBit x).oq, outCnt := (s.decodeBit x).outCnt
      emitCnt := (s.decodeBit x).emitCnt } := by
  unfold State.decodeBit; dsimp only; split
  · split <;> rfl
  · rfl

theorem decodeBits_frame (l : List Bool) (s : State) :
    l.foldl State.decodeBit s = { s with
      cur := (l.foldl State.decodeBit s).cur, oq := (l.foldl State.decodeBit s).oq
      outCnt := (l.foldl State.decodeBit s).outCnt, emitCnt := (l.foldl State.decodeBit s).emitCnt } := by
  induction l generalizing s with
  | nil => rfl
  | cons x l ih =>
    rw [List.foldl_cons, ih (s.decodeBit x), decodeBit_frame s x]

@[simp] theorem decodeBits_phase (l : List Bool) (s : State) : (l.foldl State.decodeBit s).phase = s.phase := by
  rw [decodeBits_frame]

/-- The end of a decode beat or of `Emit1`: DRAIN exactly when ORIGLEN symbols are out (R183, R186). -/
theorem drainIfDone_eq (s : State) : s.drainIfDone = { s with phase := if s.emitCnt = s.origLen then .drain else s.phase } := by
  unfold State.drainIfDone; split <;> rfl

/-! ## The header (45_header.md) -/

@[simp] theorem length_header (e : Endian) (s : State) : (s.header e).length = 1032 := by simp [State.header]

/-- WRHDR (R201) pushes the header, sets OUT_CNT and goes to DRAIN. -/
theorem headerWritten_eq (e : Endian) (s : State) :
    s.headerWritten e = { s with oq := s.oq ++ s.header e, outCnt := 1032#64, phase := .drain } := by
  simp [State.headerWritten, State.oqPushAll]

/-- A header byte (R206) goes into ORIGLEN or FREQ and nowhere else. -/
theorem loadHdrByte_frame (e : Endian) (s : State) (i : Nat) (b : Byte) :
    s.loadHdrByte e i b = { s with origLen := (s.loadHdrByte e i b).origLen, freq := (s.loadHdrByte e i b).freq } := by
  unfold State.loadHdrByte; split <;> rfl

/-- A header-read beat before the last (R206). -/
theorem headerBeat_more (e : Endian) {s : State} {b : Byte} (h : s.inCnt + 1#64 ≠ 1032#64) :
    s.headerBeat e b = { s.loadHdrByte e s.inCnt.toNat b with inCnt := s.inCnt + 1#64 } := if_neg h

/-- The last header-read beat (R206): back to IDLE, answered. -/
theorem headerBeat_last (e : Endian) {s : State} {b : Byte} (h : s.inCnt + 1#64 = 1032#64) :
    s.headerBeat e b = okWith { s.loadHdrByte e s.inCnt.toNat b with inCnt := s.inCnt + 1#64, phase := .idle } 0#32 := if_pos h

end Sys2Proof.Machine
end

