-- ==== Sys2Proof/Laws/Exec.lean ====
section
/-! SUPPORT. What `exec` can do, said once: a command waits, or fails one of its checks, or runs with its effect (30_encoding.md R92,
60_exceptions.md R243). -/

namespace Sys2Proof.Machine

open Host (Outcome)

/-- Command `i` passed every check in `s` and took it to `t`. -/
def Ran (i : Instr) (s t : State) : Prop :=
  match i with
  | .nop => s.phase = .idle ∧ t = okWith s 0#32
  | .clr => (s.phase = .idle ∨ s.phase = .err) ∧ t = okWith s.cleared 0#32
  | .rdsr a => a < 16 ∧ t = okWith s (s.sr a)
  | .wrlen a d => s.phase = .idle ∧ a < 2 ∧ t = okWith { s with origLen := withHalf s.origLen a d } 0#32
  | .rdf a => (s.phase = .idle ∨ s.phase = .err) ∧ a < 256 ∧ t = okWith s (s.freqAt a)
  | .wrf a d => s.phase = .idle ∧ a < 256 ∧ t = okWith (s.setFreq a d).dropTree 0#32
  | .count =>
    s.phase = .idle ∧
      t = okWith { s.dropTree with freq := Vector.replicate 256 0#32, origLen := 0#64, inCnt := 0#64, phase := .count } 0#32
  | .endPass => (s.phase = .count ∧ t = s.endCount) ∨ (s.phase = .encode ∧ t = s.endEncode)
  | .rdhdr => s.phase = .idle ∧ t = { s.dropTree with inCnt := 0#64, phase := .rdhdr }
  | .wrhdr => s.phase = .idle ∧ t = s.headerWritten s.hdrEndian
  | .build => s.phase = .idle ∧ t = okWith s.built (s.built.root.setWidth 32)
  | .gencode =>
    s.phase = .idle ∧ s.treeValid = true ∧
      ∃ c, s.codeTable = some c ∧ t = okWith { s with codes := c, codeValid := true } 0#32
  | .encode =>
    s.phase = .idle ∧ s.codeValid = true ∧
      t = okWith { s with acc := 0#8, accCnt := 0#3, inCnt := 0#64, outCnt := 0#64, phase := .encode } 0#32
  | .decode =>
    s.phase = .idle ∧ ((s.origLen = 0#64 ∧ t = s.openDecode .drain) ∨
      (s.origLen ≠ 0#64 ∧ s.treeValid = true ∧ s.root ≠ NIL ∧ t = { s.openDecode .decode with cur := s.root }))
  | .nleaf a =>
    s.phase = .idle ∧ a < 256 ∧ s.freqAt a ≠ 0#32 ∧ s.nodeCnt < 511 ∧
      t = okWith { s with nodes := allocLeaf (s.freqAt a) a s.nodes }.withdrawTree ((nextIdx s.nodes).setWidth 32)
  | .nmrg a b =>
    s.phase = .idle ∧ a < s.nodeCnt ∧ b < s.nodeCnt ∧
      (a ≠ b ∧ (s.nodeAt a).owned = false ∧ (s.nodeAt b).owned = false) ∧ s.nodeCnt < 511 ∧
      t = okWith { s with nodes := allocMerge (BitVec.ofNat 9 a) (BitVec.ofNat 9 b) s.nodes }.withdrawTree
        ((nextIdx s.nodes).setWidth 32)
  | .happ a =>
    s.phase = .idle ∧ a < s.nodeCnt ∧ s.heapSize < 256 ∧ t = s.withHeapSized (heapAppend (BitVec.ofNat 9 a) s.heap)
  | .hins a =>
    s.phase = .idle ∧ a < s.nodeCnt ∧ s.heapSize < 256 ∧ t = s.withHeapSized (heapInsert s.key (BitVec.ofNat 9 a) s.heap)
  | .hext =>
    s.phase = .idle ∧ 0 < s.heapSize ∧ t = okWith { s with heap := heapRest s.key s.heap } ((heapMin s.heap).setWidth 32)
  | .hbld => s.phase = .idle ∧ t = s.withHeapSized (heapBuild s.key s.heap)
  | .setroot a =>
    s.phase = .idle ∧ a < s.nodeCnt ∧ (s.nodeAt a).owned = false ∧
      t = okWith (s.declareRoot (BitVec.ofNat 9 a)) (BitVec.ofNat 32 a)
  | .rdn a sel =>
    (s.phase = .idle ∨ s.phase = .err) ∧ a < s.nodeCnt ∧ sel < 6 ∧ t = okWith s ((s.nodeAt a).field sel)
  | .rdh a => (s.phase = .idle ∨ s.phase = .err) ∧ a < s.heapSize ∧ t = okWith s ((s.heapAt a).setWidth 32)
  | .rdc a sel =>
    (s.phase = .idle ∨ s.phase = .err) ∧ s.codeValid = true ∧ a < 256 ∧ sel < 9 ∧ t = okWith s (s.codeWord a sel)

/-! ## The phase tests -/

theorem idleOnly_iff (p : Phase) : idleOnly p = true ↔ p = .idle := by cases p <;> decide

theorem idleOrErr_iff (p : Phase) : idleOrErr p = true ↔ p = .idle ∨ p = .err := by cases p <;> decide

theorem countOrEncode_iff (p : Phase) : countOrEncode p = true ↔ p = .count ∨ p = .encode := by cases p <;> decide

theorem anyAccepting_of_ready (s : State) (h : s.cmdReady = true) : anyAccepting s.phase = true := by
  rcases (cmdReady_iff s).1 h with e | e | e | e <;> rw [e] <;> rfl

/-! ## The outcomes -/

/-- What a presented command may come to in `s`. -/
def Came (i : Instr) (s : State) (o : Out) : Prop :=
  (s.cmdReady = false ∧ o = .next s) ∨
    (s.cmdReady = true ∧
      ((∃ t, o = .next t ∧ Ran i s t) ∨
        (∃ c, c ∈ ownFaults i ∧ o = .next (failed s i c)) ∨
        (i = .gencode ∧ s.treeValid = true ∧ s.codeTable = none ∧ o = .fault .endlessWalk)))

theorem came_phase {allowed : Phase → Bool} {i : Instr} {s : State} {k : Out}
    (hs : .seq ∈ ownFaults i ∨ (s.cmdReady = true → allowed s.phase = true))
    (h : s.cmdReady = true → allowed s.phase = true → Came i s k) : Came i s (inPhases allowed i s k) := by
  rcases inPhases_cases (rfl : inPhases allowed i s k = _) with ⟨hr, e⟩ | ⟨hr, ha, e⟩ | ⟨hr, ha, e⟩
  · exact .inl ⟨hr, e⟩
  · exact e ▸ h hr ha
  · rcases hs with hs | hs
    · exact .inr ⟨hr, .inr (.inl ⟨_, hs, e⟩)⟩
    · rw [hs hr] at ha; cases ha

theorem came_require {c : Prop} [Decidable c] {code : ErrCode} {i : Instr} {s : State} {k : Out} (hr : s.cmdReady = true)
    (hc : code ∈ ownFaults i) (h : c → Came i s k) : Came i s (require c code i s k) := by
  rcases require_cases (rfl : require c code i s k = _) with ⟨p, e⟩ | ⟨p, e⟩
  · exact e ▸ h p
  · exact .inr ⟨hr, .inr (.inl ⟨_, hc, e⟩)⟩

theorem came_ran {i : Instr} {s t : State} (hr : s.cmdReady = true) (h : Ran i s t) : Came i s (.next t) :=
  .inr ⟨hr, .inl ⟨t, rfl, h⟩⟩

/-- Everything `exec` can do. -/
theorem exec_came (i : Instr) (s : State) : Came i s (exec i s) := by
  cases i with
  | nop => exact came_phase (.inl (by simp [ownFaults])) fun hr ha => came_ran hr ⟨(idleOnly_iff _).1 ha, rfl⟩
  | clr => exact came_phase (.inl (by simp [ownFaults])) fun hr ha => came_ran hr ⟨(idleOrErr_iff _).1 ha, rfl⟩
  | rdsr a =>
    exact came_phase (.inr (anyAccepting_of_ready _)) fun hr _ => came_require hr (by simp [ownFaults]) fun h => came_ran hr ⟨h, rfl⟩
  | wrlen a d =>
    exact came_phase (.inl (by simp [ownFaults])) fun hr ha => came_require hr (by simp [ownFaults]) fun h => came_ran hr ⟨(idleOnly_iff _).1 ha, h, rfl⟩
  | rdf a =>
    exact came_phase (.inl (by simp [ownFaults])) fun hr ha => came_require hr (by simp [ownFaults]) fun h => came_ran hr ⟨(idleOrErr_iff _).1 ha, h, rfl⟩
  | wrf a d =>
    exact came_phase (.inl (by simp [ownFaults])) fun hr ha => came_require hr (by simp [ownFaults]) fun h => came_ran hr ⟨(idleOnly_iff _).1 ha, h, rfl⟩
  | count => exact came_phase (.inl (by simp [ownFaults])) fun hr ha => came_ran hr ⟨(idleOnly_iff _).1 ha, rfl⟩
  | endPass =>
    refine came_phase (.inl (by simp [ownFaults])) fun hr ha => came_ran hr ?_
    rcases (countOrEncode_iff _).1 ha with h | h
    · exact .inl ⟨h, if_pos h⟩
    · exact .inr ⟨h, if_neg (by rw [h]; decide)⟩
  | rdhdr => exact came_phase (.inl (by simp [ownFaults])) fun hr ha => came_ran hr ⟨(idleOnly_iff _).1 ha, rfl⟩
  | wrhdr => exact came_phase (.inl (by simp [ownFaults])) fun hr ha => came_ran hr ⟨(idleOnly_iff _).1 ha, rfl⟩
  | build => exact came_phase (.inl (by simp [ownFaults])) fun hr ha => came_ran hr ⟨(idleOnly_iff _).1 ha, rfl⟩
  | gencode =>
    refine came_phase (.inl (by simp [ownFaults])) fun hr ha => came_require hr (by decide) fun ht => ?_
    unfold State.storeCodes
    cases hc : s.codeTable with
    | some c => exact came_ran hr ⟨(idleOnly_iff _).1 ha, ht, c, hc, rfl⟩
    | none => exact .inr ⟨hr, .inr (.inr ⟨rfl, ht, hc, rfl⟩)⟩
  | encode =>
    exact came_phase (.inl (by simp [ownFaults])) fun hr ha => came_require hr (by decide) fun h => came_ran hr ⟨(idleOnly_iff _).1 ha, h, rfl⟩
  | decode =>
    refine came_phase (.inl (by simp [ownFaults])) fun hr ha => ?_
    split
    · rename_i h0; exact came_ran hr ⟨(idleOnly_iff _).1 ha, .inl ⟨h0, rfl⟩⟩
    · rename_i h0
      exact came_require hr (by decide) fun ht => came_require hr (by decide) fun hn =>
        came_ran hr ⟨(idleOnly_iff _).1 ha, .inr ⟨h0, ht, hn, rfl⟩⟩
  | nleaf a =>
    exact came_phase (.inl (by simp [ownFaults])) fun hr ha => came_require hr (by simp [ownFaults]) fun h1 => came_require hr (by simp [ownFaults]) fun h2 =>
      came_require hr (by simp [ownFaults]) fun h3 => came_ran hr ⟨(idleOnly_iff _).1 ha, h1, h2, h3, rfl⟩
  | nmrg a b =>
    exact came_phase (.inl (by simp [ownFaults])) fun hr ha => came_require hr (by simp [ownFaults]) fun h1 => came_require hr (by simp [ownFaults]) fun h2 =>
      came_require hr (by simp [ownFaults]) fun h3 => came_require hr (by simp [ownFaults]) fun h4 =>
        came_ran hr ⟨(idleOnly_iff _).1 ha, h1, h2, h3, h4, rfl⟩
  | happ a =>
    exact came_phase (.inl (by simp [ownFaults])) fun hr ha => came_require hr (by simp [ownFaults]) fun h1 => came_require hr (by simp [ownFaults]) fun h2 =>
      came_ran hr ⟨(idleOnly_iff _).1 ha, h1, h2, rfl⟩
  | hins a =>
    exact came_phase (.inl (by simp [ownFaults])) fun hr ha => came_require hr (by simp [ownFaults]) fun h1 => came_require hr (by simp [ownFaults]) fun h2 =>
      came_ran hr ⟨(idleOnly_iff _).1 ha, h1, h2, rfl⟩
  | hext => exact came_phase (.inl (by simp [ownFaults])) fun hr ha => came_require hr (by decide) fun h => came_ran hr ⟨(idleOnly_iff _).1 ha, h, rfl⟩
  | hbld => exact came_phase (.inl (by simp [ownFaults])) fun hr ha => came_ran hr ⟨(idleOnly_iff _).1 ha, rfl⟩
  | setroot a =>
    exact came_phase (.inl (by simp [ownFaults])) fun hr ha => came_require hr (by simp [ownFaults]) fun h1 => came_require hr (by simp [ownFaults]) fun h2 =>
      came_ran hr ⟨(idleOnly_iff _).1 ha, h1, h2, rfl⟩
  | rdn a sel =>
    exact came_phase (.inl (by simp [ownFaults])) fun hr ha => came_require hr (by simp [ownFaults]) fun h1 => came_require hr (by simp [ownFaults]) fun h2 =>
      came_ran hr ⟨(idleOrErr_iff _).1 ha, h1, h2, rfl⟩
  | rdh a =>
    exact came_phase (.inl (by simp [ownFaults])) fun hr ha => came_require hr (by simp [ownFaults]) fun h => came_ran hr ⟨(idleOrErr_iff _).1 ha, h, rfl⟩
  | rdc a sel =>
    exact came_phase (.inl (by simp [ownFaults])) fun hr ha => came_require hr (by simp [ownFaults]) fun h0 => came_require hr (by simp [ownFaults]) fun h1 =>
      came_require hr (by simp [ownFaults]) fun h2 => came_ran hr ⟨(idleOrErr_iff _).1 ha, h0, h1, h2, rfl⟩

/-- The three ways to a next state: the command waits, runs, or fails. -/
theorem exec_cases {i : Instr} {s t : State} (h : exec i s = .next t) :
    (s.cmdReady = false ∧ t = s) ∨ (s.cmdReady = true ∧ Ran i s t) ∨
      (s.cmdReady = true ∧ ∃ c, c ∈ ownFaults i ∧ t = failed s i c) := by
  have hc := exec_came i s
  rw [h] at hc
  rcases hc with ⟨hr, e⟩ | ⟨hr, ⟨u, e, hu⟩ | ⟨c, hc, e⟩ | ⟨_, _, _, e⟩⟩ <;> cases e
  · exact .inl ⟨hr, rfl⟩
  · exact .inr (.inl ⟨hr, hu⟩)
  · exact .inr (.inr ⟨hr, c, hc, rfl⟩)

/-- An illegal word (30_encoding.md R94) waits or faults. -/
theorem cmdStep_cases {w : CmdWord} {s t : State} (h : cmdStep w s = .next t) :
    (∃ i, decode w = .instr i ∧ exec i s = .next t) ∨ t = s ∨ (s.cmdReady = true ∧ t = s.cmdFault w .illCmd) := by
  unfold cmdStep at h
  cases hd : decode w with
  | instr i => rw [hd] at h; exact .inl ⟨i, rfl, h⟩
  | illegal r =>
    rw [hd] at h
    dsimp only at h
    split at h <;> cases h
    · exact .inr (.inr ⟨‹_›, rfl⟩)
    · exact .inr (.inl rfl)

/-- A fact about the state that each kind of step keeps, and that does not look at the pins or the coming edges, is kept by `step`. -/
theorem step_keeps {P : State → Prop} {s t : State} (hs : P s) (h : step s = .next t)
    (edge : ∀ s rest, P s → P (s.atEdge rest)) (cleared : ∀ s, P s → P s.cleared) (internal : ∀ s, P s → P s.internal)
    (dout : ∀ s, P s → P s.dout) (din : ∀ s b, P s → P (s.din b)) (exec : ∀ i s t, P s → exec i s = .next t → P t)
    (illegal : ∀ s w, P s → s.cmdReady = true → P (s.cmdFault w .illCmd)) : P t := by
  cases he : s.edges with
  | nil => rw [step_of_no_edge he] at h; cases h; exact internal _ (edge _ _ hs)
  | cons e rest =>
    have h0 := edge s rest hs
    cases e with
    | reset => rw [step_of_reset he] at h; cases h; exact cleared _ h0
    | internal => rw [step_of_internal he] at h; cases h; exact internal _ h0
    | ports r b w =>
      have h1 : P ((s.atEdge rest).doutAt r) := by
        cases r
        · exact h0
        · exact dout _ h0
      have h2 : P (((s.atEdge rest).doutAt r).dinAt b) := by
        cases b
        · exact h1
        · exact din _ _ h1
      rw [step_of_ports he] at h
      unfold cmdAt at h
      split at h
      · split at h
        · rcases cmdStep_cases h with ⟨i, _, hx⟩ | rfl | ⟨hr, rfl⟩
          · exact exec i _ _ h2 hx
          · exact h2
          · exact illegal _ _ h2 hr
        · cases h; exact h2
      · cases h; exact h2

end Sys2Proof.Machine
end

