-- ==== Sys2Proof/Laws/Heap.lean ====
section
/-! SUPPORT. The heap's micro-operations keep the entries: each result is a permutation of what it was given (40_heap.md R121). -/

namespace Sys2Proof.Machine

variable (key : Idx → NodeFreq)

@[simp] theorem length_swapAt (h : List Idx) (i j : Nat) : (swapAt h i j).length = h.length := by simp [swapAt]

/-- Swapping two live positions permutes the array. -/
theorem swapAt_perm {h : List Idx} {i j : Nat} (hi : i < h.length) (hj : j < h.length) : (swapAt h i j).Perm h := by
  rw [swapAt, heapGet_of_lt hi, heapGet_of_lt hj]
  exact List.set_set_perm hi hj

theorem heapGet_swapAt_left {h : List Idx} {i j : Nat} (hi : i < h.length) :
    heapGet (swapAt h i j) i = heapGet h j := by
  by_cases e : j = i
  · subst e; simp [swapAt, hi]
  · rw [swapAt, heapGet_set_ne _ e, heapGet_set_self hi]

theorem heapGet_swapAt_right {h : List Idx} {i j : Nat} (hj : j < h.length) : heapGet (swapAt h i j) j = heapGet h i := by
  rw [swapAt, heapGet_set_self (by simpa using hj)]

theorem heapGet_swapAt_other (h : List Idx) {i j k : Nat} (hi : i ≠ k) (hj : j ≠ k) :
    heapGet (swapAt h i j) k = heapGet h k := by
  rw [swapAt, heapGet_set_ne _ hj, heapGet_set_ne _ hi]

/-- The position Heapify moves to is the position itself or a live child of it. -/
theorem smallest_cases (h : List Idx) (i : Nat) :
    smallest key h i = i ∨ (smallest key h i = 2 * i + 1 ∧ 2 * i + 1 < h.length) ∨
      (smallest key h i = 2 * i + 2 ∧ 2 * i + 2 < h.length) := by
  unfold smallest
  dsimp only
  split <;> split <;> omega

theorem heapifyLoop_perm (fuel i : Nat) (h : List Idx) (hi : i < h.length) : (heapifyLoop key fuel i h).Perm h := by
  induction fuel generalizing i h with
  | zero => exact .refl _
  | succ fuel ih =>
    unfold heapifyLoop
    dsimp only
    split
    · exact .refl _
    · have hs : smallest key h i < h.length := by
        rcases smallest_cases key h i with e | ⟨e, l⟩ | ⟨e, l⟩ <;> omega
      exact (ih _ _ (by simpa using hs)).trans (swapAt_perm hi hs)

theorem heapify_perm {i : Nat} {h : List Idx} (hi : i < h.length) : (heapify key i h).Perm h := heapifyLoop_perm key _ _ _ hi

theorem siftUpLoop_perm (fuel i : Nat) (h : List Idx) (hi : i < h.length) : (siftUpLoop key fuel i h).Perm h := by
  induction fuel generalizing i h with
  | zero => exact .refl _
  | succ fuel ih =>
    unfold siftUpLoop
    split
    · have hp : (i - 1) / 2 < h.length := by omega
      exact (ih _ _ (by simpa using hp)).trans (swapAt_perm hi hp)
    · exact .refl _

/-- HeapInsert (40_heap.md R114) adds one entry. -/
theorem heapInsert_perm (n : Idx) (h : List Idx) : (heapInsert key n h).Perm (n :: h) :=
  (siftUpLoop_perm key _ _ _ (by simp)).trans (List.perm_append_singleton n h)

/-- HeapExtract (R115) removes one entry, the one it returns. -/
theorem heapRest_perm {h : List Idx} (hh : 0 < h.length) : (heapMin h :: heapRest key h).Perm h := by
  rcases List.eq_nil_or_concat' h with rfl | ⟨l, x, rfl⟩
  · simp at hh
  · have hlast : heapGet (l ++ [x]) ((l ++ [x]).length - 1) = x := by simp [heapGet]
    rw [heapRest, hlast, heapMin]
    cases l with
    | nil => simp [heapGet, heapify, heapifyLoop]
    | cons y l =>
      have e : ((y :: l ++ [x]).set 0 x).dropLast = x :: l := by
        rw [List.cons_append, List.set_cons_zero, ← List.cons_append, List.dropLast_concat]
      rw [e]
      have hm : heapGet (y :: l ++ [x]) 0 = y := rfl
      rw [hm]
      refine List.Perm.cons y ((heapify_perm key (by simp)).trans ?_)
      exact (List.perm_append_singleton x l).symm

theorem heapBuildFrom_perm (k : Nat) (h : List Idx) (hk : k < h.length) : (heapBuildFrom key k h).Perm h := by
  induction k generalizing h with
  | zero => exact heapify_perm key hk
  | succ k ih =>
    have hp := heapify_perm key hk
    exact (ih _ (by rw [hp.length_eq]; omega)).trans hp

/-- HeapBuild (R124) permutes the array. -/
theorem heapBuild_perm (h : List Idx) : (heapBuild key h).Perm h := by
  unfold heapBuild
  split
  · exact heapBuildFrom_perm key _ _ (by omega)
  · exact .refl _

end Sys2Proof.Machine
end

