-- ==== Sys2Proof/Laws/HeapOrder.lean ====
section
/-! SUPPORT. What sifting does to the order of the keys (40_heap.md R112, R114). -/

namespace Sys2Proof.Machine

variable (key : Idx → NodeFreq)

theorem key_le_of_not_lt {a b : NodeFreq} (h : ¬a < b) : b ≤ a := Nat.le_of_not_lt h

theorem key_le_trans {a b c : NodeFreq} (h : a ≤ b) (h' : b ≤ c) : a ≤ c := Nat.le_trans h h'

theorem key_le_of_lt {a b : NodeFreq} (h : a < b) : a ≤ b := Nat.le_of_lt h

/-! ## Keys after a swap -/

theorem keyAt_swapAt_left {h : List Idx} {i : Nat} (hi : i < h.length) (j : Nat) : keyAt key (swapAt h i j) i = keyAt key h j := by
  simp [keyAt, heapGet_swapAt_left hi]

theorem keyAt_swapAt_right {h : List Idx} {j : Nat} (hj : j < h.length) (i : Nat) : keyAt key (swapAt h i j) j = keyAt key h i := by
  simp [keyAt, heapGet_swapAt_right hj]

theorem keyAt_swapAt_other {h : List Idx} {i j k : Nat} (hi : k ≠ i) (hj : k ≠ j) :
    keyAt key (swapAt h i j) k = keyAt key h k := by
  simp [keyAt, heapGet_swapAt_other h hi.symm hj.symm]

/-! ## Sifting down -/

/-- Each node from position `lo` on has a key at most its children's. -/
def OrderedFrom (lo : Nat) (h : List Idx) : Prop :=
  ∀ j, 0 < j → j < h.length → lo ≤ (j - 1) / 2 → keyAt key h ((j - 1) / 2) ≤ keyAt key h j

/-- The same but for node `p`, whose children are in order with `p`'s parent: where Heapify's loop stands at `p`. -/
def OrderedBut (lo p : Nat) (h : List Idx) : Prop :=
  (∀ j, 0 < j → j < h.length → lo ≤ (j - 1) / 2 → (j - 1) / 2 ≠ p → keyAt key h ((j - 1) / 2) ≤ keyAt key h j) ∧
  (∀ j, 0 < j → j < h.length → (j - 1) / 2 = p → 0 < p → lo ≤ (p - 1) / 2 → keyAt key h ((p - 1) / 2) ≤ keyAt key h j)

theorem orderedFrom_zero {h : List Idx} : OrderedFrom key 0 h ↔ IsHeap key h :=
  ⟨fun q i h0 h1 => q i h0 h1 (Nat.zero_le _), fun q i h0 h1 _ => q i h0 h1⟩

/-- The position one turn of Heapify finds holds the least key of `p` and its children, and is `p` or a child with a smaller key. -/
theorem smallest_spec (h : List Idx) (p : Nat) :
    (∀ j, 0 < j → j < h.length → (j - 1) / 2 = p → keyAt key h (smallest key h p) ≤ keyAt key h j) ∧
      keyAt key h (smallest key h p) ≤ keyAt key h p ∧
      (smallest key h p = p ∨
        ((smallest key h p = 2 * p + 1 ∨ smallest key h p = 2 * p + 2) ∧ smallest key h p < h.length ∧
          keyAt key h (smallest key h p) < keyAt key h p)) := by
  have child : ∀ j, 0 < j → (j - 1) / 2 = p → j = 2 * p + 1 ∨ j = 2 * p + 2 := by intro j _ _; omega
  unfold smallest
  dsimp only
  by_cases hl : 2 * p + 1 < h.length ∧ keyAt key h (2 * p + 1) < keyAt key h p
  · rw [if_pos hl]
    by_cases hr : 2 * p + 2 < h.length ∧ keyAt key h (2 * p + 2) < keyAt key h (2 * p + 1)
    · have hrp : keyAt key h (2 * p + 2) < keyAt key h p := Nat.lt_trans hr.2 hl.2
      rw [if_pos hr]
      refine ⟨?_, key_le_of_lt hrp, .inr ⟨.inr rfl, hr.1, hrp⟩⟩
      intro j h0 hj e
      rcases child j h0 e with rfl | rfl
      · exact key_le_of_lt hr.2
      · exact Nat.le_refl _
    · rw [if_neg hr]
      refine ⟨?_, key_le_of_lt hl.2, .inr ⟨.inl rfl, hl⟩⟩
      intro j h0 hj e
      rcases child j h0 e with rfl | rfl
      · exact Nat.le_refl _
      · exact key_le_of_not_lt fun h' => hr ⟨hj, h'⟩
  · rw [if_neg hl]
    by_cases hr : 2 * p + 2 < h.length ∧ keyAt key h (2 * p + 2) < keyAt key h p
    · rw [if_pos hr]
      refine ⟨?_, key_le_of_lt hr.2, .inr ⟨.inr rfl, hr⟩⟩
      intro j h0 hj e
      rcases child j h0 e with rfl | rfl
      · exact key_le_trans (key_le_of_lt hr.2) (key_le_of_not_lt fun h' => hl ⟨hj, h'⟩)
      · exact Nat.le_refl _
    · rw [if_neg hr]
      refine ⟨?_, Nat.le_refl _, .inl rfl⟩
      intro j h0 hj e
      rcases child j h0 e with rfl | rfl
      · exact key_le_of_not_lt fun h' => hl ⟨hj, h'⟩
      · exact key_le_of_not_lt fun h' => hr ⟨hj, h'⟩

/-- Heapify's loop at `p` puts everything from `lo` on in order, if only `p` was out of order and the fuel lasts. -/
theorem heapifyLoop_orders {lo fuel p : Nat} {h : List Idx} (hp : p < h.length) (hf : h.length ≤ fuel + p) (hlo : lo ≤ p)
    (ho : OrderedBut key lo p h) : OrderedFrom key lo (heapifyLoop key fuel p h) := by
  induction fuel generalizing p h with
  | zero => omega
  | succ fuel ih =>
    obtain ⟨s1, s2, s3⟩ := smallest_spec key h p
    unfold heapifyLoop
    dsimp only
    generalize smallest key h p = s at *
    by_cases e : s = p
    · subst e
      rw [if_pos rfl]
      intro j h0 hj hlj
      by_cases hc : (j - 1) / 2 = s
      · rw [hc]; exact s1 j h0 hj hc
      · exact ho.1 j h0 hj hlj hc
    · rw [if_neg e]
      obtain ⟨s3, s4, s5⟩ := s3.resolve_left e
      have hsp : (s - 1) / 2 = p := by omega
      apply ih (by simpa using s4) (by simp; omega) (by omega)
      constructor
      · intro j h0 hj hlj hne
        rw [length_swapAt] at hj
        by_cases hjs : j = s
        · subst hjs; rw [hsp, keyAt_swapAt_left key hp, keyAt_swapAt_right key s4]; exact s2
        by_cases hjp : j = p
        · subst hjp
          rw [keyAt_swapAt_left key hp, keyAt_swapAt_other key (by omega) hne]
          exact ho.2 s (by omega) s4 hsp h0 hlj
        by_cases hpar : (j - 1) / 2 = p
        · rw [hpar, keyAt_swapAt_left key hp, keyAt_swapAt_other key hjp hjs]
          exact s1 j h0 hj hpar
        · rw [keyAt_swapAt_other key hpar hne, keyAt_swapAt_other key hjp hjs]
          exact ho.1 j h0 hj hlj hpar
      · intro j h0 hj hjs _ _
        rw [length_swapAt] at hj
        rw [hsp, keyAt_swapAt_left key hp, keyAt_swapAt_other key (by omega) (by omega), ← hjs]
        exact ho.1 j h0 hj (by omega) (by omega)

/-- Heapify (R112) of the one position out of order. -/
theorem heapify_orders {lo p : Nat} {h : List Idx} (hp : p < h.length) (hlo : lo ≤ p) (ho : OrderedBut key lo p h) :
    OrderedFrom key lo (heapify key p h) :=
  heapifyLoop_orders key hp (by omega) hlo ho

/-! ## Sifting up -/

/-- Each entry but the one at `p` has a key at least its parent's, and the children of `p` are in order with `p`'s parent. -/
def OrderedAbove (p : Nat) (h : List Idx) : Prop :=
  (∀ j, 0 < j → j < h.length → j ≠ p → keyAt key h ((j - 1) / 2) ≤ keyAt key h j) ∧
  (∀ j, 0 < j → j < h.length → (j - 1) / 2 = p → 0 < p → keyAt key h ((p - 1) / 2) ≤ keyAt key h j)

/-- HeapInsert's loop (R114) at `p` makes a heap, if only the entry at `p` was out of order and the fuel lasts. -/
theorem siftUpLoop_orders {fuel p : Nat} {h : List Idx} (hp : p < h.length) (hf : p ≤ fuel) (ho : OrderedAbove key p h) :
    IsHeap key (siftUpLoop key fuel p h) := by
  induction fuel generalizing p h with
  | zero => intro i h0 hi; exact ho.1 i h0 hi (by omega)
  | succ fuel ih =>
    unfold siftUpLoop
    split
    · rename_i hc
      have hq : (p - 1) / 2 < h.length := by omega
      have hpp : (p - 1) / 2 ≠ p := by omega
      apply ih (by simpa using hq) (by omega)
      constructor
      · intro j h0 hj hne
        rw [length_swapAt] at hj
        by_cases e1 : j = p
        · subst e1; rw [keyAt_swapAt_left key hp, keyAt_swapAt_right key hq]; exact key_le_of_lt hc.2
        by_cases e2 : (j - 1) / 2 = p
        · rw [e2, keyAt_swapAt_left key hp, keyAt_swapAt_other key e1 hne]
          exact ho.2 j h0 hj e2 (by omega)
        by_cases e3 : (j - 1) / 2 = (p - 1) / 2
        · rw [e3, keyAt_swapAt_right key hq, keyAt_swapAt_other key e1 hne]
          have := ho.1 j h0 hj e1; rw [e3] at this
          exact key_le_trans (key_le_of_lt hc.2) this
        · rw [keyAt_swapAt_other key e2 e3, keyAt_swapAt_other key e1 hne]
          exact ho.1 j h0 hj e1
      · intro j h0 hj hjq hq0
        rw [length_swapAt] at hj
        rw [keyAt_swapAt_other key (by omega) (by omega)]
        have q1 := ho.1 ((p - 1) / 2) hq0 hq hpp
        by_cases e1 : j = p
        · subst e1; rw [keyAt_swapAt_left key hp]; exact q1
        · rw [keyAt_swapAt_other key e1 (by omega)]
          have := ho.1 j h0 hj e1; rw [hjq] at this
          exact key_le_trans q1 this
    · rename_i hc
      intro i h0 hi
      by_cases e : i = p
      · subst e; exact key_le_of_not_lt fun h' => hc ⟨by omega, h'⟩
      · exact ho.1 i h0 hi e

end Sys2Proof.Machine
end

