-- ==== Sys2Proof/Laws/PerInstr.lean ====
section
/-! SUPPORT. Family TableRow, one lemma per command: the word of a well-formed command matches the row of the opcode map (30_encoding.md
R93) that carries its mnemonic. -/

namespace Sys2Proof.Laws.TableRow

open Sys2Proof.Machine

/-- The word of the command, its mnemonic's row applied: `(word & mask) = match`. -/
def Statement (i : Instr) : Prop :=
  WellFormed i = true → ∃ r ∈ opcodeMap, r.1 = mnemonic i ∧ encode i &&& r.2.2 = r.2.1

/-- Masking a word is masking its three fields. -/
theorem mask_fields (op mo : BitVec 6) (a ma : BitVec 10) (d md : BitVec 32) :
    ((op ++ a : BitVec 16) ++ d : CmdWord) &&& ((mo ++ ma : BitVec 16) ++ md) = ((op &&& mo) ++ (a &&& ma) : BitVec 16) ++ (d &&& md) := by
  rw [BitVec.and_append, BitVec.and_append]

/-- The row of a command whose format asks 0 of the bits `ma` of A and `md` of D (R86). -/
def rowOf (i : Instr) (ma : BitVec 10) (md : BitVec 32) : String × CmdWord × CmdWord :=
  (mnemonic i, (opcode i ++ 0#10 : BitVec 16) ++ 0#32, (0x3F#6 ++ ma : BitVec 16) ++ md)

theorem of_row {i : Instr} (ma : BitVec 10) (md : BitVec 32) (hr : rowOf i ma md ∈ opcodeMap)
    (ha : BitVec.ofNat 10 (operandA i) &&& ma = 0#10) (hd : WellFormed i = true → operandD i &&& md = 0#32) : Statement i := by
  intro h
  refine ⟨_, hr, rfl, ?_⟩
  have ho : opcode i &&& 0x3F#6 = opcode i := BitVec.and_allOnes
  rw [rowOf, encode, mask_fields, ho, ha, hd h]

theorem format_n {i : Instr} (hr : rowOf i 0x3FF#10 0xFFFFFFFF#32 ∈ opcodeMap) (ha : operandA i = 0) (hd : operandD i = 0#32) :
    Statement i :=
  of_row _ _ hr (by rw [ha]; rfl) fun _ => by rw [hd]; rfl

theorem format_a {i : Instr} (hr : rowOf i 0#10 0xFFFFFFFF#32 ∈ opcodeMap) (hd : operandD i = 0#32) : Statement i :=
  of_row _ _ hr BitVec.and_zero fun _ => by rw [hd]; rfl

theorem format_ad {i : Instr} (hr : rowOf i 0#10 0#32 ∈ opcodeMap) : Statement i := of_row _ _ hr BitVec.and_zero fun _ => BitVec.and_zero

/-- A number of `n` bits has no bit in a mask that is a multiple of `2 ^ n`. -/
theorem low_and_mask {n v : Nat} {md : BitVec 32} (hm : ∀ k < n, md.getLsbD k = false) (hv : v < 2 ^ n) :
    BitVec.ofNat 32 v &&& md = 0#32 := by
  apply BitVec.eq_of_getLsbD_eq
  intro k _
  rw [BitVec.getLsbD_and, BitVec.getLsbD_zero, BitVec.getLsbD_ofNat]
  by_cases h : k < n
  · simp [hm k h]
  · have hb : v.testBit k = false := Nat.testBit_lt_two_pow (hv.trans_le (Nat.pow_le_pow_right (by decide) (by omega)))
    simp [hb]

theorem format_low {i : Instr} (n : Nat) (md : BitVec 32) (hm : ∀ k < n, md.getLsbD k = false) (hr : rowOf i 0#10 md ∈ opcodeMap)
    (hd : WellFormed i = true → ∃ v, v < 2 ^ n ∧ operandD i = BitVec.ofNat 32 v) : Statement i :=
  of_row _ _ hr BitVec.and_zero fun h => by
    obtain ⟨v, hv, e⟩ := hd h
    rw [e, low_and_mask hm hv]

theorem nop : Statement .nop := format_n (by decide) rfl rfl
theorem clr : Statement .clr := format_n (by decide) rfl rfl
theorem rdsr (a : Nat) : Statement (.rdsr a) := format_a (by simp only [rowOf, mnemonic, opcode]; decide) rfl
theorem wrlen (a : Nat) (d : Data) : Statement (.wrlen a d) := format_ad (by simp only [rowOf, mnemonic, opcode]; decide)
theorem rdf (a : Nat) : Statement (.rdf a) := format_a (by simp only [rowOf, mnemonic, opcode]; decide) rfl
theorem wrf (a : Nat) (d : Data) : Statement (.wrf a d) := format_ad (by simp only [rowOf, mnemonic, opcode]; decide)
theorem count : Statement .count := format_n (by decide) rfl rfl
theorem endPass : Statement .endPass := format_n (by decide) rfl rfl
theorem rdhdr : Statement .rdhdr := format_n (by decide) rfl rfl
theorem wrhdr : Statement .wrhdr := format_n (by decide) rfl rfl
theorem build : Statement .build := format_n (by decide) rfl rfl
theorem gencode : Statement .gencode := format_n (by decide) rfl rfl
theorem encode : Statement .encode := format_n (by decide) rfl rfl
theorem decode : Statement .decode := format_n (by decide) rfl rfl
theorem nleaf (a : Nat) : Statement (.nleaf a) := format_a (by simp only [rowOf, mnemonic, opcode]; decide) rfl
theorem nmrg (a b : Nat) : Statement (.nmrg a b) :=
  format_low 10 0xFFFFFC00#32 (by decide) (by simp only [rowOf, mnemonic, opcode]; decide) fun h => ⟨b, by simpa using (by simpa [WellFormed] using h : a < 1024 ∧ b < 1024).2, rfl⟩
theorem happ (a : Nat) : Statement (.happ a) := format_a (by simp only [rowOf, mnemonic, opcode]; decide) rfl
theorem hins (a : Nat) : Statement (.hins a) := format_a (by simp only [rowOf, mnemonic, opcode]; decide) rfl
theorem hext : Statement .hext := format_n (by decide) rfl rfl
theorem hbld : Statement .hbld := format_n (by decide) rfl rfl
theorem setroot (a : Nat) : Statement (.setroot a) := format_a (by simp only [rowOf, mnemonic, opcode]; decide) rfl
theorem rdn (a sel : Nat) : Statement (.rdn a sel) :=
  format_low 4 0xFFFFFFF0#32 (by decide) (by simp only [rowOf, mnemonic, opcode]; decide) fun h => ⟨sel, by simpa using (by simpa [WellFormed] using h : a < 1024 ∧ sel < 16).2, rfl⟩
theorem rdh (a : Nat) : Statement (.rdh a) := format_a (by simp only [rowOf, mnemonic, opcode]; decide) rfl
theorem rdc (a sel : Nat) : Statement (.rdc a sel) :=
  format_low 4 0xFFFFFFF0#32 (by decide) (by simp only [rowOf, mnemonic, opcode]; decide) fun h => ⟨sel, by simpa using (by simpa [WellFormed] using h : a < 1024 ∧ sel < 16).2, rfl⟩

end Sys2Proof.Laws.TableRow
end

