-- ==== Sys2Proof/Laws/Streams.lean ====
section
/-! SUPPORT. What the packer, the unpacker, the code table and the header do to sequences of bits, one operation at a time. -/

namespace Sys2Proof.Machine

/-! ## The packer (43_bitpack.md R163, R167) -/

/-- AppendBit makes the bit sequence one bit longer. -/
theorem appendBit_stream (s : State) (x : Bool) : streamBits (s.appendBit x) = streamBits s ++ [x] := by
  have full : ∀ (acc : BitVec 8) (x : Bool), bitsOf ((acc <<< 1) ||| (BitVec.ofBool x).setWidth 8) =
      ((List.range 7).map fun k => acc.getLsbD (7 - 1 - k)) ++ [x] := by decide +kernel
  have more : ∀ (c : BitVec 3) (acc : BitVec 8) (x : Bool), c ≠ 7#3 →
      ((List.range (c + 1#3).toNat).map fun k =>
        ((acc <<< 1) ||| (BitVec.ofBool x).setWidth 8).getLsbD ((c + 1#3).toNat - 1 - k)) =
      ((List.range c.toNat).map fun k => acc.getLsbD (c.toNat - 1 - k)) ++ [x] := by decide +kernel
  unfold State.appendBit
  dsimp only
  split
  · rename_i h
    simp only [streamBits, pendingBits, State.oqPush_oq, h, List.flatMap_append, List.flatMap_cons, List.flatMap_nil]
    rw [full]; simp
  · rename_i h
    simp only [streamBits, pendingBits]
    rw [more _ _ _ h, List.append_assoc]

theorem appendBits_stream (l : List Bool) (s : State) : streamBits (l.foldl State.appendBit s) = streamBits s ++ l := by
  induction l generalizing s with
  | nil => simp
  | cons x l ih => rw [List.foldl_cons, ih, appendBit_stream]; simp

/-- AppendBit only adds to OQ, and OUT_CNT counts what it adds (10_state.md R35). -/
theorem appendBit_out (s : State) (x : Bool) :
    ∃ out, (s.appendBit x).oq = s.oq ++ out ∧ (s.appendBit x).outCnt = s.outCnt + BitVec.ofNat 64 out.length := by
  unfold State.appendBit; dsimp only; split
  · exact ⟨[_], rfl, rfl⟩
  · exact ⟨[], by simp, by simp⟩

theorem appendBits_out (l : List Bool) (s : State) :
    ∃ out, (l.foldl State.appendBit s).oq = s.oq ++ out ∧
      (l.foldl State.appendBit s).outCnt = s.outCnt + BitVec.ofNat 64 out.length := by
  induction l generalizing s with
  | nil => exact ⟨[], by simp, by simp⟩
  | cons x l ih =>
    obtain ⟨o1, h1, h2⟩ := appendBit_out s x
    obtain ⟨o2, h3, h4⟩ := ih (s.appendBit x)
    refine ⟨o1 ++ o2, by rw [List.foldl_cons, h3, h1, List.append_assoc], ?_⟩
    rw [List.foldl_cons, h4, h2, List.length_append, BitVec.ofNat_add, BitVec.add_assoc]

/-- Flush pads the held bits to a byte with zeros. -/
theorem flush_stream (s : State) :
    streamBits s.flush = streamBits s ++ List.replicate ((8 - s.accCnt.toNat) % 8) false := by
  have pad : ∀ (c : BitVec 3) (acc : BitVec 8), c ≠ 0#3 → bitsOf (acc <<< (8 - c.toNat)) =
      ((List.range c.toNat).map fun k => acc.getLsbD (c.toNat - 1 - k)) ++ List.replicate ((8 - c.toNat) % 8) false := by
    decide +kernel
  unfold State.flush
  split
  · rename_i h; simp [h]
  · rename_i h
    simp only [streamBits, pendingBits, State.oqPush_oq, List.flatMap_append, List.flatMap_cons, List.flatMap_nil]
    rw [pad _ _ h]; simp

/-! ## The unpacker (44_bitunpack.md R183) -/

/-- One bit, while symbols are to come: the child it selects is emitted if it is a leaf, else the walk stands there. -/
theorem decodeBit_moves {s : State} (hlt : s.emitCnt < s.origLen) (x : Bool) :
    s.decodeBit x =
      if (nodeOf s.nodes ((nodeOf s.nodes s.cur.toNat).child x).toNat).isLeaf then
        s.emitAt ((nodeOf s.nodes s.cur.toNat).child x)
      else { s with cur := (nodeOf s.nodes s.cur.toNat).child x } := by
  rw [State.decodeBit, if_pos hlt]; rfl

/-- One bit after the ORIGLEN-th symbol is discarded. -/
theorem decodeBit_discards {s : State} (h : ¬s.emitCnt < s.origLen) (x : Bool) : s.decodeBit x = s := if_neg h

/-- The bits of a path from CUR down to a leaf emit that leaf's symbol and go back to the root. -/
theorem decodeBits_path {s : State} {p : List Bool} {m : Idx} (hp : p ≠ []) (hlt : s.emitCnt < s.origLen)
    (hd : descend s.nodes s.cur p = some m) (hl : (nodeOf s.nodes m.toNat).isLeaf = true) :
    p.foldl State.decodeBit s = s.emitAt m := by
  induction p generalizing s with
  | nil => exact absurd rfl hp
  | cons x p ih =>
    rw [descend_cons] at hd
    split at hd
    · cases hd
    rw [List.foldl_cons, decodeBit_moves hlt]
    generalize (nodeOf s.nodes s.cur.toNat).child x = c at *
    cases p with
    | nil =>
      have : c = m := by simpa [descend] using hd
      subst this; rw [if_pos hl]; rfl
    | cons y p =>
      have hc : ¬(nodeOf s.nodes c.toNat).isLeaf = true := by
        intro h; rw [descend_cons, if_pos h] at hd; cases hd
      rw [if_neg hc]
      exact ih (s := { s with cur := c }) (by simp) hlt hd hl

/-- After the ORIGLEN-th symbol every bit is discarded. -/
theorem decodeBits_done {s : State} (h : s.emitCnt = s.origLen) (l : List Bool) : l.foldl State.decodeBit s = s := by
  induction l with
  | nil => rfl
  | cons x l ih =>
    rw [List.foldl_cons, decodeBit_discards (by rw [h]; exact Nat.lt_irrefl _)]; exact ih

theorem symbolsAlong_zero (nodes : List Node) (root n : Idx) (l : List Bool) : symbolsAlong nodes root 0 n l = ([], n) := by
  cases l <;> rfl

/-- A walk emits at most one symbol per bit. -/
theorem length_symbolsAlong (nodes : List Node) (root : Idx) (l : List Bool) (k : Nat) (n : Idx) :
    (symbolsAlong nodes root k n l).1.length ≤ l.length := by
  induction l generalizing k n with
  | nil => cases k <;> simp [symbolsAlong]
  | cons x l ih =>
    cases k with
    | zero => rw [symbolsAlong_zero]; simp
    | succ k =>
      simp only [symbolsAlong, List.length_cons]
      split
      · simpa using ih k root
      · exact Nat.le_succ_of_le (ih _ _)

/-! ## The code table (42_codegen.md R151) -/

theorem one_shifted_bit {m n : Nat} (hm : m < 256) : (1#256 <<< m).getLsbD n = decide (m = n) := by
  rw [BitVec.getLsbD_shiftLeft, BitVec.getLsbD_one]
  by_cases e : m = n
  · subst e; simp [hm]
  · by_cases h : n < m
    · simp [h, e]
    · have : n - m ≠ 0 := by omega
      simp [e, this]

/-- Bit 255 - j of a left-aligned code is its bit `j`, and 0 beyond its end. -/
theorem placeCode_bit {c : List Bool} {k j : Nat} (hk : k + c.length ≤ 256) (hj : j < 256) :
    (placeCode k c).getLsbD (255 - j) = if k ≤ j then c.getD (j - k) false else false := by
  induction c generalizing k with
  | nil => simp [placeCode]
  | cons x c ih =>
    simp only [List.length_cons] at hk
    have hx : (if x then 1#256 <<< (255 - k) else 0#256).getLsbD (255 - j) = (x && decide (j = k)) := by
      cases x
      · simp
      · rw [if_pos rfl, one_shifted_bit (by omega)]
        by_cases e : j = k
        · simp [e]
        · have : ¬255 - k = 255 - j := by omega
          simp [e, this]
    rw [placeCode, BitVec.getLsbD_or, ih (by omega), hx]
    by_cases e : j = k
    · subst e; simp
    · by_cases h : k ≤ j
      · have hs : j - k = (j - (k + 1)) + 1 := by omega
        rw [if_pos h, if_pos (by omega), hs, List.getD_cons_succ]
        simp [e]
      · rw [if_neg h, if_neg (by omega)]
        simp [e]

/-! ## The header (45_header.md R206) -/

/-- Writing one byte of a register, bit by bit. -/
theorem withByte_bit {w : Nat} (v : BitVec w) (lo : Nat) (b : Byte) {k : Nat} (hk : k < w) :
    (withByte v lo b).getLsbD k = if lo ≤ k ∧ k < lo + 8 then b.getLsbD (k - lo) else v.getLsbD k := by
  unfold withByte
  simp only [BitVec.getLsbD_or, BitVec.getLsbD_and, BitVec.getLsbD_not, BitVec.getLsbD_shiftLeft, BitVec.getLsbD_setWidth, hk,
    decide_true, Bool.true_and]
  have ones : ∀ i, i < 8 → (255#8).getLsbD i = true := by decide
  by_cases h1 : k < lo
  · simp [h1]
  · have hw : k - lo < w := by omega
    by_cases h2 : k < lo + 8
    · rw [if_pos ⟨by omega, h2⟩]
      have := ones (k - lo) (by omega)
      simp [h1, hw, this]
    · rw [if_neg (by omega)]
      have zeros : ∀ x : Byte, x.getLsbD (k - lo) = false := fun x => BitVec.getLsbD_of_ge _ _ (by omega)
      simp [h1, hw, zeros]

end Sys2Proof.Machine
end

