-- ==== Sys2Proof/Tests/Slice0.lean ====
section
/-! SUPPORT. Tests of one step each, expected values from spec/95_test_vectors.md, and a witness for the hypotheses of every
obligation. -/

namespace Sys2Proof.Tests

open Sys2Proof Sys2Proof.Machine

-- One theorem at a time: in parallel the kernel's evaluations together outgrow the memory limit.
set_option Elab.async false

/-! ## Helpers -/

/-- A field of the next state. -/
def after {α : Type} (o : Out) (f : State → α) : Option α :=
  match o with
  | .next t => some (f t)
  | .fault _ => none
  | .refused _ => none

/-- The fault code of the response pulsed by the next state. -/
def err (o : Out) : Option (BitVec 4) := (after o fun t => t.rsp.map (·.extractLsb' 32 4)).join

/-- The data of the response pulsed by the next state. -/
def data (o : Out) : Option Data := (after o fun t => t.rsp.map (·.extractLsb' 0 32)).join

/-- The command read from a 48-bit word. -/
def read (w : CmdWord) : Option Instr :=
  match decode w with
  | .instr i => some i
  | .illegal _ => none

/-- Reset with these FREQ entries. -/
def withFreqs (l : List (Nat × Nat)) : State := l.foldl (fun s p => s.setFreq p.1 (BitVec.ofNat 32 p.2)) State.reset

/-- Reset but for PHASE. -/
def inPhase (p : Phase) : State := { State.reset with phase := p }

/-- Phase ERR after a fault, as a fault leaves it. -/
def faultedState : State := { State.reset with phase := .err, errCode := .heapEmpty, errInfo := 0x5000#32 }

/-- A leaf, an internal node. -/
def lf (f s : Nat) (o : Bool) : Node := { freq := BitVec.ofNat 40 f, sym := BitVec.ofNat 8 s, left := NIL, right := NIL, owned := o }
def nd (f l r : Nat) (o : Bool) : Node :=
  { freq := BitVec.ofNat 40 f, sym := 0#8, left := BitVec.ofNat 9 l, right := BitVec.ofNat 9 r, owned := o }

/-- "aaaabbbcc" after its count pass (vector 1.1). -/
def counted : State := { withFreqs [(0x61, 4), (0x62, 3), (0x63, 2)] with origLen := 9#64, inCnt := 9#64 }

/-- Its three leaves (2.3.9). -/
def leaves : State := { counted with nodes := [lf 4 0x61 false, lf 3 0x62 false, lf 2 0x63 false] }

/-- Its tree after `BUILD` (1.1). -/
def built : State :=
  { counted with
    nodes := [lf 4 0x61 true, lf 3 0x62 true, lf 2 0x63 true, nd 5 2 1 true, nd 9 0 3 false]
    root := 4#9, nsym := 3#9, treeValid := true }

/-- Its code table after `GENCODE` (1.1): a = 0, b = 11, c = 10. -/
def coded : State :=
  { built with
    codes :=
      { len := ((State.reset.codes.len.setIfInBounds 0x61 1#8).setIfInBounds 0x62 2#8).setIfInBounds 0x63 2#8
        bits := (State.reset.codes.bits.setIfInBounds 0x62 (3#256 <<< 254)).setIfInBounds 0x63 (1#256 <<< 255) }
    codeValid := true }

/-- The tree of "ab" (2.3.8): two leaves under the root. -/
def pair : State :=
  { withFreqs [(0x61, 1), (0x62, 1)] with
    nodes := [lf 1 0x61 true, lf 1 0x62 true, nd 2 0 1 false], root := 2#9, nsym := 2#9, treeValid := true, origLen := 2#64 }

/-- A tree with two leaves of one symbol (42_codegen.md R154). -/
def twice : State := { pair with nodes := [lf 1 0x61 true, lf 1 0x61 true, nd 2 0 1 false] }

/-- The single-symbol tree of "z" (1.6). -/
def single : State :=
  { withFreqs [(0x7A, 9)] with nodes := [lf 9 0x7A false], root := 0#9, nsym := 1#9, treeValid := true, origLen := 9#64 }

/-- Six nodes of frequency 5, 3, 8, 1, 3, 7 (2.2.1). -/
def sixNodes (heap : List Nat) : State :=
  { State.reset with
    nodes := [lf 5 0x41 false, lf 3 0x42 false, lf 8 0x43 false, lf 1 0x44 false, lf 3 0x45 false, lf 7 0x46 false]
    heap := heap.map (BitVec.ofNat 9) }

/-- The heap array of the next state, as numbers. -/
def heapAfter (o : Out) : Option (List Nat) := after o fun t => t.heap.map BitVec.toNat

/-- The edges of `s` replaced by `es`. -/
def at_ (s : State) (es : List Edge) : State := { s with edges := es }

/-! ## WellFormed: an ill-formed term for each check -/

theorem test_wf_accepts : (WellFormed (.rdsr 1023) && WellFormed (.nmrg 1023 1023) && WellFormed (.rdn 1023 15)) = true := by decide
theorem test_wf_rdsr : WellFormed (.rdsr 1024) = false := by decide
theorem test_wf_wrlen : WellFormed (.wrlen 1024 0#32) = false := by decide
theorem test_wf_rdf : WellFormed (.rdf 1024) = false := by decide
theorem test_wf_wrf : WellFormed (.wrf 1024 0#32) = false := by decide
theorem test_wf_nleaf : WellFormed (.nleaf 1024) = false := by decide
theorem test_wf_nmrg_a : WellFormed (.nmrg 1024 0) = false := by decide
theorem test_wf_nmrg_b : WellFormed (.nmrg 0 1024) = false := by decide
theorem test_wf_happ : WellFormed (.happ 1024) = false := by decide
theorem test_wf_hins : WellFormed (.hins 1024) = false := by decide
theorem test_wf_setroot : WellFormed (.setroot 1024) = false := by decide
theorem test_wf_rdn_a : WellFormed (.rdn 1024 0) = false := by decide
theorem test_wf_rdn_sel : WellFormed (.rdn 0 16) = false := by decide
theorem test_wf_rdh : WellFormed (.rdh 1024) = false := by decide
theorem test_wf_rdc_a : WellFormed (.rdc 1024 0) = false := by decide
theorem test_wf_rdc_sel : WellFormed (.rdc 0 16) = false := by decide

/-! ## Decoding: each command's word written out from 30_encoding.md R85, R86, R93 as OP ++ A ++ D -/

theorem test_decode_nop : read (0b000001#6 ++ 0#10 ++ 0#32) = some .nop := by decide
theorem test_decode_clr : read (0b000010#6 ++ 0#10 ++ 0#32) = some .clr := by decide
theorem test_decode_rdsr : read (0b000011#6 ++ 0b0000000001#10 ++ 0#32) = some (.rdsr 1) := by decide
theorem test_decode_wrlen : read (0b000100#6 ++ 0b0000000001#10 ++ 0b1#32) = some (.wrlen 1 1#32) := by decide
theorem test_decode_rdf : read (0b000101#6 ++ 0b0001100001#10 ++ 0#32) = some (.rdf 0x61) := by decide
theorem test_decode_wrf : read (0b000110#6 ++ 0b0011111111#10 ++ 0xFFFFFFFF#32) = some (.wrf 255 0xFFFFFFFF#32) := by decide
theorem test_decode_count : read (0b001000#6 ++ 0#10 ++ 0#32) = some .count := by decide
theorem test_decode_end : read (0b001001#6 ++ 0#10 ++ 0#32) = some .endPass := by decide
theorem test_decode_rdhdr : read (0b001010#6 ++ 0#10 ++ 0#32) = some .rdhdr := by decide
theorem test_decode_wrhdr : read (0b001011#6 ++ 0#10 ++ 0#32) = some .wrhdr := by decide
theorem test_decode_build : read (0b001100#6 ++ 0#10 ++ 0#32) = some .build := by decide
theorem test_decode_gencode : read (0b001101#6 ++ 0#10 ++ 0#32) = some .gencode := by decide
theorem test_decode_encode : read (0b001110#6 ++ 0#10 ++ 0#32) = some .encode := by decide
theorem test_decode_decode : read (0b001111#6 ++ 0#10 ++ 0#32) = some .decode := by decide
theorem test_decode_nleaf : read (0b010000#6 ++ 0b0001100001#10 ++ 0#32) = some (.nleaf 0x61) := by decide
theorem test_decode_nmrg : read (0b010001#6 ++ 0b1001011000#10 ++ (0#22 ++ 0b1001011000#10)) = some (.nmrg 600 600) := by decide
theorem test_decode_nmrg_order : read (0b010001#6 ++ 0b0000000010#10 ++ (0#22 ++ 0b0000000001#10)) = some (.nmrg 2 1) := by decide
theorem test_decode_happ : read (0b010010#6 ++ 0b0000000000#10 ++ 0#32) = some (.happ 0) := by decide
theorem test_decode_hins : read (0b010011#6 ++ 0b0000000011#10 ++ 0#32) = some (.hins 3) := by decide
theorem test_decode_hext : read (0b010100#6 ++ 0#10 ++ 0#32) = some .hext := by decide
theorem test_decode_hbld : read (0b010101#6 ++ 0#10 ++ 0#32) = some .hbld := by decide
theorem test_decode_setroot : read (0b010110#6 ++ 0b0111111111#10 ++ 0#32) = some (.setroot 511) := by decide
theorem test_decode_rdn : read (0b011000#6 ++ 0b0000000100#10 ++ (0#28 ++ 0b0011#4)) = some (.rdn 4 3) := by decide
theorem test_decode_rdh : read (0b011001#6 ++ 0b0000000000#10 ++ 0#32) = some (.rdh 0) := by decide
theorem test_decode_rdc : read (0b011010#6 ++ 0b0001100010#10 ++ (0#28 ++ 0b0001#4)) = some (.rdc 0x62 1) := by decide

/-- Reserved opcodes (95 section 2.1, 30_encoding.md R94). -/
theorem test_decode_reserved :
    [0x000000000000#48, 0x1C0000000000#48, 0x5C0000000000#48, 0x6C0000000000#48, 0xFFFFFFFFFFFF#48].map decode =
      List.replicate 5 (.illegal .reservedOp) := by decide

/-- Must-be-zero bits (95 section 2.1, R89). -/
theorem test_decode_mustBeZero :
    [0x040000000001#48, 0x300100000000#48, 0x0C0100000001#48, 0x440000000400#48, 0x600000000010#48].map decode =
      List.replicate 5 (.illegal .mustBeZero) := by decide

/-- The encoder gives the words of 95 section 2.1. -/
theorem test_encode :
    [Instr.wrf 0x61 4#32, .nmrg 2 1, .setroot 511, .rdn 4 3, .rdc 0x62 1, .endPass].map encode =
      [0x186100000004#48, 0x440200000001#48, 0x59FF00000000#48, 0x600400000003#48, 0x686200000001#48, 0x240000000000#48] := by
  decide

theorem test_decodeTableWord : decodeTableWord 48 0x440200000001 = some (.nmrg 2 1) := by decide
theorem test_decodeTableWord_refuses : decodeTableWord 48 0x1C0000000000 = none := by decide

/-- A placed word is the first command after reset: `RDSR 0` answers P_ID (R46). -/
theorem test_withFetchWord : data (step (State.reset.withFetchWord 48 0x0C0000000000)) = some 0x48554601#32 := by decide +kernel

/-- A placed word runs in a phase that accepts none too. -/
theorem test_withFetchWord_drain :
    after (step ((inPhase .drain).withFetchWord 48 0x200000000000)) State.phase = some .count := by decide +kernel

/-! ## Access commands (46_access.md) -/

theorem test_nop : after (exec .nop counted) (fun t => (t.rsp, t.phase, t.origLen)) = some (some 0#36, .idle, 9#64) := by
  decide +kernel

theorem test_nop_in_count : err (exec .nop (inPhase .count)) = some 2#4 := by decide +kernel

/-- `CLR` returns from phase ERR (60_exceptions.md R250). -/
theorem test_clr : after (exec .clr faultedState) (fun t => (t.phase, t.errCode, t.errInfo)) = some (.idle, .ok, 0#32) := by
  decide +kernel

theorem test_clr_drops : after (exec .clr built) (fun t => (t.nodeCnt, t.root, t.freqAt 0x61, t.treeValid)) = some (0, NIL, 0#32, false) := by
  decide +kernel

/-- SR1 after `BUILD` of "aaaabbbcc" is 0x00000100 (1.1). -/
theorem test_rdsr_status : data (exec (.rdsr 1) built) = some 0x00000100#32 := by decide +kernel

/-- `RDSR 16`: E_RANGE, ERRINFO 0x00000C10 (2.1). -/
theorem test_rdsr_range : after (exec (.rdsr 16) State.reset) (fun t => (t.errCode, t.errInfo)) = some (.range, 0x00000C10#32) := by
  decide +kernel

theorem test_wrlen_low : after (exec (.wrlen 0 9#32) { State.reset with origLen := 0x100000002#64 }) State.origLen = some 0x100000009#64 := by
  decide +kernel

theorem test_wrlen_high : after (exec (.wrlen 1 1#32) counted) State.origLen = some 0x100000009#64 := by decide +kernel

theorem test_rdf : data (exec (.rdf 0x61) counted) = some 4#32 := by decide +kernel

/-- `RDF 256`: E_RANGE (2.1). -/
theorem test_rdf_range : err (exec (.rdf 256) counted) = some 3#4 := by decide +kernel

theorem test_wrf : after (exec (.wrf 255 0xFFFFFFFF#32) built) (fun t => (t.freqAt 255, t.freqAt 0x61, t.nodeCnt, t.treeValid)) =
    some (0xFFFFFFFF#32, 4#32, 0, false) := by decide +kernel

/-- `RDN 4, 3` reads the left child, `RDN 4, 0` the frequency (1.1). -/
theorem test_rdn : (data (exec (.rdn 4 3) built), data (exec (.rdn 4 4) built)) = (some 0#32, some 3#32) := by decide +kernel

/-- The upper byte of a 40-bit frequency (2.3.10). -/
theorem test_rdn_freq :
    (data (exec (.rdn 0 0) { State.reset with nodes := [lf 0x1FFFFFFFE 0 false] }),
      data (exec (.rdn 0 1) { State.reset with nodes := [lf 0x1FFFFFFFE 0 false] })) = (some 0xFFFFFFFE#32, some 1#32) := by
  decide +kernel

theorem test_rdh : data (exec (.rdh 2) (sixNodes [3, 1, 5, 0, 4, 2])) = some 5#32 := by decide +kernel

/-- `RDH 0` with HEAP_SIZE = 0: E_RANGE (2.2.4). -/
theorem test_rdh_range : err (exec (.rdh 0) State.reset) = some 3#4 := by decide +kernel

/-- `RDC 'b', 1` -> 0xC0000000, `RDC 'b', 8` -> 0 (2.4.1). -/
theorem test_rdc : (data (exec (.rdc 0x62 1) coded), data (exec (.rdc 0x62 8) coded)) = (some 0xC0000000#32, some 0#32) := by decide +kernel

/-- `RDC 'b', 9`: E_RANGE; `RDC 256, 9` with CODE_VALID = 0: flag before range (2.1, 2.4.1). -/
theorem test_rdc_fails : (err (exec (.rdc 0x62 9) coded), err (exec (.rdc 256 9) built)) = (some 3#4, some 2#4) := by decide +kernel

/-! ## Heap commands (40_heap.md; 95 section 2.2) -/

/-- `HAPP 5` appends without sifting (2.2.2). -/
theorem test_happ : heapAfter (exec (.happ 5) (sixNodes [0, 1, 2, 3, 4])) = some [0, 1, 2, 3, 4, 5] := by decide +kernel

theorem test_happ_range : err (exec (.happ 6) (sixNodes [])) = some 3#4 := by decide +kernel

/-- `HINS 3` (2.2.1): two swaps. -/
theorem test_hins : heapAfter (exec (.hins 3) (sixNodes [1, 0, 2])) = some [3, 1, 2, 0] := by decide +kernel

/-- `HINS 4` (2.2.1): 3 < 3 is false, the entry stays below its equal parent. -/
theorem test_hins_tie : heapAfter (exec (.hins 4) (sixNodes [3, 1, 2, 0])) = some [3, 1, 2, 0, 4] := by decide +kernel

/-- The first `HEXT` of 2.2.1. -/
theorem test_hext : heapAfter (exec .hext (sixNodes [3, 1, 5, 0, 4, 2])) = some [1, 4, 5, 0, 2] := by decide +kernel

/-- `HEXT` on an empty heap: E_HEAP_EMPTY, ERRINFO 0x00005000 (2.2.1). -/
theorem test_hext_empty : after (exec .hext State.reset) (fun t => (t.errCode, t.errInfo)) = some (.heapEmpty, 0x00005000#32) := by
  decide +kernel

/-- `HBLD` (2.2.2). -/
theorem test_hbld : heapAfter (exec .hbld (sixNodes [0, 1, 2, 3, 4, 5])) = some [3, 1, 5, 0, 4, 2] := by decide +kernel

/-! ## Tree commands (41_tree.md; 95 sections 1.1 and 2.3) -/

theorem test_nleaf : after (exec (.nleaf 0x63) { leaves with nodes := leaves.nodes.take 2 }) State.nodes = some leaves.nodes := by
  decide +kernel

/-- `NLEAF 'd'` with FREQ 0: E_ZEROFREQ (2.3.9). -/
theorem test_nleaf_zero : err (exec (.nleaf 0x64) leaves) = some 11#4 := by decide +kernel

theorem test_nmrg : after (exec (.nmrg 2 1) leaves) State.nodes =
    some [lf 4 0x61 false, lf 3 0x62 true, lf 2 0x63 true, nd 5 2 1 false] := by decide +kernel

/-- `NMRG 1, 1`: E_OWNED; `NMRG 600, 600`: range before that (2.1). -/
theorem test_nmrg_fails : (err (exec (.nmrg 1 1) leaves), err (exec (.nmrg 600 600) leaves)) = (some 10#4, some 3#4) := by decide +kernel

/-- `SETROOT 0` makes a single-symbol tree, SR1 bit 11 set (2.3.9). -/
theorem test_setroot : after (exec (.setroot 0) leaves) (fun t => (t.root, t.treeValid, t.status.getLsbD 11)) = some (0#9, true, true) := by
  decide +kernel

theorem test_setroot_fails : (err (exec (.setroot 1) built), err (exec (.setroot 511) built)) = (some 10#4, some 3#4) := by decide +kernel

/-- `BUILD` of "aaaabbbcc" (1.1). -/
theorem test_build : after (exec .build counted) (fun t => (t.nodes, t.root, t.nsym)) = some (built.nodes, 4#9, 3#9) := by decide +kernel

/-- `BUILD` of the empty table answers 0x1FF (1.7). -/
theorem test_build_empty : data (exec .build State.reset) = some 0x1FF#32 := by decide +kernel

/-! ## Codes, packer, unpacker (42_codegen.md, 43_bitpack.md, 44_bitunpack.md) -/

/-- `GENCODE` (1.1): a = 0, b = 11, c = 10, d has none. -/
theorem test_gencode : after (exec .gencode built) (fun t => (t.codeOf 0x61#8, t.codeOf 0x62#8, t.codeOf 0x63#8, t.codeOf 0x64#8)) =
    some ([false], [true, true], [true, false], []) := by decide +kernel

/-- Of two leaves of one symbol the last in left-to-right order gives the code (R154). -/
theorem test_gencode_twice : after (exec .gencode twice) (fun t => t.codeOf 0x61#8) = some [true] := by decide +kernel

theorem test_gencode_single : after (exec .gencode single) (fun t => t.codeOf 0x7A#8) = some [false] := by decide +kernel

theorem test_encode_opens : after (exec .encode { coded with acc := 5#8, accCnt := 3#3 }) (fun t => (t.acc, t.accCnt, t.inCnt, t.phase)) =
    some (0#8, 0#3, 0#64, .encode) := by decide +kernel

theorem test_encode_seq : err (exec .encode built) = some 2#4 := by decide +kernel

/-- The first 'b' of 1.1: 0b0000 held, the code 11. -/
theorem test_encode_beat :
    let t := ({ coded with phase := .encode, accCnt := 4#3 } : State).din 0x62#8
    (t.acc, t.accCnt, t.inCnt) = (0b000011#8, 6#3, 10#64) := by decide +kernel

/-- The beat without a code (2.5.8). -/
theorem test_encode_beat_noCode :
    let t := ({ coded with phase := .encode } : State).din 0x64#8
    (t.phase, t.errCode, t.errInfo, t.inCnt) = (.err, .noCode, 0x80000064#32, 9#64) := by decide +kernel

/-- `END` flushes 0b111010 as 0xE8 (1.1). -/
theorem test_end_encode : after (exec .endPass { coded with phase := .encode, acc := 0x3A#8, accCnt := 6#3 }) (fun t => (t.oq, t.accCnt, t.phase)) =
    some ([0xE8#8], 0#3, .drain) := by decide +kernel

theorem test_end_count : after (exec .endPass { counted with phase := .count }) (fun t => (t.phase, t.rsp)) = some (.idle, some 0#36) := by
  decide +kernel

theorem test_decode_opens : after (exec .decode built) (fun t => (t.cur, t.inCnt, t.phase, t.rsp)) = some (4#9, 0#64, .decode, none) := by
  decide +kernel

/-- `DECODE` with ORIGLEN = 0 needs no tree; with a tree declared empty and ORIGLEN != 0 it faults E_NOTREE (R181). -/
theorem test_decode_corners :
    (after (exec .decode State.reset) State.phase, err (exec .decode { State.reset with treeValid := true, origLen := 1#64 })) =
      (some .drain, some 9#4) := by decide +kernel

/-- The first decode beat of 1.1: 0x0F gives a a a a b b. -/
theorem test_decode_beat :
    let t := ({ built with phase := .decode, cur := 4#9, emitCnt := 0#64 } : State).din 0x0F#8
    (t.oq, t.emitCnt, t.phase) = ([0x61#8, 0x61#8, 0x61#8, 0x61#8, 0x62#8, 0x62#8], 6#64, .decode) := by decide +kernel

/-- The second: 0xE8 gives b c c and two pad bits; the pass drains (1.1). -/
theorem test_decode_beat_last :
    let t := ({ built with phase := .decode, cur := 4#9, emitCnt := 6#64 } : State).din 0xE8#8
    (t.oq, t.emitCnt, t.phase) = ([0x62#8, 0x63#8, 0x63#8], 9#64, .drain) := by decide +kernel

/-- The last `Emit1` of a single-symbol pass (1.6). -/
theorem test_emit1 :
    let t := ({ single with phase := .decode, cur := 0#9, emitCnt := 8#64 } : State).internal
    (t.oq, t.emitCnt, t.phase) = ([0x7A#8], 9#64, .drain) := by decide +kernel

/-! ## Count pass and header (45_header.md) -/

theorem test_count : after (exec .count built) (fun t => (t.freqAt 0x61, t.origLen, t.nodeCnt, t.phase)) = some (0#32, 0#64, 0, .count) := by
  decide +kernel

theorem test_count_beat :
    let t := ({ counted with phase := .count } : State).din 0x61#8
    (t.freqAt 0x61, t.freqAt 0x62, t.origLen, t.inCnt) = (5#32, 3#32, 10#64, 10#64) := by decide +kernel

/-- `WRHDR` of "aaaabbbcc" (1.1): bytes 0 and 396, 400, 404; OUT_CNT 1032. -/
theorem test_wrhdr : after (exec .wrhdr counted) (fun t => ([0, 1, 396, 397, 400, 404, 1031, 1032].map (t.oq[·]?), t.outCnt)) =
    some ([some 9#8, some 0#8, some 4#8, some 0#8, some 3#8, some 2#8, some 0#8, none], 1032#64) := by decide +kernel

/-- The step of a block built with P_HDR_ENDIAN = big (2.7.1). -/
theorem test_wrhdr_big :
    after (step (at_ { counted with hdrEndian := .big } [presents .wrhdr]))
      (fun t => ([0, 7, 396, 399, 403, 407].map (t.oq[·]?), t.hdrEndian)) =
      some ([some 0#8, some 9#8, some 0#8, some 4#8, some 3#8, some 2#8], .big) := by decide +kernel

theorem test_rdhdr : after (exec .rdhdr built) (fun t => (t.inCnt, t.nodeCnt, t.freqAt 0x61, t.phase)) = some (0#64, 0, 4#32, .rdhdr) := by
  decide +kernel

/-- Byte 397 of a little-endian header is FREQ['a'][15:8] (R64, R206). -/
theorem test_header_beat :
    (({ counted with phase := .rdhdr, inCnt := 397#64 } : State).din 0x12#8).freqAt 0x61 = 0x1204#32 := by decide +kernel

/-- The same byte read by a block built with P_HDR_ENDIAN = big is FREQ['a'][23:16] (R64). -/
theorem test_header_beat_big :
    (({ counted with phase := .rdhdr, inCnt := 397#64, hdrEndian := .big } : State).din 0x12#8).freqAt 0x61 = 0x120004#32 := by
  decide +kernel

/-! ## Edges -/

/-- At one edge the host takes a byte, presents a byte and a command; `Dout`, `Din`, `Cmd` in that order (R20). -/
theorem test_edge_order :
    after (step (at_ { coded with phase := .encode, oq := [0x0F#8] } [.ports true (some 0x62#8) (some 0x240000000000#48)]))
      (fun t => (t.doutLog, t.oq, t.phase)) = some ([0x0F#8], [0xC0#8], .drain) := by decide +kernel

/-- A reset edge takes no other step (R270). -/
theorem test_edge_reset : after (step (at_ faultedState [.reset])) (fun t => (t.phase, t.errCode, t.rsp)) = some (.idle, .ok, none) := by
  decide +kernel

/-- With no more edges the block drains by itself (R171). -/
theorem test_edge_none : after (step (inPhase .drain)) (fun t => (t.phase, t.rsp)) = some (.idle, some 0#36) := by decide +kernel

/-! ## Witnesses: a state and operands that meet the hypotheses of each clause of each obligation, at the ends of their ranges -/

/-- Every kind of command. -/
def allCommands : List Instr :=
  [.nop, .clr, .rdsr 0, .wrlen 0 0#32, .rdf 0, .wrf 0 0#32, .count, .endPass, .rdhdr, .wrhdr, .build, .gencode, .encode, .decode,
    .nleaf 0, .nmrg 0 1, .happ 0, .hins 0, .hext, .hbld, .setroot 0, .rdn 0 0, .rdh 0, .rdc 0 0]

theorem witness_DecodeOfEncode : WellFormed (.nmrg 1023 1023) = true ∧ WellFormed (.rdc 0 15) = true ∧ WellFormed .nop = true := by decide

theorem witness_EveryLegalWord : decode 0x47FF000003FF#48 = .instr (.nmrg 1023 1023) ∧ decode 0x6BFF0000000F#48 = .instr (.rdc 1023 15) := by
  decide

theorem witness_OpcodeMap :
    (∃ r ∈ opcodeMap, 0x47FF000003FF#48 &&& r.2.2 = r.2.1) ∧ decode 0x47FF000003FF#48 = .instr (.nmrg 1023 1023) := by decide

theorem witness_WordsOfNoRow_reserved :
    isReservedOp (0x000000000000#48).toNat ∧ isReservedOp ((0x5FFFFFFFFFFF#48).toNat / 2 ^ 42) ∧
      isReservedOp ((0x6C0000000000#48).toNat / 2 ^ 42) ∧ isReservedOp ((0xFFFFFFFFFFFF#48).toNat / 2 ^ 42) := by
  unfold isReservedOp; decide

theorem witness_WordsOfNoRow :
    (matchesNoRow 0x040000000001#48 ∧ State.reset.cmdReady = true) ∧ (matchesNoRow 0xFFFFFFFFFFFF#48 ∧ faultedState.cmdReady = true) := by
  unfold matchesNoRow; decide +kernel

theorem witness_StepRuns :
    (at_ State.reset [.ports true (some 0#8) (some 0x040000000000#48)]).edges = .ports true (some 0#8) (some 0x040000000000#48) :: [] ∧
      State.reset.cmdReady = true ∧ decode 0x040000000000#48 = .instr .nop := by decide +kernel

theorem witness_PresentedCommandWaits :
    (inPhase .rdhdr).phase = .rdhdr ∧ (inPhase .decode).phase = .decode ∧ (inPhase .drain).phase = .drain ∧
      (at_ (inPhase .drain) [.ports false none (some 0#48)]).edges = .ports false none (some 0#48) :: [] := by decide +kernel

theorem witness_PresentedByteWaits :
    (at_ State.reset [.ports false (some 0#8) none]).edges = .ports false (some 0#8) none :: [] ∧ State.reset.dinReady = false ∧
      ({ single with phase := .decode } : State).dinReady = false := by decide +kernel

/-- A count pass in which FREQ[0] is one below, and FREQ[255] at, the limit. -/
def nearlyFull : State := { withFreqs [(0, 0xFFFFFFFE), (255, 0xFFFFFFFF)] with phase := .count }

theorem witness_ByteAtTheEndOfThePass :
    nearlyFull.phase = .count ∧ nearlyFull.freqAt (0#8).toNat ≠ 0xFFFFFFFF#32 ∧ nearlyFull.freqAt (255#8).toNat = 0xFFFFFFFF#32 := by
  decide +kernel

theorem witness_ResetEdge : (at_ faultedState [.reset]).edges = .reset :: [] := by decide +kernel

theorem witness_CommandFaults :
    ∃ t, State.reset.phase ≠ .err ∧ exec .hext State.reset = .next t ∧ t.phase = .err := ⟨_, by decide, rfl, rfl⟩

theorem witness_BeatFaults :
    (nearlyFull.phase ≠ .err ∧ (nearlyFull.din 255#8).phase = .err) ∧
      ((inPhase .encode).phase ≠ .err ∧ ((inPhase .encode).din 0#8).phase = .err) := by decide +kernel

/-- Each command but RDSR has an accepting phase in which it is not allowed. -/
theorem witness_WrongPhase :
    allCommands.all (fun i => match i with
      | .rdsr _ => true
      | .endPass => (inPhase .idle).cmdReady && !allowedIn i .idle
      | i => (inPhase .count).cmdReady && !allowedIn i .count) = true := by decide +kernel

theorem witness_WrongPhase_flags :
    (allowedIn .gencode State.reset.phase = true ∧ exec .gencode State.reset = .next (failed State.reset .gencode .seq)) ∧
      (allowedIn .encode State.reset.phase = true ∧ exec .encode State.reset = .next (failed State.reset .encode .seq)) ∧
      (allowedIn (.rdc 0 0) State.reset.phase = true ∧ exec (.rdc 0 0) State.reset = .next (failed State.reset (.rdc 0 0) .seq)) ∧
      (allowedIn .decode counted.phase = true ∧ exec .decode counted = .next (failed counted .decode .seq)) :=
  ⟨⟨rfl, rfl⟩, ⟨rfl, rfl⟩, ⟨rfl, rfl⟩, ⟨by decide +kernel, rfl⟩⟩

theorem witness_ErrPhase : faultedState.phase = .err ∧ (∀ i ∈ allCommands, decode (encode i) = .instr i) ∧
    decode 0#48 = .illegal .reservedOp := by decide +kernel

theorem witness_FirstFaultIsKept :
    ∃ t, faultedState.phase = .err ∧ (at_ faultedState [.ports true none (some 0#48)]).edges.head? ≠ some .reset ∧
      (∀ r b rest, (at_ faultedState [.ports true none (some 0#48)]).edges ≠ .ports r b (some 0x080000000000#48) :: rest) ∧
      step (at_ faultedState [.ports true none (some 0#48)]) = .next t :=
  ⟨_, rfl, by decide +kernel, by intro r b rest h; simp [at_] at h, rfl⟩

/-- A command that moves PHASE, one whose condition holds, one whose condition fails, an illegal word and a waiting one. -/
theorem witness_PhaseChanges :
    (∃ t, State.reset.cmdReady = true ∧ exec .count State.reset = .next t ∧ t.phase = .count) ∧
      (∃ t, coded.cmdReady = true ∧ exec .encode coded = .next t ∧ t.phase = .encode ∧ rowHolds coded .encode = true) ∧
      (∃ t, built.cmdReady = true ∧ exec .decode built = .next t ∧ t.phase = .decode ∧ rowHolds built .decode = true) ∧
      (∃ t, built.cmdReady = true ∧ exec .encode built = .next t ∧ t.phase = .err ∧ rowHolds built .encode = false) ∧
      (State.reset.cmdReady = true ∧ ∀ i, decode 0#48 ≠ .instr i) ∧ (inPhase .drain).cmdReady = false :=
  ⟨⟨_, rfl, rfl, rfl⟩, ⟨_, rfl, rfl, rfl, rfl⟩, ⟨_, rfl, rfl, rfl, by decide +kernel⟩, ⟨_, rfl, rfl, rfl, rfl⟩,
    ⟨rfl, by intro i h; have e : decode 0#48 = .illegal .reservedOp := by decide
             rw [e] at h; cases h⟩, rfl⟩

theorem witness_OneResponse :
    (∃ t, State.reset.cmdReady = true ∧ exec .rdhdr State.reset = .next t ∧ isDeferred State.reset .rdhdr = true ∧
      allowedIn .rdhdr State.reset.phase = true ∧ t.phase ≠ .err) ∧
      ∃ t, coded.cmdReady = true ∧ exec .endPass { coded with phase := .encode } = .next t ∧
        isDeferred { coded with phase := .encode } .endPass = true ∧ t.phase ≠ .err :=
  ⟨⟨_, rfl, rfl, rfl, rfl, by decide⟩, ⟨_, rfl, rfl, rfl, by decide⟩⟩

theorem witness_ReadsChangeNothing : (isRead (.rdsr 15) = true ∧ isRead (.rdc 255 8) = true) ∧ faultedState.cmdReady = true := by decide +kernel

theorem witness_Idle : State.reset.phase = .idle ∧ counted.phase = .idle ∧ built.phase = .idle ∧ coded.phase = .idle := by decide +kernel

theorem witness_IdleOrErr : (State.reset.phase = .idle ∨ State.reset.phase = .err) ∧ (faultedState.phase = .idle ∨ faultedState.phase = .err) := by
  decide +kernel

theorem witness_Rdsr : State.reset.cmdReady = true ∧ (0 < 16 ∧ 15 < 16) ∧ 16 ≤ 16 ∧ State.reset.nodeCnt < 2 ^ 10 ∧ State.reset.heapSize < 2 ^ 9 := by
  decide +kernel

theorem witness_Wrlen : State.reset.phase = .idle ∧ 2 ≤ 2 := by decide

theorem witness_Rdf : counted.phase = .idle ∧ (0 < 256 ∧ 255 < 256) ∧ 256 ≤ 256 := by decide +kernel

theorem witness_Rdn : (built.phase = .idle ∨ built.phase = .err) ∧ (0 < built.nodeCnt ∧ 4 < built.nodeCnt) ∧ (built.nodeCnt ≤ 5 ∨ 6 ≤ 6) := by
  decide +kernel

theorem witness_Rdh :
    ((sixNodes [0]).phase = .idle ∨ (sixNodes [0]).phase = .err) ∧ 0 < (sixNodes [0]).heapSize ∧ (sixNodes [0]).heapSize ≤ 1 := by decide +kernel

theorem witness_Rdc :
    (coded.phase = .idle ∨ coded.phase = .err) ∧ coded.codeValid = true ∧ (255 < 256 ∧ 1 ≤ 1 ∧ 8 < 9) ∧ (256 ≤ 256 ∨ 9 ≤ 9) ∧
      (built.phase = .idle ∧ built.codeValid = false) := by decide +kernel

theorem witness_CountBeat :
    nearlyFull.phase = .count ∧ nearlyFull.freqAt (0#8).toNat ≠ 0xFFFFFFFF#32 ∧ nearlyFull.freqAt (255#8).toNat = 0xFFFFFFFF#32 :=
  witness_ByteAtTheEndOfThePass

theorem witness_Wrhdr : counted.phase = .idle ∧ (7 < 8) ∧ (255 < 256 ∧ 3 < 4) := by decide +kernel

/-- With either value of P_HDR_ENDIAN. -/
theorem witness_HeaderRead (e : Endian) :
    ∃ t, ({ counted with hdrEndian := e } : State).phase = .idle ∧ ({ counted with hdrEndian := e } : State).oq = [] ∧
      exec .wrhdr { counted with hdrEndian := e } = .next t ∧
      ({ inPhase .rdhdr with hdrEndian := e } : State).phase = .rdhdr ∧ ({ inPhase .rdhdr with hdrEndian := e } : State).inCnt = 0#64 ∧
      ({ inPhase .rdhdr with hdrEndian := e } : State).hdrEndian = ({ counted with hdrEndian := e } : State).hdrEndian :=
  ⟨_, rfl, rfl, rfl, rfl, rfl, rfl⟩

/-- A full heap over one node. -/
def fullHeap : State := sixNodes (List.replicate 256 0)

theorem witness_Happ :
    ((sixNodes []).phase = .idle ∧ (sixNodes []).nodeCnt ≤ 511 ∧ 5 < (sixNodes []).nodeCnt ∧ (sixNodes []).heapSize < 256) ∧
      (sixNodes []).nodeCnt ≤ 6 ∧ (fullHeap.phase = .idle ∧ 0 < fullHeap.nodeCnt ∧ 256 ≤ fullHeap.heapSize) := by decide +kernel

theorem witness_Hins :
    ((sixNodes []).phase = .idle ∧ 5 < (sixNodes []).nodeCnt ∧ (sixNodes []).heapSize < 256) ∧ (sixNodes []).nodeCnt ≤ 6 ∧
      (fullHeap.phase = .idle ∧ 5 < fullHeap.nodeCnt ∧ 256 ≤ fullHeap.heapSize) := by decide +kernel

/-- The heap property holds of the first heap of 2.2.1. -/
theorem witness_IsHeap : IsHeap (sixNodes [3, 1, 5, 0, 4, 2]).key (sixNodes [3, 1, 5, 0, 4, 2]).heap := by
  have h : ∀ i, i < 6 → 0 < i → keyAt (sixNodes [3, 1, 5, 0, 4, 2]).key (sixNodes [3, 1, 5, 0, 4, 2]).heap ((i - 1) / 2) ≤
      keyAt (sixNodes [3, 1, 5, 0, 4, 2]).key (sixNodes [3, 1, 5, 0, 4, 2]).heap i := by decide +kernel
  exact fun i h0 hi => h i hi h0

theorem witness_Hext :
    ((sixNodes [0]).phase = .idle ∧ 0 < (sixNodes [0]).heapSize) ∧ (State.reset.phase = .idle ∧ State.reset.heapSize = 0) := by decide +kernel

theorem witness_Hbld : (sixNodes [0, 1]).phase = .idle ∧ (sixNodes [0]).heapSize ≤ 1 := by decide +kernel

theorem witness_HeapCommands_touch :
    ∃ t, (sixNodes [0]).phase = .idle ∧ exec .hext (sixNodes [0]) = .next t ∧ t.phase ≠ .err := ⟨_, rfl, rfl, by decide⟩

theorem witness_HeapCommands_function :
    ∃ t, (sixNodes [0]).phase = .idle ∧ ({ sixNodes [0] with root := 1#9 } : State).phase = .idle ∧
      ({ sixNodes [0] with root := 1#9 } : State).heap = (sixNodes [0]).heap ∧
      ({ sixNodes [0] with root := 1#9 } : State).nodeCnt = (sixNodes [0]).nodeCnt ∧
      (∀ n, ({ sixNodes [0] with root := 1#9 } : State).key n = (sixNodes [0]).key n) ∧ exec .hbld (sixNodes [0]) = .next t :=
  ⟨_, rfl, rfl, rfl, rfl, fun _ => rfl, rfl⟩

/-- A full arena: 511 leaves. -/
def fullArena : State := { counted with nodes := List.replicate 511 (lf 1 0x61 false) }

theorem witness_Nleaf :
    (leaves.phase = .idle ∧ 0x61 < 256 ∧ leaves.freqAt 0x61 ≠ 0#32 ∧ leaves.nodeCnt < 511) ∧ 256 ≤ 256 ∧ leaves.freqAt 255 = 0#32 ∧
      (fullArena.phase = .idle ∧ fullArena.freqAt 0x61 ≠ 0#32 ∧ 511 ≤ fullArena.nodeCnt) := by decide +kernel

theorem witness_Nmrg :
    (leaves.phase = .idle ∧ 0 < leaves.nodeCnt ∧ 2 < leaves.nodeCnt ∧ (0 : Nat) ≠ 2 ∧ (leaves.nodeAt 0).owned = false ∧
      (leaves.nodeAt 2).owned = false ∧ leaves.nodeCnt < 511) ∧ leaves.nodeCnt ≤ 3 ∧ (built.nodeAt 1).owned = true ∧
      (fullArena.phase = .idle ∧ 0 < fullArena.nodeCnt ∧ 510 < fullArena.nodeCnt ∧ (fullArena.nodeAt 0).owned = false ∧
        (fullArena.nodeAt 510).owned = false ∧ 511 ≤ fullArena.nodeCnt) := by decide +kernel

theorem witness_Setroot :
    (leaves.phase = .idle ∧ leaves.nodeCnt ≤ 511 ∧ 2 < leaves.nodeCnt ∧ (leaves.nodeAt 2).owned = false) ∧ leaves.nodeCnt ≤ 3 ∧
      (fullArena.phase = .idle ∧ fullArena.nodeCnt ≤ 511 ∧ 510 < fullArena.nodeCnt) ∧
      (built.phase = .idle ∧ 1 < built.nodeCnt ∧ (built.nodeAt 1).owned = true) := by decide +kernel

theorem witness_Build :
    (counted.phase = .idle ∧ symbols counted = [0x61, 0x62, 0x63]) ∧ (State.reset.phase = .idle ∧ symbols State.reset = []) := by
  decide +kernel

/-- The first merge of "aaaabbbcc" (1.1): entry 3 over 2 and 1, with entry 0 pending. -/
theorem witness_Build_pending :
    (3 ≤ 3 ∧ 3 < built.nodeCnt) ∧ (0 < 3 ∧ 0 ≠ (built.nodeAt 3).left.toNat ∧ 0 ≠ (built.nodeAt 3).right.toNat) ∧
      ∀ m', m' < 3 → ¬IsChild built.nodes m' 0#9 := by
  refine ⟨by decide +kernel, by decide +kernel, fun m' hm h => ?_⟩
  have e : ∀ m, m < 3 → (nodeOf built.nodes m).isLeaf ≠ false := by decide +kernel
  exact e m' hm h.2.1

/-- The script's clauses have the hypotheses of `witness_Build`. -/
theorem witness_BuildIsAFunction :
    counted.phase = .idle ∧ built.phase = .idle ∧ ∀ a, a < 256 → built.freqAt a = counted.freqAt a :=
  ⟨by decide +kernel, by decide +kernel, by intro a _; simp only [built, State.freqAt]⟩

theorem witness_ArenaEntries : ∃ t, exec (.nmrg 2 1) leaves = .next t ∧ 2 < leaves.nodeCnt := ⟨_, rfl, by decide +kernel⟩

/-- The children of the two-leaf tree. -/
theorem pair_child {m : Nat} {c : Idx} (h : IsChild pair.nodes m c) : m = 2 ∧ (c = 0#9 ∨ c = 1#9) := by
  obtain ⟨hm, hl, hc⟩ := h
  have hm' : m < 3 := hm
  have e : ∀ m, m < 3 → (nodeOf pair.nodes m).isLeaf = false →
      m = 2 ∧ (nodeOf pair.nodes m).left = 0#9 ∧ (nodeOf pair.nodes m).right = 1#9 := by decide +kernel
  obtain ⟨h1, h2, h3⟩ := e m hm' hl
  exact ⟨h1, by rw [h2, h3] at hc; exact hc.imp Eq.symm Eq.symm⟩

theorem pair_arena : ArenaOk pair.nodes where
  size := by decide
  twoOrNone := by
    have e : ∀ m, m < 3 → ((nodeOf pair.nodes m).left = NIL ↔ (nodeOf pair.nodes m).right = NIL) := by decide +kernel
    exact e
  below := by
    intro m c h
    obtain ⟨rfl, rfl | rfl⟩ := pair_child h <;> decide
  apart := by
    have e : ∀ m, m < 3 → (nodeOf pair.nodes m).isLeaf = false → (nodeOf pair.nodes m).left ≠ (nodeOf pair.nodes m).right := by
      decide +kernel
    exact e
  childOwned := by
    intro m c h
    obtain ⟨rfl, rfl | rfl⟩ := pair_child h <;> decide +kernel
  oneParent := by
    intro m m' c h h'
    rw [(pair_child h).1, (pair_child h').1]
  ownedIsChild := by
    intro n hn ho
    have e : ∀ n, n < 3 → (nodeOf pair.nodes n).owned = true → n = 0 ∨ n = 1 := by decide +kernel
    rcases e n hn ho with rfl | rfl
    · exact ⟨2, by decide, by decide +kernel, .inl (by decide +kernel)⟩
    · exact ⟨2, by decide, by decide +kernel, .inr (by decide +kernel)⟩

theorem pair_forest : ForestOk pair where
  arena := pair_arena
  heapSize := by decide
  root := .inr (by decide +kernel)
  heapAllocated := by intro n h; cases h

theorem witness_PathLength :
    ArenaOk pair.nodes ∧ (2#9).toNat < pair.nodes.length ∧ descend pair.nodes 2#9 [true] = some 1#9 :=
  ⟨pair_arena, by decide, by decide +kernel⟩

theorem witness_Gencode :
    pair.phase = .idle ∧ pair.treeValid = true ∧ ForestOk pair ∧ pair.root ≠ NIL ∧ pair.rootIsLeaf = false :=
  ⟨by decide +kernel, by decide +kernel, pair_forest, by decide +kernel, by decide +kernel⟩

/-- A declared tree of one leaf, and the empty one. -/
theorem witness_Gencode_corners :
    (({ pair with root := NIL } : State).phase = .idle ∧ ({ pair with root := NIL } : State).treeValid = true ∧
      ForestOk { pair with root := NIL }) ∧
      (single.phase = .idle ∧ single.treeValid = true ∧ single.root ≠ NIL ∧ single.rootIsLeaf = true) ∧
      (State.reset.phase = .idle ∧ State.reset.treeValid = false) :=
  ⟨⟨by decide +kernel, by decide +kernel, ⟨pair_arena, by decide, .inl rfl, by intro n h; cases h⟩⟩, by decide +kernel, by decide⟩

theorem single_forest : ForestOk single where
  arena :=
    { size := by decide
      twoOrNone := by
        have e : ∀ m, m < 1 → ((nodeOf single.nodes m).left = NIL ↔ (nodeOf single.nodes m).right = NIL) := by decide +kernel
        exact e
      below := by intro m c h; exact absurd h.2.1 (single_leaf h.1)
      apart := by intro m hm hl; exact absurd hl (single_leaf hm)
      childOwned := by intro m c h; exact absurd h.2.1 (single_leaf h.1)
      oneParent := by intro m m' c h; exact absurd h.2.1 (single_leaf h.1)
      ownedIsChild := by
        intro n hn ho
        have e : ∀ n, n < 1 → (nodeOf single.nodes n).owned ≠ true := by decide +kernel
        exact absurd ho (e n hn) }
  heapSize := by decide
  root := .inr (by decide +kernel)
  heapAllocated := by intro n h; cases h
where
  single_leaf {m : Nat} (hm : m < single.nodes.length) : (nodeOf single.nodes m).isLeaf ≠ false := by
    have e : ∀ m, m < 1 → (nodeOf single.nodes m).isLeaf ≠ false := by decide +kernel
    exact e m hm

/-- The forest does not depend on the symbols. -/
theorem twice_forest : ForestOk twice := by
  have hl : twice.nodes.length = pair.nodes.length := rfl
  have e : ∀ m, m < 3 → (nodeOf twice.nodes m).left = (nodeOf pair.nodes m).left ∧
      (nodeOf twice.nodes m).right = (nodeOf pair.nodes m).right ∧ (nodeOf twice.nodes m).owned = (nodeOf pair.nodes m).owned := by
    decide +kernel
  have c : ∀ m x, IsChild twice.nodes m x ↔ IsChild pair.nodes m x := by
    intro m x
    unfold IsChild Node.isLeaf
    rw [hl]
    by_cases hm : m < pair.nodes.length
    · rw [(e m hm).1, (e m hm).2.1]
    · simp [hm]
  refine ⟨⟨by decide, fun m hm => ?_, fun m x h => pair_arena.below m x ((c m x).1 h), fun m hm hi => ?_, fun m x h => ?_,
    fun m m' x h h' => pair_arena.oneParent m m' x ((c m x).1 h) ((c m' x).1 h'), fun n hn ho => ?_⟩, by decide,
    .inr (by decide +kernel), fun n h => by cases h⟩
  · rw [(e m hm).1, (e m hm).2.1]; exact pair_arena.twoOrNone m hm
  · rw [(e m hm).1, (e m hm).2.1]
    exact pair_arena.apart m hm (by unfold Node.isLeaf at hi ⊢; rwa [(e m hm).1] at hi)
  · obtain ⟨-, rfl | rfl⟩ := pair_child ((c m x).1 h) <;> decide +kernel
  · obtain ⟨m, hm⟩ := pair_arena.ownedIsChild n hn (by rw [← (e n hn).2.2]; exact ho)
    exact ⟨m, (c _ _).2 hm⟩

/-- The left one of two leaves of one symbol: its path is not the symbol's code. -/
theorem witness_Gencode_twice :
    ∃ t, (twice.phase = .idle ∧ twice.treeValid = true ∧ ForestOk twice ∧ twice.root ≠ NIL ∧ twice.rootIsLeaf = false) ∧
      exec .gencode twice = .next t ∧ descend twice.nodes twice.root [false] = some 0#9 ∧ (twice.nodeAt 0).isLeaf = true ∧
      [false] ≠ t.codeOf (twice.nodeAt 0).sym :=
  ⟨_, ⟨by decide +kernel, by decide +kernel, twice_forest, by decide +kernel, by decide +kernel⟩, rfl, by decide +kernel⟩

theorem witness_PrefixFree :
    ∃ t, pair.phase = .idle ∧ pair.treeValid = true ∧ ForestOk pair ∧ pair.root ≠ NIL ∧ pair.rootIsLeaf = false ∧
      exec .gencode pair = .next t ∧ 0x61#8 ≠ 0x62#8 ∧ t.codeLenAt (0x61#8).toNat ≠ 0#8 ∧ t.codeLenAt (0x62#8).toNat ≠ 0#8 :=
  ⟨_, by decide +kernel, by decide +kernel, pair_forest, by decide +kernel, by decide +kernel, rfl, by decide, by decide +kernel,
    by decide +kernel⟩

theorem witness_EncodeOpens :
    (coded.phase = .idle ∧ coded.codeValid = true) ∧ (built.phase = .idle ∧ built.codeValid = false) ∧
      ∃ t, exec .encode coded = .next t := ⟨by decide +kernel, by decide +kernel, _, rfl⟩

theorem witness_EncodeBeat :
    (inPhase .encode).phase = .encode ∧ coded.codeLenAt (0x61#8).toNat ≠ 0#8 ∧ coded.codeLenAt (0x64#8).toNat = 0#8 := by decide +kernel

theorem witness_EndClosesThePass :
    (inPhase .count).phase = .count ∧ ((inPhase .encode).phase = .encode ∧ (inPhase .encode).accCnt = 0#3) ∧
      ({ inPhase .encode with accCnt := 7#3 } : State).accCnt ≠ 0#3 := by decide +kernel

theorem witness_PackedSize : ∀ b ∈ [0x61#8, 0x62#8, 0x63#8], coded.codeLenAt b.toNat ≠ 0#8 := by decide +kernel

theorem witness_PackedSize_single : ∀ b ∈ [0x61#8, 0x61#8], coded.codeLenAt b.toNat ≠ 0#8 ∧ coded.codeOf b = [false] := by decide +kernel

theorem witness_DecodeOpens :
    (State.reset.phase = .idle ∧ State.reset.origLen = 0#64) ∧
      (built.phase = .idle ∧ built.origLen ≠ 0#64 ∧ built.treeValid = true ∧ built.root ≠ NIL) ∧
      (counted.phase = .idle ∧ counted.origLen ≠ 0#64 ∧ counted.treeValid = false) ∧
      (({ counted with treeValid := true } : State).treeValid = true ∧ ({ counted with treeValid := true } : State).root = NIL) := by
  decide +kernel

theorem witness_DecodeSteps :
    (({ pair with phase := .decode, cur := 2#9 } : State).phase = .decode ∧
        ({ pair with phase := .decode, cur := 2#9 } : State).rootIsLeaf = false) ∧
      (({ single with phase := .decode } : State).phase = .decode ∧ ({ single with phase := .decode } : State).rootIsLeaf = true) ∧
      ((inPhase .drain).phase = .drain ∧ (inPhase .drain).oq = []) ∧
      (¬(State.reset.phase = .decode ∧ State.reset.rootIsLeaf = true) ∧ ¬(State.reset.phase = .drain ∧ State.reset.oq = [])) := by
  decide +kernel

theorem witness_Delivery :
    (at_ { State.reset with oq := [1#8, 2#8] } [.ports true none none]).oq = 1#8 :: [2#8] ∧
      (at_ { State.reset with oq := [1#8, 2#8] } [.ports true none none]).edges = .ports true none none :: [] := by decide +kernel

theorem witness_UnpackingUndoesPacking :
    ∃ t, pair.phase = .idle ∧ pair.treeValid = true ∧ ForestOk pair ∧ pair.root ≠ NIL ∧ pair.rootIsLeaf = false ∧
      exec .gencode pair = .next t ∧ (∀ b ∈ [0x61#8, 0x62#8], t.codeLenAt b.toNat ≠ 0#8) ∧ [0x61#8, 0x62#8].length < 2 ^ 64 :=
  ⟨_, by decide +kernel, by decide +kernel, pair_forest, by decide +kernel, by decide +kernel, rfl, by decide +kernel, by decide⟩

/-- Nine bytes of the single symbol (1.6), and the ends of the range of ORIGLEN. -/
theorem witness_UnpackingUndoesPacking_single :
    (∃ t, single.phase = .idle ∧ single.treeValid = true ∧ single.root ≠ NIL ∧ single.rootIsLeaf = true ∧
      exec .gencode single = .next t ∧ (∀ b ∈ List.replicate 9 0x7A#8, t.codeLenAt b.toNat ≠ 0#8) ∧
      (List.replicate 9 0x7A#8).length < 2 ^ 64 ∧ List.replicate 9 0x7A#8 ≠ []) ∧
      (single.rootIsLeaf = true ∧ (0 < 1 ∧ 1 < 2 ^ 64) ∧ (0 < 2 ^ 64 - 1 ∧ 2 ^ 64 - 1 < 2 ^ 64)) :=
  ⟨⟨_, by decide +kernel, by decide +kernel, by decide +kernel, by decide +kernel, rfl, by decide +kernel, by decide, by decide⟩,
    by decide +kernel⟩

theorem witness_StepKeepsTheForest : ∃ t, ForestOk pair ∧ step pair = .next t := ⟨_, pair_forest, rfl⟩

theorem counting_sequencer : SequencerOk (inPhase .count) where
  flags := ⟨by decide +kernel, fun h => absurd rfl h⟩
  queue := fun _ => rfl
  err := by unfold ErrOk; decide +kernel
  header := by intro h; cases h
  acc := by unfold AccOk; decide +kernel

theorem witness_StepKeepsTheSequencer : ∃ t, SequencerOk (inPhase .count) ∧ step (inPhase .count) = .next t := ⟨_, counting_sequencer, rfl⟩

theorem counting_count : CountOk { counted with phase := .count } := fun _ => by decide +kernel

theorem witness_StepKeepsTheCount :
    ∃ t, CountOk { counted with phase := .count } ∧ step { counted with phase := .count } = .next t := ⟨_, counting_count, rfl⟩

/-- A decode pass of "ab", standing at the root. -/
def decoding : State := { pair with phase := .decode, cur := 2#9 }

theorem decoding_forest : ForestOk decoding where
  arena := pair_arena
  heapSize := by decide
  root := .inr (by decide +kernel)
  heapAllocated := by intro n h; cases h

theorem witness_StepKeepsTheWalk : ∃ t, ForestOk decoding ∧ DecodeOk decoding ∧ step decoding = .next t :=
  ⟨_, decoding_forest, fun _ => by decide +kernel, rfl⟩

theorem witness_UnreadCodeTable :
    ∃ t, State.reset.codeValid = false ∧ State.reset.phase ≠ .encode ∧ step State.reset = .next t := ⟨_, rfl, by decide, rfl⟩

end Sys2Proof.Tests
end

section
/-! PROOFS. The scope statements: `step` and `exec` (00_scope.md R15), the size of the arena against the width of a code (R8), and the
code table that nothing reads while CODE_VALID = 0 (R16). -/

namespace Sys2Proof.Machine

/-! ## The command of an edge -/

theorem cmdStep_of_instr {w : CmdWord} {i : Instr} (h : decode w = .instr i) (s : State) : cmdStep w s = exec i s := by
  rw [cmdStep, h]

/-- Settles O6: the edge's command step is `cmdStep` of its word, which is `exec` of the decoded command. -/
theorem stepRunsTheDecodedCommand : Obligations.StepRunsTheDecodedCommand := by
  unfold Obligations.StepRunsTheDecodedCommand
  intro s r b w i rest hedges hready hdecode
  rw [step_of_command hedges hready, cmdStep_of_instr hdecode]

/-! ## The length of a path

A path of `k` edges takes one of the two children of each of its `k` internal nodes. These `2 * k` children are distinct (10_state.md
R27), and their indices all lie below that of the node the path starts from. -/

/-- The children of the internal nodes of index at most `k`. -/
def childrenUpTo (nodes : List Node) (k : Nat) : Set Idx := {c | ∃ m ≤ k, IsChild nodes m c}

section Paths

variable {nodes : List Node}

theorem childrenUpTo_mono {j k : Nat} (h : j ≤ k) : childrenUpTo nodes j ⊆ childrenUpTo nodes k :=
  fun _ ⟨m, hm, hc⟩ => ⟨m, hm.trans h, hc⟩

/-- A child's index is below its parent's (R27 (a)), so at most `k` entries have a parent of index at most `k`. -/
theorem ncard_childrenUpTo_le (h : ArenaOk nodes) (k : Nat) : (childrenUpTo nodes k).ncard ≤ k := by
  have below : ∀ c ∈ childrenUpTo nodes k, c.toNat ∈ Set.Iio k := fun c ⟨m, hm, hc⟩ => (h.below m c hc).trans_le hm
  calc (childrenUpTo nodes k).ncard ≤ (Set.Iio k).ncard :=
        Set.ncard_le_ncard_of_injOn BitVec.toNat below (fun _ _ _ _ e => BitVec.eq_of_toNat_eq e) (Set.finite_Iio k)
    _ = k := by rw [← Finset.coe_Iio, Set.ncard_coe_finset, Nat.card_Iio]

/-- A child of `n` has no parent below it, and one parent only: neither child of `n` is a child of an entry below `n`. -/
theorem isChild_notMem_childrenUpTo (h : ArenaOk nodes) {n : Nat} {c : Idx} (hc : IsChild nodes n c) {k : Nat} (hk : k < n) :
    c ∉ childrenUpTo nodes k := by
  rintro ⟨m, hm, hc'⟩
  have := h.oneParent m n c hc' hc
  omega

/-- From an internal node `n`, both children come on top of those found from the child `c` on. -/
theorem ncard_childrenUpTo_child (h : ArenaOk nodes) {n : Nat} {c : Idx} (hc : IsChild nodes n c) :
    (childrenUpTo nodes c.toNat).ncard + 2 ≤ (childrenUpTo nodes n).ncard := by
  obtain ⟨hn, hinternal, -⟩ := id hc
  have hleft : IsChild nodes n (nodeOf nodes n).left := ⟨hn, hinternal, .inl rfl⟩
  have hright : IsChild nodes n (nodeOf nodes n).right := ⟨hn, hinternal, .inr rfl⟩
  have hlt := h.below n c hc
  have fresh : Disjoint (childrenUpTo nodes c.toNat) {(nodeOf nodes n).left, (nodeOf nodes n).right} := by
    simp only [Set.disjoint_insert_right, Set.disjoint_singleton_right]
    exact ⟨isChild_notMem_childrenUpTo h hleft hlt, isChild_notMem_childrenUpTo h hright hlt⟩
  rw [← Set.ncard_pair (h.apart n hn hinternal), ← Set.ncard_union_eq fresh (Set.toFinite _) (Set.toFinite _)]
  refine Set.ncard_le_ncard (Set.union_subset (childrenUpTo_mono hlt.le) ?_) (Set.toFinite _)
  rintro d (rfl | rfl)
  · exact ⟨n, le_rfl, hleft⟩
  · exact ⟨n, le_rfl, hright⟩

/-- A path of `k` edges from `n` meets `2 * k` children. -/
theorem two_mul_length_le_of_descend (h : ArenaOk nodes) {n m : Idx} {p : List Bool} (hn : n.toNat < nodes.length)
    (hp : descend nodes n p = some m) : 2 * p.length ≤ (childrenUpTo nodes n.toNat).ncard := by
  induction p generalizing n with
  | nil => exact Nat.zero_le _
  | cons x p ih =>
    rw [descend_cons] at hp
    split at hp
    · cases hp
    · rename_i hinternal
      have hchild := isChild_child x hn (by simpa using hinternal)
      have hrest := ih ((h.below _ _ hchild).trans hn) hp
      have hboth := ncard_childrenUpTo_child h hchild
      rw [List.length_cons]
      omega

end Paths

/-- Settles O45: the `2 * p.length` children met on the path have distinct indices below the start's, which is at most 510. -/
theorem everyPathIsAtMost255Long : Obligations.EveryPathIsAtMost255Long := by
  unfold Obligations.EveryPathIsAtMost255Long
  intro nodes n p m h hn hp
  have hmet := two_mul_length_le_of_descend h hn hp
  have hroom := ncard_childrenUpTo_le h n.toNat
  have hsize := h.size
  omega

/-! ## The unread code table -/

/-- `s` with another code table. -/
def State.withCodes (s : State) (c : CodeTable) : State := { s with codes := c }

/-- The outcome with another code table in its next state, unless CODE_VALID = 1 there. -/
def replaceUnread (c : CodeTable) : Out → Out
  | .next t => .next (if t.codeValid then t else t.withCodes c)
  | .fault r => .fault r
  | .refused r => .refused r

/-- Nothing reads the code table: CODE_VALID = 0 stops RDC and ENCODE (R16, R161, R232), and there is no encode beat. -/
def CodesUnread (s : State) : Prop := s.codeValid = false ∧ s.phase ≠ .encode

theorem replaceUnread_next {t : State} (h : t.codeValid = false) (c : CodeTable) :
    replaceUnread c (.next t) = .next (t.withCodes c) := by
  rw [replaceUnread, h]; rfl

/-- Two runs that end in states that differ in the code table alone, CODE_VALID = 0. -/
theorem next_eq_replaceUnread {t t' : State} {c : CodeTable} (h : t.codeValid = false) (e : t' = t.withCodes c) :
    .next t' = replaceUnread c (.next t) := by
  rw [replaceUnread_next h, e]

/-! ### Faults and checks -/

theorem cmdReady_withCodes (s : State) (c : CodeTable) : (s.withCodes c).cmdReady = s.cmdReady := rfl

theorem recordFault_withCodes (s : State) (c : CodeTable) (code : ErrCode) (info : Data) :
    (s.withCodes c).recordFault code info = (s.recordFault code info).withCodes c := by
  by_cases h : s.phase = .err
  · rw [s.recordFault_of_err _ _ h, (s.withCodes c).recordFault_of_err _ _ h]
  · rw [s.recordFault_of_ne_err _ _ h, (s.withCodes c).recordFault_of_ne_err _ _ h]; rfl

theorem cmdFault_withCodes (s : State) (c : CodeTable) (w : CmdWord) (code : ErrCode) :
    (s.withCodes c).cmdFault w code = (s.cmdFault w code).withCodes c := by
  rw [State.cmdFault, recordFault_withCodes]; rfl

section Checks

variable {s : State} {c : CodeTable} {i : Instr} {k k' : Out}

/-- A check that both states pass or fail alike. -/
theorem require_withCodes {p : Prop} [Decidable p] {code : ErrCode} (h : s.codeValid = false) (hk : p → k' = replaceUnread c k) :
    require p code i (s.withCodes c) k' = replaceUnread c (require p code i s k) := by
  by_cases hp : p
  · rw [require_pos hp, require_pos hp, hk hp]
  · rw [require, require, if_neg hp, if_neg hp, replaceUnread_next (by simpa using h), cmdFault_withCodes]

/-- The phase test, which looks at PHASE alone. -/
theorem inPhases_withCodes {allowed : Phase → Bool} (h : s.codeValid = false)
    (hk : allowed s.phase = true → k' = replaceUnread c k) :
    inPhases allowed i (s.withCodes c) k' = replaceUnread c (inPhases allowed i s k) := by
  cases hr : s.cmdReady with
  | false => rw [inPhases_wait hr, inPhases_wait (s := s.withCodes c) hr, replaceUnread_next h]
  | true =>
    rw [inPhases, inPhases, if_pos hr, if_pos (show (s.withCodes c).cmdReady = true from hr)]
    exact require_withCodes h hk

end Checks

/-! ### Commands -/

theorem headerWritten_withCodes (s : State) (c : CodeTable) (e : Endian) :
    (s.withCodes c).headerWritten e = (s.headerWritten e).withCodes c := by
  rw [headerWritten_eq, headerWritten_eq]; rfl

theorem codeTable_withCodes (s : State) (c : CodeTable) : (s.withCodes c).codeTable = s.codeTable := rfl

/-- GENCODE's own table takes the old one's place (42_codegen.md R151). -/
theorem storeCodes_withCodes (s : State) (c : CodeTable) (t : Option CodeTable) :
    (s.withCodes c).storeCodes t = replaceUnread c (s.storeCodes t) := by
  cases t <;> rfl

theorem exec_withCodes {s : State} (h : CodesUnread s) (c : CodeTable) (i : Instr) :
    exec i (s.withCodes c) = replaceUnread c (exec i s) := by
  obtain ⟨hv, hp⟩ := h
  cases i with
  | nop => exact inPhases_withCodes hv fun _ => next_eq_replaceUnread hv rfl
  | clr => exact inPhases_withCodes hv fun _ => next_eq_replaceUnread rfl rfl
  | rdsr a => exact inPhases_withCodes hv fun _ => require_withCodes hv fun _ => next_eq_replaceUnread hv rfl
  | wrlen a d => exact inPhases_withCodes hv fun _ => require_withCodes hv fun _ => next_eq_replaceUnread hv rfl
  | rdf a => exact inPhases_withCodes hv fun _ => require_withCodes hv fun _ => next_eq_replaceUnread hv rfl
  | wrf a d => exact inPhases_withCodes hv fun _ => require_withCodes hv fun _ => next_eq_replaceUnread rfl rfl
  | count => exact inPhases_withCodes hv fun _ => next_eq_replaceUnread rfl rfl
  | endPass =>
    refine inPhases_withCodes hv fun ha => ?_
    have hcount : s.phase = .count := ((countOrEncode_iff _).1 ha).resolve_right hp
    rw [if_pos hcount, if_pos (show (s.withCodes c).phase = .count from hcount)]
    exact next_eq_replaceUnread hv rfl
  | rdhdr => exact inPhases_withCodes hv fun _ => next_eq_replaceUnread rfl rfl
  | wrhdr =>
    exact inPhases_withCodes hv fun _ =>
      next_eq_replaceUnread (by rw [headerWritten_eq]; exact hv) (headerWritten_withCodes s c _)
  | build => exact inPhases_withCodes hv fun _ => next_eq_replaceUnread rfl rfl
  | gencode =>
    refine inPhases_withCodes hv fun _ => require_withCodes hv fun _ => ?_
    rw [codeTable_withCodes, storeCodes_withCodes]
  | encode => exact inPhases_withCodes hv fun _ => require_withCodes hv fun h => absurd (hv.symm.trans h) (by decide)
  | decode =>
    refine inPhases_withCodes hv fun _ => ?_
    by_cases h0 : s.origLen = 0#64
    · rw [if_pos h0, if_pos (show (s.withCodes c).origLen = 0#64 from h0)]
      exact next_eq_replaceUnread hv rfl
    · rw [if_neg h0, if_neg (show (s.withCodes c).origLen ≠ 0#64 from h0)]
      exact require_withCodes hv fun _ => require_withCodes hv fun _ => next_eq_replaceUnread hv rfl
  | nleaf a =>
    exact inPhases_withCodes hv fun _ => require_withCodes hv fun _ => require_withCodes hv fun _ => require_withCodes hv fun _ =>
      next_eq_replaceUnread rfl rfl
  | nmrg a b =>
    exact inPhases_withCodes hv fun _ => require_withCodes hv fun _ => require_withCodes hv fun _ => require_withCodes hv fun _ =>
      require_withCodes hv fun _ => next_eq_replaceUnread rfl rfl
  | happ a =>
    exact inPhases_withCodes hv fun _ => require_withCodes hv fun _ => require_withCodes hv fun _ => next_eq_replaceUnread hv rfl
  | hins a =>
    exact inPhases_withCodes hv fun _ => require_withCodes hv fun _ => require_withCodes hv fun _ => next_eq_replaceUnread hv rfl
  | hext => exact inPhases_withCodes hv fun _ => require_withCodes hv fun _ => next_eq_replaceUnread hv rfl
  | hbld => exact inPhases_withCodes hv fun _ => next_eq_replaceUnread hv rfl
  | setroot a =>
    exact inPhases_withCodes hv fun _ => require_withCodes hv fun _ => require_withCodes hv fun _ => next_eq_replaceUnread rfl rfl
  | rdn a sel =>
    exact inPhases_withCodes hv fun _ => require_withCodes hv fun _ => require_withCodes hv fun _ => next_eq_replaceUnread hv rfl
  | rdh a => exact inPhases_withCodes hv fun _ => require_withCodes hv fun _ => next_eq_replaceUnread hv rfl
  | rdc a sel => exact inPhases_withCodes hv fun _ => require_withCodes hv fun h => absurd (hv.symm.trans h) (by decide)

theorem cmdStep_of_illegal {w : CmdWord} {r : Illegal} (h : decode w = .illegal r) (s : State) :
    cmdStep w s = if s.cmdReady then .next (s.cmdFault w .illCmd) else .next s := by
  rw [cmdStep, h]

theorem cmdStep_withCodes {s : State} (h : CodesUnread s) (c : CodeTable) (w : CmdWord) :
    cmdStep w (s.withCodes c) = replaceUnread c (cmdStep w s) := by
  cases hd : decode w with
  | instr i => rw [cmdStep_of_instr hd, cmdStep_of_instr hd, exec_withCodes h]
  | illegal r =>
    rw [cmdStep_of_illegal hd, cmdStep_of_illegal hd, cmdFault_withCodes, cmdReady_withCodes]
    split
    · exact next_eq_replaceUnread (by simpa using h.1) rfl
    · exact next_eq_replaceUnread h.1 rfl

/-! ### Din, Dout and the internal steps -/

theorem dout_withCodes (s : State) (c : CodeTable) : (s.withCodes c).dout = s.dout.withCodes c := by
  cases hq : s.oq with
  | nil => rw [dout_of_empty hq, dout_of_empty (s := s.withCodes c) hq]
  | cons b q => rw [dout_of_cons hq, dout_of_cons (s := s.withCodes c) hq]; rfl

theorem drainIfDone_withCodes (s : State) (c : CodeTable) : (s.withCodes c).drainIfDone = s.drainIfDone.withCodes c := by
  rw [drainIfDone_eq, drainIfDone_eq]; rfl

theorem countBeat_withCodes (s : State) (c : CodeTable) (b : Byte) : (s.withCodes c).countBeat b = (s.countBeat b).withCodes c := by
  by_cases h : s.freqAt b.toNat = 0xFFFFFFFF#32
  · exact (if_pos h).trans ((recordFault_withCodes s c _ _).trans (congrArg (State.withCodes · c) (if_pos h).symm))
  · rw [countBeat_counts h, countBeat_counts (s := s.withCodes c) h]; rfl

theorem loadHdrByte_withCodes (e : Endian) (s : State) (c : CodeTable) (n : Nat) (b : Byte) :
    (s.withCodes c).loadHdrByte e n b = (s.loadHdrByte e n b).withCodes c := by
  unfold State.loadHdrByte; split <;> rfl

theorem headerBeat_withCodes (e : Endian) (s : State) (c : CodeTable) (b : Byte) :
    (s.withCodes c).headerBeat e b = (s.headerBeat e b).withCodes c := by
  by_cases h : s.inCnt + 1#64 = 1032#64
  · rw [headerBeat_last e h, headerBeat_last e (s := s.withCodes c) h, loadHdrByte_withCodes]; rfl
  · rw [headerBeat_more e h, headerBeat_more e (s := s.withCodes c) h, loadHdrByte_withCodes]; rfl

theorem decodeBit_withCodes (s : State) (c : CodeTable) (x : Bool) : (s.withCodes c).decodeBit x = (s.decodeBit x).withCodes c := by
  by_cases h : s.emitCnt < s.origLen
  · rw [decodeBit_moves h, decodeBit_moves (s := s.withCodes c) h, apply_ite (State.withCodes · c)]; rfl
  · rw [decodeBit_discards h, decodeBit_discards (s := s.withCodes c) h]

theorem decodeBeat_withCodes (s : State) (c : CodeTable) (b : Byte) :
    (s.withCodes c).decodeBeat b = (s.decodeBeat b).withCodes c := by
  rw [State.decodeBeat, State.decodeBeat, ← drainIfDone_withCodes,
    ← List.foldl_hom (State.withCodes · c) fun s x => decodeBit_withCodes s c x]
  rfl

/-- The encode beat alone reads the code table (43_bitpack.md R162). -/
theorem din_withCodes {s : State} (hp : s.phase ≠ .encode) (c : CodeTable) (b : Byte) :
    (s.withCodes c).din b = (s.din b).withCodes c := by
  have hp' : (s.withCodes c).phase = s.phase := rfl
  cases h : s.phase with
  | count => rw [din_of_count h, din_of_count (hp'.trans h), countBeat_withCodes]
  | encode => exact absurd h hp
  | rdhdr => rw [din_of_rdhdr h, din_of_rdhdr (hp'.trans h), headerBeat_withCodes]; rfl
  | decode =>
    cases hl : s.rootIsLeaf with
    | false => rw [din_of_decode h hl, din_of_decode (hp'.trans h) hl, decodeBeat_withCodes]
    | true =>
      have hwait : s.dinReady = false := by simp [State.dinReady, h, hl]
      rw [din_of_not_ready hwait, din_of_not_ready (s := s.withCodes c) hwait]
  | idle | drain | err =>
    have hwait : s.dinReady = false := by simp [State.dinReady, h]
    rw [din_of_not_ready hwait, din_of_not_ready (s := s.withCodes c) hwait]

theorem internal_codeValid (s : State) : s.internal.codeValid = s.codeValid := by
  unfold State.internal
  split
  · simp [State.emit1]
  · split <;> rfl

theorem internal_withCodes (s : State) (c : CodeTable) : (s.withCodes c).internal = s.internal.withCodes c := by
  by_cases he : s.phase = .decode ∧ s.rootIsLeaf = true
  · rw [internal_of_emit he.1 he.2, internal_of_emit (s := s.withCodes c) he.1 he.2, State.emit1, State.emit1,
      ← drainIfDone_withCodes]
    rfl
  by_cases hd : s.phase = .drain ∧ s.oq = []
  · rw [internal_of_drain hd.1 hd.2, internal_of_drain (s := s.withCodes c) hd.1 hd.2]; rfl
  · rw [internal_of_none he hd, internal_of_none (s := s.withCodes c) he hd]

/-! ### The steps of an edge before `Cmd` keep the table unread -/

theorem codesUnread_doutAt {s : State} (h : CodesUnread s) (r : Bool) : CodesUnread (s.doutAt r) := by
  cases r with
  | false => exact h
  | true => exact ⟨s.dout_codeValid.trans h.1, s.dout_phase ▸ h.2⟩

theorem codesUnread_countBeat {s : State} (h : CodesUnread s) (b : Byte) : CodesUnread (s.countBeat b) := by
  unfold State.countBeat
  split
  · exact ⟨by simpa using h.1, by simp⟩
  · exact h

theorem codesUnread_headerBeat (e : Endian) {s : State} (h : CodesUnread s) (b : Byte) : CodesUnread (s.headerBeat e b) := by
  by_cases hlast : s.inCnt + 1#64 = 1032#64
  · rw [headerBeat_last e hlast, loadHdrByte_frame]; exact ⟨h.1, (by decide : Phase.idle ≠ .encode)⟩
  · rw [headerBeat_more e hlast, loadHdrByte_frame]; exact h

theorem codesUnread_decodeBeat {s : State} (h : CodesUnread s) (b : Byte) : CodesUnread (s.decodeBeat b) := by
  rw [State.decodeBeat, decodeBits_frame, drainIfDone_eq]
  refine ⟨h.1, ?_⟩
  dsimp only
  split
  · decide
  · exact h.2

theorem codesUnread_din {s : State} (h : CodesUnread s) (b : Byte) : CodesUnread (s.din b) := by
  unfold State.din
  split
  · exact codesUnread_countBeat h b
  · exact absurd ‹_› h.2
  · exact codesUnread_headerBeat _ h b
  · split
    · exact h
    · exact codesUnread_decodeBeat h b
  all_goals exact h

theorem codesUnread_dinAt {s : State} (h : CodesUnread s) (b : Option Byte) : CodesUnread (s.dinAt b) := by
  cases b with
  | none => exact h
  | some b => exact codesUnread_din h b

/-! ### One edge -/

theorem doutAt_withCodes (s : State) (c : CodeTable) (r : Bool) : (s.withCodes c).doutAt r = (s.doutAt r).withCodes c := by
  cases r with
  | false => rfl
  | true => exact dout_withCodes s c

theorem dinAt_withCodes {s : State} (hp : s.phase ≠ .encode) (c : CodeTable) (b : Option Byte) :
    (s.withCodes c).dinAt b = (s.dinAt b).withCodes c := by
  cases b with
  | none => rfl
  | some b => exact din_withCodes hp c b

theorem cmdAt_withCodes {s : State} (h : CodesUnread s) (c : CodeTable) (ready : Bool) (w : Option CmdWord) :
    cmdAt ready w (s.withCodes c) = replaceUnread c (cmdAt ready w s) := by
  cases w with
  | none => exact next_eq_replaceUnread h.1 rfl
  | some w =>
    cases ready with
    | false => exact next_eq_replaceUnread h.1 rfl
    | true => exact cmdStep_withCodes h c w

theorem ports_withCodes {s : State} (h : CodesUnread s) (c : CodeTable) (r : Bool) (b : Option Byte) (w : Option CmdWord) :
    ports r b w (s.withCodes c) = replaceUnread c (ports r b w s) := by
  have hout := codesUnread_doutAt h r
  rw [ports, doutAt_withCodes, dinAt_withCodes hout.2, cmdAt_withCodes (codesUnread_dinAt hout b)]
  rfl

theorem edge_withCodes {s : State} (h : CodesUnread s) (c : CodeTable) (e : Edge) :
    edge e (s.withCodes c) = replaceUnread c (edge e s) := by
  cases e with
  | reset => exact next_eq_replaceUnread rfl rfl
  | ports r b w => exact ports_withCodes h c r b w
  | internal => exact next_eq_replaceUnread ((internal_codeValid s).trans h.1) (internal_withCodes s c)

theorem step_of_edge {s : State} {e : Edge} {rest : List Edge} (h : s.edges = e :: rest) : step s = edge e (s.atEdge rest) := by
  simp only [step, nextEdge, h]

/-- A step is the same whatever an unread code table holds. -/
theorem step_withCodes {s : State} (h : CodesUnread s) (c : CodeTable) : step (s.withCodes c) = replaceUnread c (step s) := by
  have atEdge : ∀ rest, CodesUnread (s.atEdge rest) := fun _ => h
  cases he : s.edges with
  | nil => rw [step_of_no_edge he, step_of_no_edge (s := s.withCodes c) he]; exact edge_withCodes (atEdge []) c .internal
  | cons e rest => rw [step_of_edge he, step_of_edge (s := s.withCodes c) he]; exact edge_withCodes (atEdge rest) c e

/-- Settles O60: neither a command nor a byte nor an internal step reads the code table, and GENCODE, which alone makes it valid,
writes all of it. -/
theorem unreadCodeTableIsUnobservable : Obligations.UnreadCodeTableIsUnobservable := by
  unfold Obligations.UnreadCodeTableIsUnobservable
  intro s t c hvalid hphase hstep
  have hsame := step_withCodes ⟨hvalid, hphase⟩ c
  rw [hstep] at hsame
  exact hsame

end Sys2Proof.Machine
end

section
/-! PROOFS. What extraction, insertion and building do to the order of the heap (40_heap.md R110, R114, R115, R124). -/

namespace Sys2Proof.Machine

variable {key : Idx → NodeFreq} {h : List Idx}

theorem isHeap_of_length_le_one (hh : h.length ≤ 1) : IsHeap key h := fun i h0 hi => by omega

/-- The order of a heap depends on the keys of its entries alone. -/
theorem isHeap_congr {key' : Idx → NodeFreq} (hk : ∀ n ∈ h, key n = key' n) (ho : IsHeap key h) : IsHeap key' h := by
  intro i h0 hi
  have hp : (i - 1) / 2 < h.length := by omega
  have hle := ho i h0 hi
  rwa [keyAt, keyAt, heapGet_of_lt hp, heapGet_of_lt hi, hk _ (List.getElem_mem _), hk _ (List.getElem_mem _),
    ← heapGet_of_lt hp, ← heapGet_of_lt hi] at hle

/-! ### The minimum -/

theorem keyAt_zero_le (ho : IsHeap key h) {i : Nat} (hi : i < h.length) : keyAt key h 0 ≤ keyAt key h i := by
  induction i using Nat.strong_induction_on with
  | _ i ih =>
    rcases Nat.eq_zero_or_pos i with rfl | h0
    · exact Nat.le_refl _
    · exact key_le_trans (ih _ (by omega) (by omega)) (ho i h0 hi)

/-- HEAP[0] of a heap has the least key (R110). -/
theorem key_heapMin_le (ho : IsHeap key h) {n : Idx} (hn : n ∈ h) : key (heapMin h) ≤ key n := by
  obtain ⟨i, hi, rfl⟩ := List.getElem_of_mem hn
  have hle := keyAt_zero_le ho hi
  rwa [keyAt, keyAt, heapGet_of_lt hi] at hle

/-! ### HeapExtract (R115) -/

theorem length_heapRest (key : Idx → NodeFreq) (h : List Idx) : (heapRest key h).length = h.length - 1 := by
  rcases Nat.eq_zero_or_pos h.length with h0 | h0
  · rw [List.length_eq_zero_iff.1 h0]; rfl
  · have := (heapRest_perm key h0).length_eq
    simp only [List.length_cons] at this
    omega

theorem heapGet_dropLast {i : Nat} (hi : i < h.length - 1) : heapGet h.dropLast i = heapGet h i := by
  rw [heapGet_of_lt (by simpa using hi), heapGet_of_lt (by omega), List.getElem_dropLast]

/-- Moving the last entry to position 0 puts that position alone out of order, and the sift mends it. -/
theorem isHeap_heapRest (ho : IsHeap key h) : IsHeap key (heapRest key h) := by
  by_cases hh : h.length ≤ 2
  · exact isHeap_of_length_le_one (by rw [length_heapRest]; omega)
  · have same : ∀ x, ∀ j, 0 < j → j < h.length - 1 → keyAt key (h.set 0 x).dropLast j = keyAt key h j := by
      intro x j h0 hj
      rw [keyAt, heapGet_dropLast (by simpa using hj), heapGet_set_ne _ (by omega), keyAt]
    refine (orderedFrom_zero key).1 (heapify_orders key (by simp; omega) (Nat.le_refl _) ⟨?_, ?_⟩)
    · intro j h0 hj _ hne
      rw [List.length_dropLast, List.length_set] at hj
      rw [same _ _ (by omega) (by omega), same _ _ h0 hj]
      exact ho j h0 (by omega)
    · intro _ _ _ _ h0; omega

/-! ### HeapInsert (R114) -/

theorem keyAt_append_left (l : List Idx) {i : Nat} (hi : i < h.length) : keyAt key (h ++ l) i = keyAt key h i := by
  rw [keyAt, heapGet_of_lt (by simp; omega), List.getElem_append_left hi, keyAt, heapGet_of_lt hi]

theorem isHeap_heapInsert (ho : IsHeap key h) (n : Idx) : IsHeap key (heapInsert key n h) := by
  refine siftUpLoop_orders key (by simp) (Nat.le_refl _) ⟨?_, ?_⟩
  · intro j h0 hj hne
    have hj' : j < h.length := by simp at hj; omega
    rw [keyAt_append_left _ (by omega), keyAt_append_left _ hj']
    exact ho j h0 hj'
  · intro j _ hj hp h0; simp at hj; omega

/-! ### HeapBuild (R124) -/

/-- Heapify at `p`, with all positions after `p` in order. -/
theorem heapify_orders_one_more {p : Nat} (hp : p < h.length) (ho : OrderedFrom key (p + 1) h) :
    OrderedFrom key p (heapify key p h) := by
  refine heapify_orders key hp (Nat.le_refl _) ⟨fun j h0 hj hlo hne => ho j h0 hj (by omega), ?_⟩
  intro _ _ _ _ h0 hlo; omega

theorem heapBuildFrom_orders {k : Nat} (hk : k < h.length) (ho : OrderedFrom key (k + 1) h) :
    IsHeap key (heapBuildFrom key k h) := by
  induction k generalizing h with
  | zero => exact (orderedFrom_zero key).1 (heapify_orders_one_more hk ho)
  | succ k ih =>
    have hlen := (heapify_perm key hk).length_eq
    exact ih (by omega) (heapify_orders_one_more hk ho)

theorem isHeap_heapBuild (key : Idx → NodeFreq) (h : List Idx) : IsHeap key (heapBuild key h) := by
  unfold heapBuild
  split
  · exact heapBuildFrom_orders (by omega) fun j h0 hj hlo => by omega
  · exact isHeap_of_length_le_one (by omega)

end Sys2Proof.Machine
end

section
/-! PROOFS. BUILD's algorithm (41_tree.md R138, R139): what the seeding leaves, what each turn of the merge loop keeps, and the tree
that is left. -/

namespace Sys2Proof.Machine

/-! ## Symbols and frequencies -/

theorem length_symbols_le (s : State) : (symbols s).length ≤ 256 :=
  (List.length_filter_le _ _).trans (List.length_range (n := 256)).le

/-- Entries that are 0 add nothing to a sum. -/
theorem sum_map_filter_ne_zero (f : Nat → Nat) (l : List Nat) : ((l.filter fun a => f a ≠ 0).map f).sum = (l.map f).sum := by
  induction l with
  | nil => rfl
  | cons a l ih =>
    by_cases h : f a = 0
    · simpa [h] using ih
    · simpa [h] using ih

theorem freqSum_eq_range (s : State) : freqSum s = ((List.range 256).map fun a => (s.freqAt a).toNat).sum := by
  rw [freqSum]
  congr 1
  apply List.ext_getElem
  · simp
  · intro i h1 h2
    have hi : i < 256 := by simpa using h2
    simp [freqAt_of_lt s hi]

theorem freqSum_eq_symbols (s : State) : freqSum s = ((symbols s).map fun a => (s.freqAt a).toNat).sum := by
  rw [freqSum_eq_range, ← sum_map_filter_ne_zero, symbols]
  congr 3
  funext a
  simp [← BitVec.toNat_inj]

/-- The sum of 256 counts of 32 bits needs no more than 40 bits (00_scope.md R9). -/
theorem freqSum_lt (s : State) : freqSum s < 2 ^ 40 := by
  have hle := List.sum_le_card_nsmul (s.freq.toList.map BitVec.toNat) (2 ^ 32 - 1) (by
    intro x hx
    obtain ⟨f, -, rfl⟩ := List.mem_map.1 hx
    have := f.isLt
    omega)
  have hlen : (s.freq.toList.map BitVec.toNat).length = 256 := by simp
  rw [hlen] at hle
  rw [freqSum]
  simp only [smul_eq_mul] at hle
  omega

/-! ## The seeded forest -/

/-- The leaves of these symbols, the heap array in index order. -/
def leafForest (s : State) (syms : List Nat) : Forest :=
  { nodes := syms.map fun a => leafNode (s.freqAt a) a, heap := (List.range syms.length).map (BitVec.ofNat 9) }

theorem seedSymbol_leafForest (s : State) (syms : List Nat) (a : Nat) :
    seedSymbol s (leafForest s syms) a = leafForest s (syms ++ if s.freqAt a = 0#32 then [] else [a]) := by
  unfold seedSymbol
  split
  · simp
  · simp [leafForest, allocLeaf, heapAppend, nextIdx, List.range_succ]

theorem foldl_seedSymbol (s : State) (l syms : List Nat) :
    l.foldl (seedSymbol s) (leafForest s syms) = leafForest s (syms ++ l.filter fun a => s.freqAt a ≠ 0#32) := by
  induction l generalizing syms with
  | nil => simp
  | cons a l ih =>
    rw [List.foldl_cons, seedSymbol_leafForest, ih]
    by_cases h : s.freqAt a = 0#32 <;> simp [h]

/-- The seeding loop allocates one leaf per symbol that occurs (R139). -/
theorem seeded_eq (s : State) : seeded s = leafForest s (symbols s) := foldl_seedSymbol s (List.range 256) []

theorem arenaOk_leaves (s : State) (syms : List Nat) (hl : syms.length ≤ 511) : ArenaOk (leafForest s syms).nodes := by
  induction syms using List.reverseRecOn with
  | nil => exact arenaOk_nil
  | append_singleton syms a ih =>
    rw [List.length_append, List.length_singleton] at hl
    have hnodes : (leafForest s (syms ++ [a])).nodes = allocLeaf (s.freqAt a) a (leafForest s syms).nodes := by
      simp [leafForest, allocLeaf]
    rw [hnodes]
    exact arenaOk_allocLeaf (ih (by omega)) (by simp [leafForest]; omega) _ _

section LeafForest

variable {s : State} {syms : List Nat}

theorem length_nodes_leafForest : (leafForest s syms).nodes.length = syms.length := by simp [leafForest]

theorem length_heap_leafForest : (leafForest s syms).heap.length = syms.length := by simp [leafForest]

theorem nodeOf_leafForest {k a : Nat} (h : syms[k]? = some a) : nodeOf (leafForest s syms).nodes k = leafNode (s.freqAt a) a := by
  simp [leafForest, nodeOf, h]

theorem nodup_heap_leafForest (hl : syms.length ≤ 511) : (leafForest s syms).heap.Nodup := by
  refine (List.nodup_map_iff_inj_on List.nodup_range).2 fun i hi j hj e => ?_
  rw [List.mem_range] at hi hj
  have := congrArg BitVec.toNat e
  rwa [toNat_idx (by omega), toNat_idx (by omega)] at this

theorem mem_heap_leafForest (hl : syms.length ≤ 511) {n : Idx} : n ∈ (leafForest s syms).heap ↔ n.toNat < syms.length := by
  constructor
  · intro hn
    obtain ⟨k, hk, rfl⟩ := List.mem_map.1 hn
    rw [List.mem_range] at hk
    rwa [toNat_idx (by omega)]
  · exact fun hn => List.mem_map.2 ⟨n.toNat, List.mem_range.2 hn, by simp⟩

/-- The keys of the heap array are the symbols' frequencies, in order. -/
theorem keys_leafForest (hl : syms.length ≤ 511) :
    ((leafForest s syms).heap.map fun n => (nodeKey (leafForest s syms).nodes n).toNat) = syms.map fun a => (s.freqAt a).toNat := by
  apply List.ext_getElem
  · simp [length_heap_leafForest]
  · intro k h1 h2
    have hk : k < syms.length := by simpa using h2
    have hidx : (leafForest s syms).heap[k]'(by simpa using h1) = BitVec.ofNat 9 k := by simp [leafForest]
    have hfreq := (s.freqAt syms[k]).isLt
    rw [List.getElem_map, List.getElem_map, hidx, nodeKey, toNat_idx (by omega), nodeOf_leafForest (List.getElem?_eq_getElem hk),
      leafNode, BitVec.toNat_setWidth, Nat.mod_eq_of_lt (by omega)]

end LeafForest

/-! ## One turn of the merge loop -/

/-- Entry `m` is the merge of the two least entries of its time, the lesser one left (R138, R139). -/
structure MergesLeast (nodes : List Node) (m : Nat) : Prop where
  internal : (nodeOf nodes m).isLeaf = false
  sym : (nodeOf nodes m).sym = 0x00#8
  sum : (nodeOf nodes m).freq.toNat =
    (nodeOf nodes (nodeOf nodes m).left.toNat).freq.toNat + (nodeOf nodes (nodeOf nodes m).right.toNat).freq.toNat
  ordered : (nodeOf nodes (nodeOf nodes m).left.toNat).freq ≤ (nodeOf nodes (nodeOf nodes m).right.toNat).freq
  least : ∀ n, n < m → n ≠ (nodeOf nodes m).left.toNat → n ≠ (nodeOf nodes m).right.toNat →
    (∀ m', m' < m → ¬ IsChild nodes m' (BitVec.ofNat 9 n)) →
    (nodeOf nodes (nodeOf nodes m).right.toNat).freq ≤ (nodeOf nodes n).freq

/-- What the seeding establishes and every turn of the merge loop keeps: the heap array holds the roots of a forest over the leaves
of the symbols, with all of their frequency. -/
structure Building (s : State) (t : Forest) : Prop where
  arena : ArenaOk t.nodes
  /-- Each turn takes one entry from the heap array and adds one to the arena. -/
  count : t.nodes.length + t.heap.length = 2 * (symbols s).length
  leavesIn : (symbols s).length ≤ t.nodes.length
  nodup : t.heap.Nodup
  roots : ∀ n, n ∈ t.heap ↔ n.toNat < t.nodes.length ∧ (nodeOf t.nodes n.toNat).owned = false
  leaf : ∀ k a, (symbols s)[k]? = some a → (nodeOf t.nodes k).freq = (s.freqAt a).setWidth 40 ∧
    (nodeOf t.nodes k).sym = BitVec.ofNat 8 a ∧ (nodeOf t.nodes k).left = NIL ∧ (nodeOf t.nodes k).right = NIL
  merges : ∀ m, (symbols s).length ≤ m → m < t.nodes.length → MergesLeast t.nodes m
  total : (t.heap.map fun n => (nodeKey t.nodes n).toNat).sum = freqSum s

theorem building_seeded (s : State) : Building s (seeded s) := by
  have hlen : (symbols s).length ≤ 511 := (length_symbols_le s).trans (by decide)
  have hnodes : (leafForest s (symbols s)).nodes.length = (symbols s).length := length_nodes_leafForest
  rw [seeded_eq]
  refine ⟨arenaOk_leaves s _ hlen, ?_, hnodes.ge, nodup_heap_leafForest hlen, fun n => ?_, fun k a hk => ?_, fun m h1 h2 => ?_,
    ?_⟩
  · rw [hnodes, length_heap_leafForest]; omega
  · rw [hnodes, mem_heap_leafForest hlen]
    refine ⟨fun hn => ⟨hn, ?_⟩, fun hn => hn.1⟩
    rw [nodeOf_leafForest (List.getElem?_eq_getElem hn)]; rfl
  · rw [nodeOf_leafForest hk]
    exact ⟨rfl, rfl, rfl, rfl⟩
  · omega
  · rw [keys_leafForest hlen, freqSum_eq_symbols]

/-- Only the entries of the heap array count, not their order. -/
theorem building_of_perm {s : State} {nodes : List Node} {h h' : List Idx} (hp : h'.Perm h) (hb : Building s ⟨nodes, h⟩) :
    Building s ⟨nodes, h'⟩ := by
  obtain ⟨arena, count, leavesIn, nodup, roots, leaf, merges, total⟩ := hb
  exact ⟨arena, by rw [hp.length_eq]; exact count, leavesIn, hp.nodup_iff.2 nodup, fun n => hp.mem_iff.trans (roots n), leaf,
    merges, (hp.map _).sum_eq.trans total⟩

theorem freq_allocMerge {nodes : List Node} {a b : Idx} {n : Nat} (h : n < nodes.length) :
    (nodeOf (allocMerge a b nodes) n).freq = (nodeOf nodes n).freq := by
  rw [nodeOf_allocMerge_old h]

theorem nodeKey_allocMerge {nodes : List Node} {a b n : Idx} (h : n.toNat < nodes.length) :
    nodeKey (allocMerge a b nodes) n = nodeKey nodes n :=
  freq_allocMerge h

/-- AllocMerge keeps what is said of an older merge. -/
theorem mergesLeast_allocMerge {nodes : List Node} {a b : Idx} (h : ArenaOk nodes) (ha : a.toNat < nodes.length)
    (hb : b.toNat < nodes.length) (hna : a ≠ NIL) {m : Nat} (hm : m < nodes.length) (hl : MergesLeast nodes m) :
    MergesLeast (allocMerge a b nodes) m := by
  obtain ⟨internal, sym, sum, ordered, least⟩ := hl
  have hleft : (nodeOf nodes m).left.toNat < nodes.length := (h.below _ _ ⟨hm, internal, .inl rfl⟩).trans hm
  have hright : (nodeOf nodes m).right.toNat < nodes.length := (h.below _ _ ⟨hm, internal, .inr rfl⟩).trans hm
  have left : (nodeOf (allocMerge a b nodes) m).left = (nodeOf nodes m).left := by rw [nodeOf_allocMerge_old hm]
  have right : (nodeOf (allocMerge a b nodes) m).right = (nodeOf nodes m).right := by rw [nodeOf_allocMerge_old hm]
  refine ⟨?_, ?_, ?_, ?_, ?_⟩
  · rw [nodeOf_allocMerge_old hm]; exact internal
  · rw [nodeOf_allocMerge_old hm]; exact sym
  · rw [left, right, freq_allocMerge hm, freq_allocMerge hleft, freq_allocMerge hright]; exact sum
  · rw [left, right, freq_allocMerge hleft, freq_allocMerge hright]; exact ordered
  · rw [left, right, freq_allocMerge hright]
    intro n hn hnl hnr hfree
    rw [freq_allocMerge (hn.trans hm)]
    exact least n hn hnl hnr fun m' hm' hc => hfree m' hm' ((isChild_allocMerge ha hb hna m' _).2 (.inl hc))

section Merge

variable {s : State} {nodes : List Node} {a b : Idx} {h : List Idx}

theorem Building.length_nodes_lt (hb : Building s ⟨nodes, a :: b :: h⟩) : nodes.length < 511 := by
  have hcount := hb.count
  have hsyms := length_symbols_le s
  simp only [List.length_cons] at hcount
  omega

/-- Two roots' frequencies are part of the whole, so their sum is exact in 40 bits. -/
theorem Building.freq_mergeNode (hb : Building s ⟨nodes, a :: b :: h⟩) :
    (mergeNode nodes a b).freq.toNat = (nodeKey nodes a).toNat + (nodeKey nodes b).toNat := by
  have htotal := hb.total
  have hlt := freqSum_lt s
  simp only [List.map_cons, List.sum_cons] at htotal
  rw [mergeNode, BitVec.toNat_add, Nat.mod_eq_of_lt]
  · rfl
  · exact lt_of_le_of_lt (by simp only [nodeKey] at htotal; omega) hlt

/-- The new entry merges the two least roots. -/
theorem Building.mergesLeast_new (hb : Building s ⟨nodes, a :: b :: h⟩) (hab : nodeKey nodes a ≤ nodeKey nodes b)
    (hmin : ∀ n ∈ h, nodeKey nodes b ≤ nodeKey nodes n) : MergesLeast (allocMerge a b nodes) nodes.length := by
  obtain ⟨ha, -⟩ := (hb.roots a).1 (by simp)
  obtain ⟨hb', -⟩ := (hb.roots b).1 (by simp)
  have hlt := hb.length_nodes_lt
  have hna : a ≠ NIL := by rintro rfl; simp [NIL] at ha; omega
  have new := nodeOf_allocMerge_new ha hb'
  have left : (nodeOf (allocMerge a b nodes) nodes.length).left = a := by rw [new]; rfl
  have right : (nodeOf (allocMerge a b nodes) nodes.length).right = b := by rw [new]; rfl
  refine ⟨by rw [new]; exact mergeNode_isLeaf hna, by rw [new]; rfl, ?_, ?_, ?_⟩
  · rw [left, right, freq_allocMerge ha, freq_allocMerge hb', new]; exact hb.freq_mergeNode
  · rw [left, right, freq_allocMerge ha, freq_allocMerge hb']; exact hab
  · rw [left, right, freq_allocMerge hb']
    intro n hn hnl hnr hfree
    rw [freq_allocMerge hn]
    have hidx : (BitVec.ofNat 9 n).toNat = n := toNat_idx (by omega)
    have hroot : BitVec.ofNat 9 n ∈ a :: b :: h := by
      refine (hb.roots _).2 ⟨by rw [hidx]; exact hn, ?_⟩
      rw [hidx]
      by_contra ho
      obtain ⟨m, hm⟩ := hb.arena.ownedIsChild n hn (by simpa using ho)
      exact hfree m hm.1 ((isChild_allocMerge ha hb' hna m _).2 (.inl hm))
    rcases List.mem_cons.1 hroot with rfl | hroot
    · exact absurd hidx.symm hnl
    rcases List.mem_cons.1 hroot with rfl | hroot
    · exact absurd hidx.symm hnr
    have hle := hmin _ hroot
    rwa [nodeKey, nodeKey, hidx] at hle

/-- After AllocMerge the roots are the new entry and the old roots but the two merged. -/
theorem Building.roots_allocMerge (hb : Building s ⟨nodes, a :: b :: h⟩) (n : Idx) :
    n ∈ nextIdx nodes :: h ↔
      n.toNat < (allocMerge a b nodes).length ∧ (nodeOf (allocMerge a b nodes) n.toNat).owned = false := by
  obtain ⟨ha, -⟩ := (hb.roots a).1 (by simp)
  obtain ⟨hb', -⟩ := (hb.roots b).1 (by simp)
  have hidx : (nextIdx nodes).toNat = nodes.length := toNat_idx hb.length_nodes_lt
  have hroot := hb.roots n
  obtain ⟨hafresh, hnodup⟩ := List.nodup_cons.1 hb.nodup
  obtain ⟨hbfresh, -⟩ := List.nodup_cons.1 hnodup
  simp only [List.mem_cons] at hroot hafresh ⊢
  rw [length_allocMerge]
  by_cases e : n.toNat = nodes.length
  · have hn : n = nextIdx nodes := BitVec.eq_of_toNat_eq (e.trans hidx.symm)
    rw [e, nodeOf_allocMerge_new ha hb']
    exact ⟨fun _ => ⟨Nat.lt_succ_self _, rfl⟩, fun _ => .inl hn⟩
  · have hne : n ≠ nextIdx nodes := fun hn => e (hn ▸ hidx)
    constructor
    · intro hn
      have hn := hn.resolve_left hne
      obtain ⟨hlt, ho⟩ := hroot.1 (.inr (.inr hn))
      have hna : n ≠ a := by rintro rfl; exact hafresh (.inr hn)
      have hnb : n ≠ b := by rintro rfl; exact hbfresh hn
      rw [nodeOf_allocMerge_old hlt]
      exact ⟨by omega, by simp [ho, BitVec.toNat_inj, hna, hnb]⟩
    · rintro ⟨hn, ho⟩
      have hlt : n.toNat < nodes.length := by omega
      rw [nodeOf_allocMerge_old hlt] at ho
      simp only [Bool.or_eq_false_iff, beq_eq_false_iff_ne, ne_eq, BitVec.toNat_inj] at ho
      obtain ⟨⟨ho, hna⟩, hnb⟩ := ho
      exact .inr (((hroot.2 ⟨hlt, ho⟩).resolve_left hna).resolve_left hnb)

/-- Merging the two least roots and putting the new one in their place keeps the invariant. -/
theorem building_merge (hb : Building s ⟨nodes, a :: b :: h⟩) (hab : nodeKey nodes a ≤ nodeKey nodes b)
    (hmin : ∀ n ∈ h, nodeKey nodes b ≤ nodeKey nodes n) :
    Building s ⟨allocMerge a b nodes, nextIdx nodes :: h⟩ := by
  have hlt := hb.length_nodes_lt
  have hfreq := hb.freq_mergeNode
  have hnew := hb.mergesLeast_new hab hmin
  have hroots := hb.roots_allocMerge
  obtain ⟨arena, count, leavesIn, nodup, roots, leaf, merges, total⟩ := hb
  dsimp only at *
  obtain ⟨ha, hoa⟩ := (roots a).1 (by simp)
  obtain ⟨hb, hob⟩ := (roots b).1 (by simp)
  have hna : a ≠ NIL := by rintro rfl; simp [NIL] at ha; omega
  have hidx : (nextIdx nodes).toNat = nodes.length := toNat_idx hlt
  obtain ⟨hafresh, nodup⟩ := List.nodup_cons.1 nodup
  obtain ⟨-, nodup⟩ := List.nodup_cons.1 nodup
  have old : ∀ n ∈ h, n.toNat < nodes.length := fun n hn => ((roots n).1 (by simp [hn])).1
  refine ⟨arenaOk_allocMerge arena hlt ha hb (fun e => hafresh (by simp [e])) hoa hob, ?_, ?_, ?_, hroots, ?_, ?_, ?_⟩
  · simp only [length_allocMerge, List.length_cons] at count ⊢; omega
  · simp only [length_allocMerge]; omega
  · refine List.nodup_cons.2 ⟨fun hn => ?_, nodup⟩
    have := old _ hn
    omega
  · intro k c hk
    have hlt' : k < nodes.length := lt_of_lt_of_le (List.getElem?_eq_some_iff.1 hk).1 leavesIn
    rw [nodeOf_allocMerge_old hlt']
    exact leaf k c hk
  · intro m hm hm'
    rw [length_allocMerge] at hm'
    rcases Nat.lt_or_eq_of_le (Nat.le_of_lt_succ hm') with hold | rfl
    · exact mergesLeast_allocMerge arena ha hb hna hold (merges m hm hold)
    · exact hnew
  · have keys : h.map (fun n => (nodeKey (allocMerge a b nodes) n).toNat) = h.map fun n => (nodeKey nodes n).toNat :=
      List.map_congr_left fun n hn => by rw [nodeKey_allocMerge (old n hn)]
    rw [List.map_cons, List.sum_cons, keys, nodeKey, hidx, nodeOf_allocMerge_new ha hb, hfreq]
    simp only [List.map_cons, List.sum_cons] at total
    omega

end Merge

/-! ## The merge loop -/

theorem length_mergeTwo {t : Forest} (h : 1 < t.heap.length) : (mergeTwo t).heap.length = t.heap.length - 1 := by
  simp only [mergeTwo, (heapInsert_perm _ _ _).length_eq, List.length_cons, length_heapRest]
  omega

/-- A turn of the loop takes the two least roots of a heap, merges them and leaves a heap again. -/
theorem building_mergeTwo {s : State} {t : Forest} (hb : Building s t) (ho : IsHeap (nodeKey t.nodes) t.heap)
    (h : 1 < t.heap.length) : Building s (mergeTwo t) ∧ IsHeap (nodeKey (mergeTwo t).nodes) (mergeTwo t).heap := by
  obtain ⟨nodes, h0⟩ := t
  dsimp only at ho h
  have hfirst := heapRest_perm (nodeKey nodes) (by omega : 0 < h0.length)
  have hsecond := heapRest_perm (nodeKey nodes) (h := heapRest (nodeKey nodes) h0) (by rw [length_heapRest]; omega)
  have ho1 := isHeap_heapRest ho
  have hb1 := building_of_perm ((hsecond.cons _).trans hfirst) hb
  have hab := key_heapMin_le ho (hfirst.mem_iff.1 (.tail _ (hsecond.mem_iff.1 (.head _))))
  have hmin : ∀ n ∈ heapRest (nodeKey nodes) (heapRest (nodeKey nodes) h0), _ := fun n hn =>
    key_heapMin_le ho1 (hsecond.mem_iff.1 (.tail _ hn))
  refine ⟨building_of_perm (heapInsert_perm _ _ _) (building_merge hb1 hab hmin), isHeap_heapInsert ?_ _⟩
  refine isHeap_congr (fun n hn => ?_) (isHeap_heapRest ho1)
  obtain ⟨hlt, -⟩ := (hb1.roots n).1 (by simp [hn])
  exact (nodeKey_allocMerge hlt).symm

theorem building_mergeLoop {s : State} {fuel : Nat} {t : Forest} (hb : Building s t) (ho : IsHeap (nodeKey t.nodes) t.heap)
    (h0 : 0 < t.heap.length) (hf : t.heap.length ≤ fuel + 1) :
    Building s (mergeLoop fuel t) ∧ (mergeLoop fuel t).heap.length = 1 := by
  induction fuel generalizing t with
  | zero => exact ⟨hb, by rw [mergeLoop]; omega⟩
  | succ fuel ih =>
    unfold mergeLoop
    split
    · rename_i h
      obtain ⟨hb, ho⟩ := building_mergeTwo hb ho h
      have hlen := length_mergeTwo h
      exact ih hb ho (by omega) (by omega)
    · exact ⟨hb, by omega⟩

/-- The merge loop ends with one tree (R139). -/
theorem building_merged {s : State} (h : symbols s ≠ []) :
    Building s (merged (seeded s)) ∧ ∃ r, (merged (seeded s)).heap = [r] := by
  have hb := building_seeded s
  have hpos : 0 < (seeded s).heap.length := by
    rw [seeded_eq, length_heap_leafForest]; exact List.length_pos_iff.2 h
  suffices hone : Building s (merged (seeded s)) ∧ (merged (seeded s)).heap.length = 1 from
    ⟨hone.1, List.length_eq_one_iff.1 hone.2⟩
  unfold merged
  split
  · have hlen := (heapBuild_perm (nodeKey (seeded s).nodes) (seeded s).heap).length_eq
    exact building_mergeLoop (building_of_perm (heapBuild_perm _ _) hb) (isHeap_heapBuild _ _) (by dsimp only; omega)
      (by dsimp only; omega)
  · exact ⟨hb, by omega⟩

/-! ## The tree BUILD leaves -/

section Built

variable {s : State} {nodes : List Node} {r : Idx}

theorem Building.length_nodes_of_one (hb : Building s ⟨nodes, [r]⟩) : nodes.length = 2 * (symbols s).length - 1 := by
  have hcount := hb.count
  simp only [List.length_singleton] at hcount
  omega

/-- The one root is the last entry: a parent's index is above its children's. -/
theorem Building.root_eq (hb : Building s ⟨nodes, [r]⟩) : r.toNat = 2 * (symbols s).length - 2 := by
  have hlen := hb.length_nodes_of_one
  have hsize := hb.arena.size
  obtain ⟨hr, -⟩ := (hb.roots r).1 (by simp)
  dsimp only at hsize hr
  have hidx : (BitVec.ofNat 9 (nodes.length - 1)).toNat = nodes.length - 1 := toNat_idx (by omega)
  have hlast : BitVec.ofNat 9 (nodes.length - 1) ∈ [r] := by
    refine (hb.roots _).2 ⟨by rw [hidx]; dsimp only; omega, ?_⟩
    rw [hidx]
    by_contra ho
    obtain ⟨m, hm⟩ := hb.arena.ownedIsChild (nodes.length - 1) (by dsimp only; omega) (by simpa using ho)
    have hbelow := hb.arena.below _ _ hm
    have hm := hm.1
    dsimp only at hm
    omega
  rw [← List.mem_singleton.1 hlast, hidx, hlen]
  rfl

theorem Building.owned_iff (hb : Building s ⟨nodes, [r]⟩) {n : Nat} (hn : n < nodes.length) :
    (nodeOf nodes n).owned = true ↔ n ≠ r.toNat := by
  have hsize := hb.arena.size
  dsimp only at hsize
  have hidx : (BitVec.ofNat 9 n).toNat = n := toNat_idx (by omega)
  have hroot := hb.roots (BitVec.ofNat 9 n)
  rw [hidx, List.mem_singleton, ← BitVec.toNat_inj, hidx] at hroot
  rw [ne_eq, hroot, not_and, Bool.not_eq_false]
  exact ⟨fun ho _ => ho, fun ho => ho hn⟩

/-- All frequency ends up in the root. -/
theorem Building.freq_root (hb : Building s ⟨nodes, [r]⟩) : (nodeOf nodes r.toNat).freq.toNat = freqSum s := by
  simpa [nodeKey] using hb.total

end Built

/-- BUILD (R139) writes the arena, the heap array, ROOT, NSYM and the flags alone. -/
theorem built_frame (s : State) : ∃ nodes heap root nsym, s.built =
    { s.dropTree with nodes := nodes, heap := heap, root := root, nsym := nsym, treeValid := true } :=
  ⟨_, _, _, _, rfl⟩

/-- BUILD on an empty table (R139): the tree dropped, TREE_VALID set. -/
theorem built_of_no_symbols {s : State} (h : symbols s = []) : s.built = { s.dropTree with treeValid := true } := by
  have hseed : seeded s = ⟨[], []⟩ := by rw [seeded_eq, h]; rfl
  have hmerged : merged ⟨[], []⟩ = ⟨[], []⟩ := rfl
  rw [State.built, hseed, hmerged]
  rfl

/-- BUILD on a table with symbols (R139): the one tree of the merge loop, its root extracted from the heap array. -/
theorem built_of_symbols {s : State} (h : symbols s ≠ []) :
    ∃ nodes r, Building s ⟨nodes, [r]⟩ ∧ s.built = { s.dropTree with
      nodes := nodes, heap := [], root := r, nsym := BitVec.ofNat 9 (symbols s).length, treeValid := true } := by
  obtain ⟨hb, r, hr⟩ := building_merged h
  have hseed : (seeded s).heap.length = (symbols s).length := by rw [seeded_eq, length_heap_leafForest]
  refine ⟨(merged (seeded s)).nodes, r, hr ▸ hb, ?_⟩
  rw [State.built, hseed, heapAfterRoot, rootOf, hr]
  rfl

theorem exec_build_of_idle {s : State} (h : s.phase = .idle) :
    exec .build s = .next (okWith s.built (s.built.root.setWidth 32)) := inPhases_idle h _ _

/-- Settles O42: the merge loop keeps `Building`, and with one root left it says what the tree is. -/
theorem buildLeavesTheHuffmanTree : Obligations.BuildLeavesTheHuffmanTree := by
  unfold Obligations.BuildLeavesTheHuffmanTree
  intro s hidle
  refine ⟨_, exec_build_of_idle hidle, ?_⟩
  by_cases hsyms : symbols s = []
  · rw [built_of_no_symbols hsyms, hsyms]
    exact ⟨rfl, fun _ => ⟨rfl, rfl⟩, fun h => absurd rfl h⟩
  · obtain ⟨nodes, r, hb, hbuilt⟩ := built_of_symbols hsyms
    rw [hbuilt]
    refine ⟨rfl, fun h => absurd h hsyms, fun _ =>
      ⟨hb.length_nodes_of_one, hb.root_eq, hb.leaf, ?_, ?_, hb.arena, hb.freq_root⟩⟩
    · intro m hm hm'
      obtain ⟨internal, sym, sum, ordered, least⟩ := hb.merges m hm hm'
      exact ⟨internal, sym, sum, ordered, least⟩
    · exact fun n hn => hb.owned_iff hn

end Sys2Proof.Machine
end

section
/-! PROOFS. What a `Din` step and an internal step can do, said once, case by case (43_bitpack.md R162, R171, 44_bitunpack.md R183,
R186, 45_header.md R198, R206). -/

namespace Sys2Proof.Machine

/-! ## The steps, case by case -/

/-- What the `Din` step of byte `b` can make of `s`. -/
inductive DinStep (s : State) (b : Byte) : State → Prop where
  | counted (hp : s.phase = .count) (hf : s.freqAt b.toNat ≠ 0xFFFFFFFF#32) :
      DinStep s b
        { s.setFreq b.toNat (s.freqAt b.toNat + 1#32) with origLen := s.origLen + 1#64, inCnt := s.inCnt + 1#64 }
  | overflowed (hp : s.phase = .count) (hf : s.freqAt b.toNat = 0xFFFFFFFF#32) :
      DinStep s b { s with errCode := .freqOvf, errInfo := 0x80000000#32 ||| b.setWidth 32, phase := .err }
  | packed (hp : s.phase = .encode) (hc : s.codeLenAt b.toNat ≠ 0#8) :
      DinStep s b { (s.codeOf b).foldl State.appendBit s with inCnt := s.inCnt + 1#64 }
  | uncoded (hp : s.phase = .encode) (hc : s.codeLenAt b.toNat = 0#8) :
      DinStep s b { s with errCode := .noCode, errInfo := 0x80000000#32 ||| b.setWidth 32, phase := .err }
  | headerMore (hp : s.phase = .rdhdr) (hi : s.inCnt + 1#64 ≠ 1032#64) :
      DinStep s b { s.loadHdrByte s.hdrEndian s.inCnt.toNat b with inCnt := s.inCnt + 1#64 }
  | headerLast (hp : s.phase = .rdhdr) (hi : s.inCnt + 1#64 = 1032#64) :
      DinStep s b
        (okWith { s.loadHdrByte s.hdrEndian s.inCnt.toNat b with inCnt := s.inCnt + 1#64, phase := .idle } 0#32)
  | decoded (hp : s.phase = .decode) (hr : s.rootIsLeaf = false) : DinStep s b (s.decodeBeat b)
  | waits (hr : s.dinReady = false) : DinStep s b s

theorem dinStep (s : State) (b : Byte) : DinStep s b (s.din b) := by
  cases hp : s.phase with
  | count =>
    have hne : s.phase ≠ .err := by rw [hp]; decide
    rw [din_of_count hp]
    by_cases hf : s.freqAt b.toNat = 0xFFFFFFFF#32
    · rw [countBeat_overflows hne hf]; exact .overflowed hp hf
    · rw [countBeat_counts hf]; exact .counted hp hf
  | encode =>
    have hne : s.phase ≠ .err := by rw [hp]; decide
    rw [din_of_encode hp]
    by_cases hc : s.codeLenAt b.toNat = 0#8
    · rw [encodeBeat_noCode hne hc]; exact .uncoded hp hc
    · rw [encodeBeat_packs hc]; exact .packed hp hc
  | rdhdr =>
    rw [din_of_rdhdr hp]
    by_cases hi : s.inCnt + 1#64 = 1032#64
    · rw [headerBeat_last _ hi]; exact .headerLast hp hi
    · rw [headerBeat_more _ hi]; exact .headerMore hp hi
  | decode =>
    cases hr : s.rootIsLeaf with
    | false => rw [din_of_decode hp hr]; exact .decoded hp hr
    | true =>
      have hwait : s.dinReady = false := by simp [State.dinReady, hp, hr]
      rw [din_of_not_ready hwait]; exact .waits hwait
  | idle | drain | err =>
    have hwait : s.dinReady = false := by simp [State.dinReady, hp]
    rw [din_of_not_ready hwait]; exact .waits hwait

/-- The decode beat (R183) writes IN_CNT, CUR, OQ, OUT_CNT, EMIT_CNT and PHASE alone. -/
theorem decodeBeat_frame (s : State) (b : Byte) : ∃ cur oq out emitted, s.decodeBeat b = { s with
    inCnt := s.inCnt + 1#64, cur := cur, oq := oq, outCnt := out, emitCnt := emitted
    phase := if emitted = s.origLen then .drain else s.phase } := by
  have hframe := decodeBits_frame (bitsOf b) { s with inCnt := s.inCnt + 1#64 }
  rw [State.decodeBeat, drainIfDone_eq]
  generalize (bitsOf b).foldl State.decodeBit { s with inCnt := s.inCnt + 1#64 } = u at hframe ⊢
  rw [hframe]
  exact ⟨u.cur, u.oq, u.outCnt, u.emitCnt, rfl⟩

/-- `Emit1` (R186). -/
theorem emit1_eq (s : State) :
    s.emit1 = { s with
      oq := s.oq ++ [(s.nodeAt s.root.toNat).sym], outCnt := s.outCnt + 1#64, emitCnt := s.emitCnt + 1#64
      phase := if s.emitCnt + 1#64 = s.origLen then .drain else s.phase } := by
  rw [State.emit1, drainIfDone_eq]
  rfl

/-- What the block's internal step can make of `s`. -/
inductive InternalStep (s : State) : State → Prop where
  | emits (hp : s.phase = .decode) (hr : s.rootIsLeaf = true) : InternalStep s s.emit1
  | drained (hp : s.phase = .drain) (hq : s.oq = []) : InternalStep s (okWith { s with phase := .idle } 0#32)
  | rests (he : ¬(s.phase = .decode ∧ s.rootIsLeaf = true)) (hd : ¬(s.phase = .drain ∧ s.oq = [])) : InternalStep s s

theorem internalStep (s : State) : InternalStep s s.internal := by
  by_cases he : s.phase = .decode ∧ s.rootIsLeaf = true
  · rw [internal_of_emit he.1 he.2]; exact .emits he.1 he.2
  by_cases hd : s.phase = .drain ∧ s.oq = []
  · rw [internal_of_drain hd.1 hd.2]; exact .drained hd.1 hd.2
  · rw [internal_of_none he hd]; exact .rests he hd

/-! ## What these steps leave of the tree -/

/-- `t` has the arena, the heap array and ROOT of `s`. -/
structure SameTree (s t : State) : Prop where
  nodes : t.nodes = s.nodes
  heap : t.heap = s.heap
  root : t.root = s.root

theorem sameTree_din (s : State) (b : Byte) : SameTree s (s.din b) := by
  have h := dinStep s b
  generalize s.din b = t at h
  cases h with
  | packed => rw [appendBits_frame]; exact ⟨rfl, rfl, rfl⟩
  | headerMore | headerLast => rw [loadHdrByte_frame]; exact ⟨rfl, rfl, rfl⟩
  | decoded => obtain ⟨_, _, _, _, e⟩ := decodeBeat_frame s b; rw [e]; exact ⟨rfl, rfl, rfl⟩
  | counted | overflowed | uncoded | waits => exact ⟨rfl, rfl, rfl⟩

theorem sameTree_internal (s : State) : SameTree s s.internal := by
  have h := internalStep s
  generalize s.internal = t at h
  cases h with
  | emits => rw [emit1_eq]; exact ⟨rfl, rfl, rfl⟩
  | drained | rests => exact ⟨rfl, rfl, rfl⟩

theorem sameTree_dout (s : State) : SameTree s s.dout :=
  ⟨s.dout_nodes, s.dout_heap, s.dout_root⟩

theorem sameTree_cmdFault (s : State) (w : CmdWord) (c : ErrCode) : SameTree s (s.cmdFault w c) :=
  ⟨s.cmdFault_nodes w c, s.cmdFault_heap w c, s.cmdFault_root w c⟩

theorem sameTree_failed (s : State) (i : Instr) (c : ErrCode) : SameTree s (failed s i c) :=
  cmdFault_eq_failed s i c ▸ sameTree_cmdFault s _ c

theorem sameTree_endEncode (s : State) : SameTree s s.endEncode := by
  rw [State.endEncode, flush_frame]; exact ⟨rfl, rfl, rfl⟩

end Sys2Proof.Machine
end

section
/-! PROOFS. The forest of the arena (10_state.md R24 to R27) at reset and after every step. -/

namespace Sys2Proof.Machine

variable {s t : State}

/-- The invariant looks at the arena, the heap array and ROOT alone. -/
theorem ForestOk.congr (h : ForestOk s) (hn : t.nodes = s.nodes) (hh : t.heap = s.heap) (hr : t.root = s.root) : ForestOk t := by
  obtain ⟨arena, heapSize, root, heapAllocated⟩ := h
  unfold State.nodeAt at root
  rw [← hn] at arena root heapAllocated
  rw [← hh] at heapSize heapAllocated
  rw [← hr] at root
  exact ⟨arena, heapSize, root, heapAllocated⟩

theorem SameTree.forestOk (e : SameTree s t) (h : ForestOk s) : ForestOk t := h.congr e.nodes e.heap e.root

/-- Nothing allocated, nothing on the heap, no root (41_tree.md R130). -/
theorem forestOk_of_nil (hn : t.nodes = []) (hh : t.heap = []) (hr : t.root = NIL) : ForestOk t where
  arena := hn ▸ arenaOk_nil
  heapSize := by rw [hh]; exact Nat.zero_le _
  root := .inl hr
  heapAllocated := fun n hm => by rw [hh] at hm; cases hm

/-- The heap array rewritten, with allocated entries, at most 256. -/
theorem ForestOk.withHeap (h : ForestOk s) {heap : List Idx} (hlen : heap.length ≤ 256)
    (hall : ∀ n ∈ heap, n.toNat < s.nodes.length) : ForestOk { s with heap := heap } :=
  ⟨h.arena, hlen, h.root, hall⟩

/-- The heap commands that add no entry (R118, R119). -/
theorem ForestOk.withHeap_of_subperm (h : ForestOk s) {heap : List Idx} (hp : heap.Subperm s.heap) :
    ForestOk { s with heap := heap } :=
  h.withHeap (hp.length_le.trans h.heapSize) fun n hm => h.heapAllocated n (hp.subset hm)

/-- The heap commands that add entry `a` (R116, R117). -/
theorem ForestOk.withHeap_of_perm_cons (h : ForestOk s) {heap : List Idx} {a : Nat} (ha : a < s.nodeCnt) (hroom : s.heapSize < 256)
    (hp : heap.Perm (BitVec.ofNat 9 a :: s.heap)) : ForestOk { s with heap := heap } := by
  refine h.withHeap (hp.length_eq.trans_le hroom) fun n hm => ?_
  rcases List.mem_cons.1 (hp.subset hm) with rfl | hm
  · rw [toNat_idx (ha.trans_le h.arena.size)]; exact ha
  · exact h.heapAllocated n hm

/-- Entries added to the arena, ROOT withdrawn (R135, R136). -/
theorem forestOk_of_grown (h : ForestOk s) (arena : ArenaOk t.nodes) (hn : s.nodes.length ≤ t.nodes.length)
    (hh : t.heap = s.heap) (hr : t.root = NIL) : ForestOk t where
  arena := arena
  heapSize := hh ▸ h.heapSize
  root := .inl hr
  heapAllocated := fun n hm => (h.heapAllocated n (hh ▸ hm)).trans_le hn

/-- The tree of BUILD (R138, R139). -/
theorem forestOk_built (s : State) : ForestOk s.built := by
  by_cases hsyms : symbols s = []
  · rw [built_of_no_symbols hsyms]; exact forestOk_of_nil rfl rfl rfl
  · obtain ⟨nodes, r, hb, hbuilt⟩ := built_of_symbols hsyms
    rw [hbuilt]
    exact ⟨hb.arena, Nat.zero_le _, .inr ((hb.roots r).1 (List.mem_singleton_self r)), fun n hm => by cases hm⟩

theorem forestOk_ran {i : Instr} (h : ForestOk s) (hr : Ran i s t) : ForestOk t := by
  have hsize := h.arena.size
  have idx : ∀ {a}, a < s.nodeCnt → (BitVec.ofNat 9 a).toNat = a := fun ha => toNat_idx (Nat.lt_of_lt_of_le ha hsize)
  cases i with
  | nop | rdsr a => obtain ⟨-, rfl⟩ := hr; exact h.congr rfl rfl rfl
  | wrlen a d | rdf a | rdh a | encode => obtain ⟨-, -, rfl⟩ := hr; exact h.congr rfl rfl rfl
  | rdn a sel => obtain ⟨-, -, -, rfl⟩ := hr; exact h.congr rfl rfl rfl
  | rdc a sel => obtain ⟨-, -, -, -, rfl⟩ := hr; exact h.congr rfl rfl rfl
  | gencode => obtain ⟨-, -, c, -, rfl⟩ := hr; exact h.congr rfl rfl rfl
  | decode => obtain ⟨-, ⟨-, rfl⟩ | ⟨-, -, -, rfl⟩⟩ := hr <;> exact h.congr rfl rfl rfl
  | endPass =>
    obtain ⟨-, rfl⟩ | ⟨-, rfl⟩ := hr
    · exact h.congr rfl rfl rfl
    · exact (sameTree_endEncode s).forestOk h
  | wrhdr => obtain ⟨-, rfl⟩ := hr; rw [headerWritten_eq]; exact h.congr rfl rfl rfl
  | clr => obtain ⟨-, rfl⟩ := hr; exact forestOk_of_nil rfl rfl rfl
  | wrf a d => obtain ⟨-, -, rfl⟩ := hr; exact forestOk_of_nil rfl rfl rfl
  | count | rdhdr => obtain ⟨-, rfl⟩ := hr; exact forestOk_of_nil rfl rfl rfl
  | build => obtain ⟨-, rfl⟩ := hr; exact (forestOk_built s).congr rfl rfl rfl
  | nleaf a =>
    obtain ⟨-, -, -, hroom, rfl⟩ := hr
    exact forestOk_of_grown h (arenaOk_allocLeaf h.arena hroom _ _) (by simp [okWith, answered, allocLeaf]) rfl rfl
  | nmrg a b =>
    obtain ⟨-, ha, hb, ⟨hab, hoa, hob⟩, hroom, rfl⟩ := hr
    have hne : BitVec.ofNat 9 a ≠ BitVec.ofNat 9 b := fun e => hab (by rw [← idx ha, e, idx hb])
    refine forestOk_of_grown h (arenaOk_allocMerge h.arena hroom ?_ ?_ hne ?_ ?_)
      (by simp [okWith, answered, length_allocMerge]) rfl rfl
    · rw [idx ha]; exact ha
    · rw [idx hb]; exact hb
    · rw [idx ha]; exact hoa
    · rw [idx hb]; exact hob
  | happ a =>
    obtain ⟨-, ha, hroom, rfl⟩ := hr
    exact (h.withHeap_of_perm_cons ha hroom (List.perm_append_singleton _ _)).congr rfl rfl rfl
  | hins a =>
    obtain ⟨-, ha, hroom, rfl⟩ := hr
    exact (h.withHeap_of_perm_cons ha hroom (heapInsert_perm s.key _ _)).congr rfl rfl rfl
  | hext =>
    obtain ⟨-, hpos, rfl⟩ := hr
    exact (h.withHeap_of_subperm ((List.sublist_cons_self _ _).subperm.trans (heapRest_perm s.key hpos).subperm)).congr rfl rfl rfl
  | hbld =>
    obtain ⟨-, rfl⟩ := hr
    exact (h.withHeap_of_subperm (heapBuild_perm s.key s.heap).subperm).congr rfl rfl rfl
  | setroot a =>
    obtain ⟨-, ha, ho, rfl⟩ := hr
    refine ⟨h.arena, h.heapSize, .inr ?_, h.heapAllocated⟩
    show (BitVec.ofNat 9 a).toNat < s.nodeCnt ∧ (s.nodeAt (BitVec.ofNat 9 a).toNat).owned = false
    rw [idx ha]
    exact ⟨ha, ho⟩

/-- Settles O55: the arena, the heap array and ROOT are written by commands alone, and every command that runs keeps the forest. -/
theorem stepKeepsTheForest : Obligations.StepKeepsTheForest := by
  unfold Obligations.StepKeepsTheForest
  intro s t hs h
  refine step_keeps hs h (fun _ _ h => h.congr rfl rfl rfl) (fun _ _ => forestOk_of_nil rfl rfl rfl)
    (fun s => (sameTree_internal s).forestOk) (fun s => (sameTree_dout s).forestOk) (fun s b => (sameTree_din s b).forestOk)
    (fun i s t hs hx => ?_) (fun s w hs _ => (sameTree_cmdFault s w _).forestOk hs)
  rcases exec_cases hx with ⟨-, rfl⟩ | ⟨-, hr⟩ | ⟨-, c, -, rfl⟩
  · exact hs
  · exact forestOk_ran hs hr
  · exact (sameTree_failed s i c).forestOk hs

end Sys2Proof.Machine
end

section
/-! PROOFS. GENCODE (42_codegen.md R150 to R154): the traversal meets the leaves left to right and writes the path of each, so the
table holds the path of the last leaf of every symbol. -/

namespace Sys2Proof.Machine

/-! ## The leaves of a tree, left to right -/

/-- The path `d` leads from entry `n` to a leaf of symbol `b`. -/
def LeafAt (nodes : List Node) (n : Idx) (d : List Bool) (b : Byte) : Prop :=
  ∃ m, descend nodes n d = some m ∧ (nodeOf nodes m.toNat).isLeaf = true ∧ (nodeOf nodes m.toNat).sym = b

/-- A symbol's path, seen from where the path `p` begins that leads to it. -/
def underPath (p : List Bool) (x : Byte × List Bool) : Byte × List Bool := (x.1, p ++ x.2)

theorem underPath_comp (p q : List Bool) : underPath p ∘ underPath q = underPath (p ++ q) := by
  funext x
  simp [underPath]

/-- The symbols of the leaves at and below entry `n`, each with its path from `n`, left to right, at most `fuel` levels deep. -/
def leafPaths (nodes : List Node) : Nat → Idx → List (Byte × List Bool)
  | 0, _ => []
  | fuel + 1, n =>
    if (nodeOf nodes n.toNat).isLeaf then [((nodeOf nodes n.toNat).sym, [])]
    else (leafPaths nodes fuel (nodeOf nodes n.toNat).left).map (underPath [false]) ++
      (leafPaths nodes fuel (nodeOf nodes n.toNat).right).map (underPath [true])

/-- SetCode (R151) of each symbol and path in turn. -/
def setCodes (l : List (Byte × List Bool)) (t : CodeTable) : CodeTable := l.foldl (fun t x => setCode x.1 x.2 t) t

section Leaves

variable {nodes : List Node} {n : Idx} {fuel : Nat}

theorem leafAt_of_leaf (hl : (nodeOf nodes n.toNat).isLeaf = true) (d : List Bool) (b : Byte) :
    LeafAt nodes n d b ↔ d = [] ∧ (nodeOf nodes n.toNat).sym = b := by
  cases d with
  | nil => simp [LeafAt, descend, hl]
  | cons x d => simp [LeafAt, descend, hl]

theorem not_leafAt_nil (hl : (nodeOf nodes n.toNat).isLeaf = false) (b : Byte) : ¬ LeafAt nodes n [] b := by
  simp [LeafAt, descend, hl]

theorem leafAt_cons (hl : (nodeOf nodes n.toNat).isLeaf = false) (x : Bool) (d : List Bool) (b : Byte) :
    LeafAt nodes n (x :: d) b ↔ LeafAt nodes ((nodeOf nodes n.toNat).child x) d b := by
  simp [LeafAt, descend, hl]

/-- `leafPaths` lists the leaves that paths from `n` reach, and no others: a child's index is below its parent's (10_state.md
R27 (a)), so the fuel lasts. -/
theorem mem_leafPaths (h : ArenaOk nodes) (hn : n.toNat < nodes.length) (hf : n.toNat < fuel) (b : Byte) (d : List Bool) :
    (b, d) ∈ leafPaths nodes fuel n ↔ LeafAt nodes n d b := by
  induction fuel generalizing n d with
  | zero => omega
  | succ fuel ih =>
    cases hl : (nodeOf nodes n.toNat).isLeaf with
    | true =>
      rw [leafPaths, if_pos hl, leafAt_of_leaf hl, List.mem_singleton, Prod.mk.injEq, and_comm, eq_comm (a := b)]
    | false =>
      have child : ∀ x d, (b, d) ∈ leafPaths nodes fuel ((nodeOf nodes n.toNat).child x) ↔
          LeafAt nodes ((nodeOf nodes n.toNat).child x) d b := fun x d => by
        have hbelow := h.below _ _ (isChild_child x hn hl)
        exact ih (hbelow.trans hn) (by omega) d
      rw [leafPaths, hl, if_neg (by decide)]
      cases d with
      | nil => simp [not_leafAt_nil hl, underPath]
      | cons x d =>
        rw [leafAt_cons hl, ← child]
        cases x <;> simp [Node.child, underPath]

/-- Of two leaves the one listed first lies to the left. -/
theorem leafPaths_pairwise (nodes : List Node) (fuel : Nat) (n : Idx) :
    (leafPaths nodes fuel n).Pairwise fun x y => leftOf x.2 y.2 = true := by
  induction fuel generalizing n with
  | zero => exact .nil
  | succ fuel ih =>
    rw [leafPaths]
    split
    · exact List.pairwise_singleton _ _
    · refine List.pairwise_append.2 ⟨?_, ?_, ?_⟩
      · exact List.pairwise_map.2 ((ih _).imp fun hxy => by simpa [leftOf, underPath] using hxy)
      · exact List.pairwise_map.2 ((ih _).imp fun hxy => by simpa [leftOf, underPath] using hxy)
      · intro x hx y hy
        obtain ⟨x, -, rfl⟩ := List.mem_map.1 hx
        obtain ⟨y, -, rfl⟩ := List.mem_map.1 hy
        simp [leftOf, underPath]

theorem setCodes_append (l l' : List (Byte × List Bool)) (t : CodeTable) : setCodes (l ++ l') t = setCodes l' (setCodes l t) :=
  List.foldl_append

/-- The traversal (R153) ends, and writes the path of each leaf it meets. -/
theorem walk_eq (h : ArenaOk nodes) (hn : n.toNat < nodes.length) (hf : n.toNat < fuel) (p : List Bool) (t : CodeTable) :
    walk nodes fuel n p t = some (setCodes ((leafPaths nodes fuel n).map (underPath p)) t) := by
  induction fuel generalizing n p t with
  | zero => omega
  | succ fuel ih =>
    cases hl : (nodeOf nodes n.toNat).isLeaf with
    | true => simp [walk, leafPaths, hl, setCodes, underPath]
    | false =>
      have hleft := h.below _ _ (isChild_child false hn hl)
      have hright := h.below _ _ (isChild_child true hn hl)
      simp only [Node.child, Bool.false_eq_true, if_false, if_true] at hleft hright
      rw [walk, hl, if_neg (by decide), ih (hleft.trans hn) (by omega)]
      dsimp only
      rw [ih (hright.trans hn) (by omega), leafPaths, hl, if_neg (by decide), List.map_append, setCodes_append]
      rw [List.map_map, List.map_map, underPath_comp, underPath_comp]

end Leaves

/-! ## The table -/

/-- The table holds the code `c` for symbol `b` (10_state.md R32); with `c` empty, none. -/
def HasCode (t : CodeTable) (b : Byte) (c : List Bool) : Prop :=
  t.len[b.toNat]? = some (BitVec.ofNat 8 c.length) ∧ t.bits[b.toNat]? = some (placeCode 0 c)

theorem hasCode_emptyCodes (b : Byte) : HasCode emptyCodes b [] := by
  have hb : b.toNat < 256 := b.isLt
  constructor <;> simp [emptyCodes, placeCode, hb]

theorem hasCode_setCode_self (b : Byte) (c : List Bool) (t : CodeTable) : HasCode (setCode b c t) b c :=
  ⟨setCode_len_self b c t, setCode_bits_self b c t⟩

theorem hasCode_setCode_ne {a b : Byte} {c : List Bool} {t : CodeTable} (hne : b ≠ a) (h : HasCode t b c) (c' : List Bool) :
    HasCode (setCode a c' t) b c := by
  have hne : b.toNat ≠ a.toNat := fun e => hne (BitVec.eq_of_toNat_eq e)
  exact ⟨(setCode_len_ne hne c' t).trans h.1, (setCode_bits_ne hne c' t).trans h.2⟩

/-- Codes written left to right over the empty table: each symbol holds the last one written for it (R154). -/
theorem hasCode_setCodes {l : List (Byte × List Bool)} (hl : l.Pairwise fun x y => leftOf x.2 y.2 = true) (b : Byte) :
    (HasCode (setCodes l emptyCodes) b [] ∧ ∀ c, (b, c) ∉ l) ∨
      ∃ c, HasCode (setCodes l emptyCodes) b c ∧ (b, c) ∈ l ∧ ∀ c', (b, c') ∈ l → c' ≠ c → leftOf c' c = true := by
  induction l using List.reverseRecOn with
  | nil => exact .inl ⟨hasCode_emptyCodes b, by simp⟩
  | append_singleton l x ih =>
    obtain ⟨hl, -, hx⟩ := List.pairwise_append.1 hl
    have hlast : setCodes (l ++ [x]) emptyCodes = setCode x.1 x.2 (setCodes l emptyCodes) := setCodes_append _ _ _
    rw [hlast]
    by_cases e : b = x.1
    · subst e
      refine .inr ⟨x.2, hasCode_setCode_self _ _ _, by simp, fun c' hc' hne => ?_⟩
      rcases List.mem_append.1 hc' with hc' | hc'
      · exact hx _ hc' _ (by simp)
      · exact absurd (congrArg Prod.snd (List.mem_singleton.1 hc')) hne
    · have hmem : ∀ c, (b, c) ∈ l ++ [x] ↔ (b, c) ∈ l := fun c => by
        have hne : (b, c) ≠ x := fun h => e (congrArg Prod.fst h)
        simp [hne]
      simp only [hmem]
      exact (ih hl).imp (fun ⟨h, hnone⟩ => ⟨hasCode_setCode_ne e h _, hnone⟩)
        fun ⟨c, h, hc⟩ => ⟨c, hasCode_setCode_ne e h _, hc⟩

section Code

variable {s : State} {b : Byte} {c : List Bool}

theorem codeLenAt_of_hasCode (h : HasCode s.codes b c) : s.codeLenAt b.toNat = BitVec.ofNat 8 c.length := by
  rw [State.codeLenAt, h.1]; rfl

theorem codeLenAt_toNat_of_hasCode (h : HasCode s.codes b c) (hc : c.length ≤ 255) : (s.codeLenAt b.toNat).toNat = c.length := by
  rw [codeLenAt_of_hasCode h, BitVec.toNat_ofNat, Nat.mod_eq_of_lt (by omega)]

theorem codeLenAt_ne_zero_of_hasCode (h : HasCode s.codes b c) (hc : c.length ≤ 255) (hne : c ≠ []) :
    s.codeLenAt b.toNat ≠ 0#8 := by
  have hlen := codeLenAt_toNat_of_hasCode h hc
  have hpos := List.length_pos_iff.2 hne
  intro e
  rw [e] at hlen
  simp at hlen
  omega

/-- Bit 255 - k of CODE_BITS is bit `k` of the code, and 0 past its end. -/
theorem codeBitsAt_of_hasCode (h : HasCode s.codes b c) (hc : c.length ≤ 255) {k : Nat} (hk : k < 256) :
    (s.codeBitsAt b.toNat).getLsbD (255 - k) = c.getD k false := by
  rw [State.codeBitsAt, h.2, Option.getD_some, placeCode_bit (by omega) hk, if_pos (Nat.zero_le k), Nat.sub_zero]

theorem codeOf_of_hasCode (h : HasCode s.codes b c) (hc : c.length ≤ 255) : s.codeOf b = c := by
  rw [State.codeOf, codeLenAt_toNat_of_hasCode h hc]
  apply List.ext_getElem
  · simp
  · intro k h1 h2
    rw [List.getElem_map, List.getElem_range, codeBitsAt_of_hasCode h hc (by omega), List.getD_eq_getElem _ _ h2]

end Code

/-! ## GENCODE -/

/-- The codes GENCODE writes, in order (R151, R152): none, "0", or the paths of the leaves. -/
def codeList (s : State) : List (Byte × List Bool) :=
  if s.root = NIL then []
  else if s.rootIsLeaf then [((s.nodeAt s.root.toNat).sym, [false])]
  else leafPaths s.nodes s.nodeCnt s.root

section Gencode

variable {s : State}

theorem codeList_of_nil (h : s.root = NIL) : codeList s = [] := if_pos h

theorem codeList_of_leaf (h : s.root ≠ NIL) (hl : s.rootIsLeaf = true) :
    codeList s = [((s.nodeAt s.root.toNat).sym, [false])] := by
  rw [codeList, if_neg h, if_pos hl]

theorem codeList_of_internal (h : s.root ≠ NIL) (hl : s.rootIsLeaf = false) :
    codeList s = leafPaths s.nodes s.nodeCnt s.root := by
  rw [codeList, if_neg h, hl, if_neg (by decide)]

theorem ForestOk.root_lt (h : ForestOk s) (hr : s.root ≠ NIL) : s.root.toNat < s.nodes.length := (h.root.resolve_left hr).1

theorem mem_codeList_of_internal (h : ForestOk s) (hr : s.root ≠ NIL) (hl : s.rootIsLeaf = false) (b : Byte) (c : List Bool) :
    (b, c) ∈ codeList s ↔ LeafAt s.nodes s.root c b := by
  rw [codeList_of_internal hr hl]
  exact mem_leafPaths h.arena (h.root_lt hr) (h.root_lt hr) b c

theorem codeTable_eq (h : ForestOk s) : s.codeTable = some (setCodes (codeList s) emptyCodes) := by
  by_cases hr : s.root = NIL
  · rw [codeList_of_nil hr, State.codeTable, if_pos hr]; rfl
  cases hl : s.rootIsLeaf with
  | true => rw [codeList_of_leaf hr hl, State.codeTable, if_neg hr, if_pos hl]; rfl
  | false =>
    have hwalk := walk_eq h.arena (h.root_lt hr) (fuel := s.nodeCnt) (h.root_lt hr) [] emptyCodes
    have hnil : underPath [] = id := rfl
    rw [hnil, List.map_id] at hwalk
    rw [codeList_of_internal hr hl, State.codeTable, if_neg hr, hl, if_neg (by decide), hwalk]

theorem codeList_pairwise (s : State) : (codeList s).Pairwise fun x y => leftOf x.2 y.2 = true := by
  unfold codeList
  split
  · exact .nil
  split
  · exact List.pairwise_singleton _ _
  · exact leafPaths_pairwise _ _ _

/-- Every code fits CODE_LEN and CODE_BITS, and none is empty. -/
theorem length_of_mem_codeList (h : ForestOk s) {b : Byte} {c : List Bool} (hc : (b, c) ∈ codeList s) :
    c.length ≤ 255 ∧ c ≠ [] := by
  by_cases hr : s.root = NIL
  · rw [codeList_of_nil hr] at hc; cases hc
  cases hl : s.rootIsLeaf with
  | true =>
    rw [codeList_of_leaf hr hl, List.mem_singleton, Prod.mk.injEq] at hc
    rw [hc.2]; decide
  | false =>
    have hleaf := (mem_codeList_of_internal h hr hl b c).1 hc
    obtain ⟨m, hm, -⟩ := id hleaf
    refine ⟨everyPathIsAtMost255Long _ _ _ _ h.arena (h.root_lt hr) hm, ?_⟩
    rintro rfl
    exact not_leafAt_nil hl b hleaf

/-- What the table of GENCODE gives for symbol `b`: no code, or the last of its codes in left-to-right order. -/
theorem codeOf_of_codeList (h : ForestOk s) {u : State} (hu : u.codes = setCodes (codeList s) emptyCodes) (b : Byte) :
    (u.codeLenAt b.toNat = 0#8 ∧ ∀ c, (b, c) ∉ codeList s) ∨
      (u.codeLenAt b.toNat ≠ 0#8 ∧ (b, u.codeOf b) ∈ codeList s ∧
        ∀ c, (b, c) ∈ codeList s → c ≠ u.codeOf b → leftOf c (u.codeOf b) = true) := by
  rcases hasCode_setCodes (codeList_pairwise s) b with ⟨hcode, hnone⟩ | ⟨c, hcode, hmem, hlast⟩
  · rw [← hu] at hcode
    exact .inl ⟨codeLenAt_of_hasCode hcode, hnone⟩
  · rw [← hu] at hcode
    obtain ⟨hlen, hne⟩ := length_of_mem_codeList h hmem
    rw [codeOf_of_hasCode hcode hlen]
    exact .inr ⟨codeLenAt_ne_zero_of_hasCode hcode hlen hne, hmem, hlast⟩

theorem codeBits_past_code (h : ForestOk s) {u : State} (hu : u.codes = setCodes (codeList s) emptyCodes) (b : Byte) {k : Nat}
    (hk : (u.codeLenAt b.toNat).toNat ≤ k) (hk' : k < 256) : (u.codeBitsAt b.toNat).getLsbD (255 - k) = false := by
  obtain ⟨c, hcode, hlen⟩ : ∃ c, HasCode u.codes b c ∧ c.length ≤ 255 := by
    rw [hu]
    rcases hasCode_setCodes (codeList_pairwise s) b with ⟨hcode, -⟩ | ⟨c, hcode, hmem, -⟩
    · exact ⟨[], hcode, by simp⟩
    · exact ⟨c, hcode, (length_of_mem_codeList h hmem).1⟩
  rw [codeLenAt_toNat_of_hasCode hcode hlen] at hk
  rw [codeBitsAt_of_hasCode hcode hlen hk', List.getD_eq_default _ _ hk]

/-- GENCODE (R151) with a valid tree. -/
theorem exec_gencode_of_idle (hp : s.phase = .idle) (ht : s.treeValid = true) (h : ForestOk s) :
    exec .gencode s = .next (okWith { s with codes := setCodes (codeList s) emptyCodes, codeValid := true } 0#32) := by
  have hrun : exec .gencode s = s.storeCodes s.codeTable := (inPhases_idle hp _ _).trans (require_pos ht _ _ _ _)
  rw [hrun, codeTable_eq h]
  rfl

theorem exec_gencode_without_tree (hp : s.phase = .idle) (ht : s.treeValid = false) :
    exec .gencode s = .next (faulted s .gencode .seq) := by
  have hno : ¬ s.treeValid = true := by simp [ht]
  exact (inPhases_idle hp _ _).trans ((require_neg hno _ _ _ _).trans (by rw [failed_of_idle hp]))

theorem codeLenAt_emptyCodes {u : State} (hu : u.codes = emptyCodes) (a : Nat) : u.codeLenAt a = 0#8 := by
  rw [State.codeLenAt, hu]
  simp only [emptyCodes, Vector.getElem?_replicate]
  split <;> rfl

end Gencode

/-- Settles O46: the codes written are the paths of the leaves, listed left to right, and a symbol keeps the last of its own. -/
theorem gencodeRecordsTheRootToLeafPaths : Obligations.GencodeRecordsTheRootToLeafPaths := by
  unfold Obligations.GencodeRecordsTheRootToLeafPaths
  refine ⟨fun s hp ht h => ?_, fun s hp ht => exec_gencode_without_tree hp ht⟩
  refine ⟨_, exec_gencode_of_idle hp ht h, rfl, ?_, ?_, ?_, fun b k hk hk' => codeBits_past_code h rfl b hk hk'⟩
  all_goals
    generalize hu : okWith { s with codes := setCodes (codeList s) emptyCodes, codeValid := true } 0#32 = u
    have hcodes : u.codes = setCodes (codeList s) emptyCodes := hu ▸ rfl
    have hcode := codeOf_of_codeList h hcodes
  · intro hr
    rw [codeList_of_nil hr] at hcodes
    exact codeLenAt_emptyCodes hcodes
  · intro hr hl
    have hmem : ∀ b c, (b, c) ∈ codeList s ↔ b = (s.nodeAt s.root.toNat).sym ∧ c = [false] := fun b c => by
      rw [codeList_of_leaf hr hl, List.mem_singleton, Prod.mk.injEq]
    constructor
    · rcases hcode (s.nodeAt s.root.toNat).sym with ⟨-, hnone⟩ | ⟨-, hin, -⟩
      · exact absurd ((hmem _ _).2 ⟨rfl, rfl⟩) (hnone _)
      · exact ((hmem _ _).1 hin).2
    · intro b hb
      rcases hcode b with ⟨hzero, -⟩ | ⟨-, hin, -⟩
      · exact hzero
      · exact absurd ((hmem _ _).1 hin).1 hb
  · intro hr hl
    have hmem := mem_codeList_of_internal h hr hl
    constructor
    · intro b hb
      rcases hcode b with ⟨hzero, -⟩ | ⟨-, hin, -⟩
      · exact absurd hzero hb
      · exact (hmem _ _).1 hin
    · intro p n hd hleaf
      have hin := (hmem _ p).2 ⟨n, hd, hleaf, rfl⟩
      rcases hcode (s.nodeAt n.toNat).sym with ⟨-, hnone⟩ | ⟨hne, -, hlast⟩
      · exact absurd hin (hnone p)
      · exact ⟨hne, hlast p hin⟩

end Sys2Proof.Machine
end

section
/-! PROOFS. The facts about the sequencer, the flags and the accumulator (10_state.md R30, R33, R39, R41, R47) after every step. -/

namespace Sys2Proof.Machine

variable {s t : State}

/-! ## Each fact by phase -/

theorem queueOk_of_phase (p : Phase) (ht : t.phase = p) (hp : p ≠ .idle ∧ p ≠ .count ∧ p ≠ .rdhdr) : QueueOk t := by
  obtain ⟨hi, hc, hr⟩ := hp
  rintro (h | h | h)
  · exact absurd (ht.symm.trans h) hi
  · exact absurd (ht.symm.trans h) hc
  · exact absurd (ht.symm.trans h) hr

theorem headerOk_of_phase (p : Phase) (ht : t.phase = p) (hp : p ≠ .rdhdr) : HeaderOk t := fun h => absurd (ht.symm.trans h) hp

theorem errOk_of_phase (p : Phase) (ht : t.phase = p) (hp : p ≠ .err) (hc : t.errCode = .ok) : ErrOk t :=
  ⟨fun h => absurd (ht.symm.trans h) hp, fun h => absurd hc h⟩

theorem ErrOk.errCode_eq (h : ErrOk s) (hp : s.phase ≠ .err) : s.errCode = .ok := not_not.1 fun hc => hp (h.2 hc)

theorem accOk_of_zero (ha : t.acc = 0#8) (hc : t.accCnt = 0#3) : AccOk t := by
  unfold AccOk
  rw [ha, hc]
  decide

/-- No tree, no code (R130, R135, R136). -/
theorem flagsOk_of_withdrawn (hc : t.codeValid = false) (hr : t.root = NIL) : FlagsOk t :=
  ⟨fun h => absurd (hc.symm.trans h) (by decide), fun h => absurd hr h⟩

/-- A header byte that is not the last (R41, R206). -/
theorem headerCount_lt {n : Count} (h : n < 1032#64) (hn : n + 1#64 ≠ 1032#64) : n + 1#64 < 1032#64 := by bv_omega

/-! ## The accumulator (43_bitpack.md R163, R167) -/

/-- A bit shifted in below `n` held ones. -/
theorem shiftIn_lt {acc : BitVec 8} {n : Nat} (h : acc.toNat < 2 ^ n) (x : Bool) :
    ((acc <<< 1) ||| (BitVec.ofBool x).setWidth 8).toNat < 2 ^ (n + 1) := by
  have hx : ((BitVec.ofBool x).setWidth 8).toNat ≤ 1 := by cases x <;> decide
  have hshift : (acc <<< 1).toNat ≤ acc.toNat * 2 := by
    rw [BitVec.toNat_shiftLeft, Nat.shiftLeft_eq]; exact Nat.mod_le _ _
  have hpow := Nat.two_pow_pos n
  rw [BitVec.toNat_or]
  exact Nat.or_lt_two_pow (by rw [Nat.pow_succ]; omega) (by rw [Nat.pow_succ]; omega)

theorem accOk_appendBit (h : AccOk s) (x : Bool) : AccOk (s.appendBit x) := by
  unfold State.appendBit
  dsimp only
  split
  · exact accOk_of_zero rfl rfl
  · have hcnt : (s.accCnt + 1#3).toNat = s.accCnt.toNat + 1 := by bv_omega
    unfold AccOk
    dsimp only
    rw [hcnt]
    exact shiftIn_lt h x

theorem accOk_appendBits (l : List Bool) (h : AccOk s) : AccOk (l.foldl State.appendBit s) := by
  induction l generalizing s with
  | nil => exact h
  | cons x l ih => exact ih (accOk_appendBit h x)

theorem accOk_flush (h : AccOk s) : AccOk s.flush := by
  unfold State.flush
  split
  · exact h
  · exact accOk_of_zero rfl rfl

/-! ## The steps -/

theorem sequencerOk_cleared (s : State) : SequencerOk s.cleared where
  flags := flagsOk_of_withdrawn rfl rfl
  queue := fun _ => rfl
  err := errOk_of_phase .idle rfl (by decide) rfl
  header := headerOk_of_phase .idle rfl (by decide)
  acc := accOk_of_zero rfl rfl

/-- Taking a fault (60_exceptions.md R244). -/
theorem SequencerOk.fault (h : SequencerOk s) {c : ErrCode} (hc : c ≠ .ok) (info : Data) :
    SequencerOk { s with errCode := c, errInfo := info, phase := .err } where
  flags := h.flags
  queue := queueOk_of_phase .err rfl (by decide)
  err := ⟨fun _ => hc, fun _ => rfl⟩
  header := headerOk_of_phase .err rfl (by decide)
  acc := h.acc

theorem SequencerOk.cmdFault (h : SequencerOk s) (w : CmdWord) {c : ErrCode} (hc : c ≠ .ok) : SequencerOk (s.cmdFault w c) := by
  have hrec : SequencerOk (s.recordFault c (commandInfo w)) := by
    by_cases hp : s.phase = .err
    · rw [s.recordFault_of_err _ _ hp]; exact h
    · rw [s.recordFault_of_ne_err _ _ hp]; exact h.fault hc _
  exact ⟨hrec.flags, hrec.queue, hrec.err, hrec.header, hrec.acc⟩

/-- A move, without a fault, to a phase in which OQ may hold bytes. -/
theorem SequencerOk.moves (h : SequencerOk s) (hp : s.phase ≠ .err)
    (ht : t.phase = .encode ∨ t.phase = .decode ∨ t.phase = .drain) (hf : FlagsOk t) (hc : t.errCode = s.errCode)
    (ha : AccOk t) : SequencerOk t := by
  have hcode := hc.trans (h.err.errCode_eq hp)
  rcases ht with ht | ht | ht <;>
    exact ⟨hf, queueOk_of_phase _ ht (by decide), errOk_of_phase _ ht (by decide) hcode, headerOk_of_phase _ ht (by decide), ha⟩

/-- A move, without a fault, with OQ empty. -/
theorem SequencerOk.movesEmpty (h : SequencerOk s) (hp : s.phase ≠ .err) (p : Phase) (ht : t.phase = p) (hne : p ≠ .err)
    (hq : t.oq = []) (hh : HeaderOk t) (hf : FlagsOk t) (hc : t.errCode = s.errCode) (ha : AccOk t) : SequencerOk t :=
  ⟨hf, fun _ => hq, errOk_of_phase p ht hne (hc.trans (h.err.errCode_eq hp)), hh, ha⟩

theorem SequencerOk.dout (h : SequencerOk s) : SequencerOk s.dout := by
  obtain ⟨flags, queue, err, header, acc⟩ := h
  cases hq : s.oq with
  | nil => rw [dout_of_empty hq]; exact ⟨flags, queue, err, header, acc⟩
  | cons b q =>
    rw [dout_of_cons hq]
    exact ⟨flags, fun hp => absurd ((queue hp).symm.trans hq) (by simp), err, header, acc⟩

theorem SequencerOk.din (h : SequencerOk s) (b : Byte) : SequencerOk (s.din b) := by
  have hd := dinStep s b
  generalize s.din b = t at hd
  cases hd with
  | counted hp => exact ⟨h.flags, h.queue, h.err, headerOk_of_phase .count hp (by decide), h.acc⟩
  | overflowed | uncoded => exact h.fault (by decide) _
  | packed hp =>
    have hacc := accOk_appendBits (s.codeOf b) h.acc
    rw [appendBits_frame] at hacc ⊢
    exact h.moves (by simp [hp]) (.inl hp) h.flags rfl hacc
  | headerMore hp hi =>
    rw [loadHdrByte_frame]
    exact ⟨h.flags, h.queue, h.err, fun _ => headerCount_lt (h.header hp) hi, h.acc⟩
  | headerLast hp =>
    rw [loadHdrByte_frame]
    exact h.movesEmpty (by simp [hp]) .idle rfl (by decide) (h.queue (.inr (.inr hp))) (headerOk_of_phase .idle rfl (by decide))
      h.flags rfl h.acc
  | decoded hp =>
    obtain ⟨_, _, _, _, e⟩ := decodeBeat_frame s b
    rw [e]
    exact h.moves (by simp [hp]) (by dsimp only; split <;> simp [hp]) h.flags rfl h.acc
  | waits => exact h

theorem SequencerOk.internal (h : SequencerOk s) : SequencerOk s.internal := by
  have hi := internalStep s
  generalize s.internal = t at hi
  cases hi with
  | emits hp =>
    rw [emit1_eq]
    exact h.moves (by simp [hp]) (by dsimp only; split <;> simp [hp]) h.flags rfl h.acc
  | drained hp hq =>
    exact h.movesEmpty (by simp [hp]) .idle rfl (by decide) hq (headerOk_of_phase .idle rfl (by decide)) h.flags rfl h.acc
  | rests => exact h

theorem sequencerOk_ran {i : Instr} (h : SequencerOk s) (hr : Ran i s t) : SequencerOk t := by
  obtain ⟨flags, queue, err, header, acc⟩ := id h
  cases i with
  | nop | rdsr a | hbld => obtain ⟨-, rfl⟩ := hr; exact ⟨flags, queue, err, header, acc⟩
  | wrlen a d | rdf a | rdh a | hext => obtain ⟨-, -, rfl⟩ := hr; exact ⟨flags, queue, err, header, acc⟩
  | rdn a sel | happ a | hins a => obtain ⟨-, -, -, rfl⟩ := hr; exact ⟨flags, queue, err, header, acc⟩
  | rdc a sel => obtain ⟨-, -, -, -, rfl⟩ := hr; exact ⟨flags, queue, err, header, acc⟩
  | clr =>
    obtain ⟨-, rfl⟩ := hr
    obtain ⟨flags, queue, err, header, acc⟩ := sequencerOk_cleared s
    exact ⟨flags, queue, err, header, acc⟩
  | wrf a d => obtain ⟨-, -, rfl⟩ := hr; exact ⟨flagsOk_of_withdrawn rfl rfl, queue, err, header, acc⟩
  | nleaf a => obtain ⟨-, -, -, -, rfl⟩ := hr; exact ⟨flagsOk_of_withdrawn rfl rfl, queue, err, header, acc⟩
  | nmrg a b => obtain ⟨-, -, -, -, -, rfl⟩ := hr; exact ⟨flagsOk_of_withdrawn rfl rfl, queue, err, header, acc⟩
  | setroot a => obtain ⟨-, -, -, rfl⟩ := hr; exact ⟨⟨fun _ => rfl, fun _ => rfl⟩, queue, err, header, acc⟩
  | build =>
    obtain ⟨-, rfl⟩ := hr
    obtain ⟨_, _, _, _, e⟩ := built_frame s
    rw [e]
    exact ⟨⟨fun _ => rfl, fun _ => rfl⟩, queue, err, header, acc⟩
  | gencode => obtain ⟨-, ht, c, -, rfl⟩ := hr; exact ⟨⟨fun _ => ht, flags.2⟩, queue, err, header, acc⟩
  | count =>
    obtain ⟨hp, rfl⟩ := hr
    exact h.movesEmpty (by simp [hp]) .count rfl (by decide) (queue (.inl hp)) (headerOk_of_phase .count rfl (by decide))
      (flagsOk_of_withdrawn rfl rfl) rfl acc
  | rdhdr =>
    obtain ⟨hp, rfl⟩ := hr
    exact h.movesEmpty (by simp [hp]) .rdhdr rfl (by decide) (queue (.inl hp)) (fun _ => (by decide : 0#64 < 1032#64))
      (flagsOk_of_withdrawn rfl rfl) rfl acc
  | wrhdr =>
    obtain ⟨hp, rfl⟩ := hr
    rw [headerWritten_eq]
    exact h.moves (by simp [hp]) (.inr (.inr rfl)) flags rfl acc
  | encode => obtain ⟨hp, -, rfl⟩ := hr; exact h.moves (by simp [hp]) (.inl rfl) flags rfl (accOk_of_zero rfl rfl)
  | decode =>
    obtain ⟨hp, ⟨-, rfl⟩ | ⟨-, -, -, rfl⟩⟩ := hr
    · exact h.moves (by simp [hp]) (.inr (.inr rfl)) flags rfl acc
    · exact h.moves (by simp [hp]) (.inr (.inl rfl)) flags rfl acc
  | endPass =>
    obtain ⟨hp, rfl⟩ | ⟨hp, rfl⟩ := hr
    · exact h.movesEmpty (by simp [hp]) .idle rfl (by decide) (queue (.inr (.inl hp))) (headerOk_of_phase .idle rfl (by decide))
        flags rfl acc
    · have hacc := accOk_flush acc
      rw [State.endEncode]
      rw [flush_frame] at hacc ⊢
      exact h.moves (by simp [hp]) (.inr (.inr rfl)) flags rfl hacc

theorem ne_ok_of_mem_ownFaults {i : Instr} {c : ErrCode} (h : c ∈ ownFaults i) : c ≠ .ok := by
  rintro rfl
  cases i <;> simp [ownFaults] at h

/-- Settles O56: each kind of step keeps the facts, since a command empties or fills OQ only in a phase that allows it, and a fault
records a code and the phase ERR together. -/
theorem stepKeepsTheSequencerFacts : Obligations.StepKeepsTheSequencerFacts := by
  unfold Obligations.StepKeepsTheSequencerFacts
  intro s t hs h
  refine step_keeps hs h (fun _ _ ⟨flags, queue, err, header, acc⟩ => ⟨flags, queue, err, header, acc⟩)
    (fun s _ => sequencerOk_cleared s) (fun _ => SequencerOk.internal) (fun _ => SequencerOk.dout) (fun _ b hs => hs.din b)
    (fun i s t hs hx => ?_) (fun s w hs _ => hs.cmdFault w (by decide))
  rcases exec_cases hx with ⟨-, rfl⟩ | ⟨-, hr⟩ | ⟨-, c, hc, rfl⟩
  · exact hs
  · exact sequencerOk_ran hs hr
  · exact cmdFault_eq_failed s i c ▸ hs.cmdFault _ (ne_ok_of_mem_ownFaults hc)

end Sys2Proof.Machine
end

section
/-! PROOFS. The count pass (45_header.md R197, R198): the sum of FREQ, ORIGLEN and IN_CNT grow together. -/

namespace Sys2Proof.Machine

variable {s t : State}

theorem sum_set_add_getElem (l : List Nat) {i : Nat} (hi : i < l.length) (v : Nat) : (l.set i v).sum + l[i] = l.sum + v := by
  have hsplit := List.sum_take_add_sum_drop l (i + 1)
  rw [List.sum_take_succ l i hi] at hsplit
  rw [List.sum_set, if_pos hi]
  omega

/-- One entry written changes the sum by what that entry changes. -/
theorem freqSum_setFreq (s : State) {a : Nat} (ha : a < 256) (v : Freq) :
    freqSum (s.setFreq a v) + (s.freqAt a).toNat = freqSum s + v.toNat := by
  have hset : freqSum (s.setFreq a v) = ((s.freq.toList.map BitVec.toNat).set a v.toNat).sum := by
    rw [freqSum, State.setFreq_freq, ← List.map_set]
    simp
  have hget : (s.freq.toList.map BitVec.toNat)[a]'(by simpa using ha) = (s.freqAt a).toNat := by simp [freqAt_of_lt s ha]
  rw [hset, ← hget, sum_set_add_getElem, freqSum]

theorem countOk_of_phase (p : Phase) (ht : t.phase = p) (hp : p ≠ .count) : CountOk t := fun h => absurd (ht.symm.trans h) hp

theorem freqSum_of_zero (h : t.freq = Vector.replicate 256 0#32) : freqSum t = 0 := by
  rw [freqSum, h, Vector.toList_replicate, List.map_replicate, List.sum_replicate]; rfl

theorem CountOk.din (h : CountOk s) (b : Byte) : CountOk (s.din b) := by
  have hd := dinStep s b
  generalize s.din b = t at hd
  cases hd with
  | counted hp hf =>
    intro _
    obtain ⟨hsum, hin⟩ := h hp
    have hset := freqSum_setFreq s b.isLt (s.freqAt b.toNat + 1#32)
    have hlt := freqSum_lt s
    have hone : (s.freqAt b.toNat + 1#32).toNat = (s.freqAt b.toNat).toNat + 1 := by bv_omega
    have hlen : (s.origLen + 1#64).toNat = s.origLen.toNat + 1 := by rw [hsum] at hlt; bv_omega
    refine ⟨?_, by dsimp only; rw [hin]⟩
    show freqSum (s.setFreq b.toNat _) = (s.origLen + 1#64).toNat
    omega
  | overflowed | uncoded => exact countOk_of_phase .err rfl (by decide)
  | packed hp => exact countOk_of_phase .encode (by simpa using hp) (by decide)
  | headerMore hp => rw [loadHdrByte_frame]; exact countOk_of_phase .rdhdr hp (by decide)
  | headerLast => exact countOk_of_phase .idle rfl (by decide)
  | decoded hp =>
    obtain ⟨_, _, _, _, e⟩ := decodeBeat_frame s b
    rw [e]
    split
    · exact countOk_of_phase .drain rfl (by decide)
    · exact countOk_of_phase .decode hp (by decide)
  | waits => exact h

theorem CountOk.internal (h : CountOk s) : CountOk s.internal := by
  have hi := internalStep s
  generalize s.internal = t at hi
  cases hi with
  | emits hp =>
    rw [emit1_eq]
    split
    · exact countOk_of_phase .drain rfl (by decide)
    · exact countOk_of_phase .decode hp (by decide)
  | drained => exact countOk_of_phase .idle rfl (by decide)
  | rests => exact h

theorem CountOk.dout (h : CountOk s) : CountOk s.dout := by
  cases hq : s.oq with
  | nil => rw [dout_of_empty hq]; exact h
  | cons b q => rw [dout_of_cons hq]; exact h

theorem countOk_ran {i : Instr} (h : CountOk s) (hr : Ran i s t) : CountOk t := by
  have idle : s.phase = .idle → t.phase = s.phase → CountOk t := fun hp ht => countOk_of_phase .idle (ht.trans hp) (by decide)
  cases i with
  | count => obtain ⟨-, rfl⟩ := hr; exact fun _ => ⟨freqSum_of_zero rfl, rfl⟩
  | rdsr a => obtain ⟨-, rfl⟩ := hr; exact h
  | rdf a | rdh a => obtain ⟨-, -, rfl⟩ := hr; exact h
  | rdn a sel => obtain ⟨-, -, -, rfl⟩ := hr; exact h
  | rdc a sel => obtain ⟨-, -, -, -, rfl⟩ := hr; exact h
  | nop | hbld => obtain ⟨hp, rfl⟩ := hr; exact idle hp rfl
  | build =>
    obtain ⟨hp, rfl⟩ := hr
    obtain ⟨_, _, _, _, e⟩ := built_frame s
    rw [e]
    exact idle hp rfl
  | wrlen a d | wrf a d | hext => obtain ⟨hp, -, rfl⟩ := hr; exact idle hp rfl
  | happ a | hins a | setroot a => obtain ⟨hp, -, -, rfl⟩ := hr; exact idle hp rfl
  | gencode => obtain ⟨hp, -, c, -, rfl⟩ := hr; exact idle hp rfl
  | nleaf a => obtain ⟨hp, -, -, -, rfl⟩ := hr; exact idle hp rfl
  | nmrg a b => obtain ⟨hp, -, -, -, -, rfl⟩ := hr; exact idle hp rfl
  | clr => obtain ⟨-, rfl⟩ := hr; exact countOk_of_phase .idle rfl (by decide)
  | rdhdr => obtain ⟨-, rfl⟩ := hr; exact countOk_of_phase .rdhdr rfl (by decide)
  | wrhdr => obtain ⟨-, rfl⟩ := hr; exact countOk_of_phase .drain rfl (by decide)
  | encode => obtain ⟨-, -, rfl⟩ := hr; exact countOk_of_phase .encode rfl (by decide)
  | decode =>
    obtain ⟨-, ⟨-, rfl⟩ | ⟨-, -, -, rfl⟩⟩ := hr
    · exact countOk_of_phase .drain rfl (by decide)
    · exact countOk_of_phase .decode rfl (by decide)
  | endPass =>
    obtain ⟨-, rfl⟩ | ⟨-, rfl⟩ := hr
    · exact countOk_of_phase .idle rfl (by decide)
    · exact countOk_of_phase .drain rfl (by decide)

/-- Settles O57: COUNT opens the pass with all three at 0, and the count beat alone stays in it and adds one to each. -/
theorem stepKeepsTheCountOfThePass : Obligations.StepKeepsTheCountOfThePass := by
  unfold Obligations.StepKeepsTheCountOfThePass
  intro s t hs h
  refine step_keeps hs h (fun _ _ hs => hs) (fun _ _ => countOk_of_phase .idle rfl (by decide)) (fun _ => CountOk.internal)
    (fun _ => CountOk.dout) (fun _ b hs => hs.din b) (fun i s t hs hx => ?_)
    (fun s w _ _ => countOk_of_phase .err (s.cmdFault_phase w _) (by decide))
  rcases exec_cases hx with ⟨-, rfl⟩ | ⟨-, hr⟩ | ⟨-, c, hc, rfl⟩
  · exact hs
  · exact countOk_ran hs hr
  · exact countOk_of_phase .err (failed_phase s i c) (by decide)

/-- Settles O59: at reset nothing is allocated, nothing queued, nothing held, and PHASE is IDLE. -/
theorem resetMeetsTheInvariants : Obligations.ResetMeetsTheInvariants := by
  unfold Obligations.ResetMeetsTheInvariants
  intro e
  refine ⟨forestOk_of_nil rfl rfl rfl, ?_, countOk_of_phase .idle rfl (by decide), fun h => by cases h⟩
  exact ⟨flagsOk_of_withdrawn rfl rfl, fun _ => rfl, errOk_of_phase .idle rfl (by decide) rfl,
    headerOk_of_phase .idle rfl (by decide), accOk_of_zero rfl rfl⟩

end Sys2Proof.Machine
end

section
/-! PROOFS. PHASE and the responses (10_state.md R41, R54, 30_encoding.md R91), step by step. -/

namespace Sys2Proof.Machine

variable {i : Instr} {s t : State}

/-! ## PHASE -/

/-- A command that ran was allowed, moved PHASE as its row of R41 says, and met that row's condition. -/
theorem ran_moves (hc : s.cmdReady = true) (hr : Ran i s t) :
    allowedIn i s.phase = true ∧ t.phase = commandMoves s i ∧ (i = .encode ∨ i = .decode → rowHolds s i = true) := by
  cases i with
  | nop | hbld => obtain ⟨hp, rfl⟩ := hr; exact ⟨hp ▸ rfl, rfl, by simp⟩
  | build => obtain ⟨hp, rfl⟩ := hr; obtain ⟨_, _, _, _, e⟩ := built_frame s; rw [e]; exact ⟨hp ▸ rfl, rfl, by simp⟩
  | clr => obtain ⟨hp | hp, rfl⟩ := hr <;> exact ⟨hp ▸ rfl, rfl, by simp⟩
  | rdsr a =>
    obtain ⟨-, rfl⟩ := hr
    refine ⟨?_, rfl, by simp⟩
    rcases (cmdReady_iff s).1 hc with hp | hp | hp | hp <;> exact hp ▸ rfl
  | rdf a | rdh a => obtain ⟨hp | hp, -, rfl⟩ := hr <;> exact ⟨hp ▸ rfl, rfl, by simp⟩
  | rdn a sel => obtain ⟨hp | hp, -, -, rfl⟩ := hr <;> exact ⟨hp ▸ rfl, rfl, by simp⟩
  | rdc a sel => obtain ⟨hp | hp, -, -, -, rfl⟩ := hr <;> exact ⟨hp ▸ rfl, rfl, by simp⟩
  | wrlen a d | wrf a d | hext => obtain ⟨hp, -, rfl⟩ := hr; exact ⟨hp ▸ rfl, rfl, by simp⟩
  | happ a | hins a | setroot a => obtain ⟨hp, -, -, rfl⟩ := hr; exact ⟨hp ▸ rfl, rfl, by simp⟩
  | nleaf a => obtain ⟨hp, -, -, -, rfl⟩ := hr; exact ⟨hp ▸ rfl, rfl, by simp⟩
  | nmrg a b => obtain ⟨hp, -, -, -, -, rfl⟩ := hr; exact ⟨hp ▸ rfl, rfl, by simp⟩
  | gencode => obtain ⟨hp, -, c, -, rfl⟩ := hr; exact ⟨hp ▸ rfl, rfl, by simp⟩
  | count | rdhdr | wrhdr => obtain ⟨hp, rfl⟩ := hr; exact ⟨hp ▸ rfl, rfl, by simp⟩
  | encode => obtain ⟨hp, hv, rfl⟩ := hr; exact ⟨hp ▸ rfl, rfl, fun _ => hv⟩
  | decode =>
    obtain ⟨hp, ⟨h0, rfl⟩ | ⟨h0, ht, hn, rfl⟩⟩ := hr
    · exact ⟨hp ▸ rfl, (if_pos h0).symm, fun _ => by simp [rowHolds, h0]⟩
    · exact ⟨hp ▸ rfl, (if_neg h0).symm, fun _ => by simp [rowHolds, ht, hn]⟩
  | endPass =>
    obtain ⟨hp, rfl⟩ | ⟨hp, rfl⟩ := hr
    · exact ⟨hp ▸ rfl, (if_pos hp).symm, by simp⟩
    · exact ⟨hp ▸ rfl, (if_neg (hp ▸ by decide)).symm, by simp⟩

/-- The commands that a row of R41 names and R96 allows in IDLE alone. -/
theorem idle_of_allowedIn {p : Phase} (hi : i = .count ∨ i = .rdhdr ∨ i = .wrhdr ∨ i = .encode ∨ i = .decode)
    (h : allowedIn i p = true) : p = .idle := by
  rcases hi with rfl | rfl | rfl | rfl | rfl <;> cases p <;> simp [allowedIn] at h ⊢

theorem allowedIn_endPass_iff (p : Phase) : allowedIn .endPass p = true ↔ p = .count ∨ p = .encode := by cases p <;> decide

theorem allowedIn_clr_iff (p : Phase) : allowedIn .clr p = true ↔ p = .idle ∨ p = .err := by cases p <;> decide

/-- A command that is allowed and meets the condition of its row of R41 runs. -/
theorem exec_of_rowHolds (hc : s.cmdReady = true) (ha : allowedIn i s.phase = true) (hrow : rowHolds s i = true) :
    ∃ u, exec i s = .next u ∧ Ran i s u := by
  cases i with
  | count | rdhdr | wrhdr =>
    have hp := idle_of_allowedIn (by simp) ha
    exact ⟨_, inPhases_idle hp _ _, hp, rfl⟩
  | encode =>
    have hp := idle_of_allowedIn (by simp) ha
    exact ⟨_, (inPhases_idle hp _ _).trans (require_pos hrow _ _ _ _), hp, hrow, rfl⟩
  | decode =>
    have hp := idle_of_allowedIn (by simp) ha
    by_cases h0 : s.origLen = 0#64
    · exact ⟨_, (inPhases_idle hp _ _).trans (if_pos h0), hp, .inl ⟨h0, rfl⟩⟩
    · obtain ⟨ht, hn⟩ : s.treeValid = true ∧ s.root ≠ NIL := by simpa [rowHolds, h0] using hrow
      exact ⟨_, (inPhases_idle hp _ _).trans ((if_neg h0).trans ((require_pos ht _ _ _ _).trans (require_pos hn _ _ _ _))), hp,
        .inr ⟨h0, ht, hn, rfl⟩⟩
  | endPass =>
    have hp := (allowedIn_endPass_iff _).1 ha
    have hrun := inPhases_pos hc ((countOrEncode_iff _).2 hp) .endPass
    rcases hp with hp | hp
    · exact ⟨_, hrun _, .inl ⟨hp, if_pos hp⟩⟩
    · exact ⟨_, hrun _, .inr ⟨hp, if_neg (hp ▸ by decide)⟩⟩
  | clr =>
    have hp := (allowedIn_clr_iff _).1 ha
    exact ⟨_, inPhases_idleOrErr hp _ _, hp, rfl⟩
  | nop | rdsr | wrlen | rdf | wrf | build | gencode | nleaf | nmrg | happ | hins | hext | hbld | setroot | rdn | rdh | rdc =>
    cases hrow

theorem din_phase (s : State) (b : Byte) : (s.din b).phase = dinMoves s b := by
  have h := dinStep s b
  unfold dinMoves
  generalize s.din b = t at h ⊢
  cases h with
  | counted hp hf => rw [hp]; exact hp.trans (if_neg hf).symm
  | overflowed hp hf => rw [hp]; exact (if_pos hf).symm
  | packed hp hc => rw [hp]; exact ((appendBits_phase _ _).trans hp).trans (if_neg hc).symm
  | uncoded hp hc => rw [hp]; exact (if_pos hc).symm
  | headerMore hp hi => rw [hp, loadHdrByte_frame]; exact hp.trans (if_neg hi).symm
  | headerLast hp hi => rw [hp]; exact (if_pos hi).symm
  | decoded hp hr =>
    obtain ⟨_, _, _, _, e⟩ := decodeBeat_frame s b
    rw [e, hp]
    simp [hr]
  | waits hr => cases hp : s.phase <;> simp_all [State.dinReady]

theorem internal_phase (s : State) : s.internal.phase = internalMoves s := by
  have h := internalStep s
  generalize s.internal = t at h
  unfold internalMoves
  cases h with
  | emits hp hr => rw [emit1_eq, hp]; simp [hr]
  | drained hp hq => rw [hp]; exact (if_pos hq).symm
  | rests he hd => cases hp : s.phase <;> simp_all

theorem cmdStep_of_not_ready (h : s.cmdReady = false) (w : CmdWord) : cmdStep w s = .next s := by
  cases hd : decode w with
  | instr i => rw [cmdStep_of_instr hd, exec_of_not_ready h]
  | illegal r => rw [cmdStep_of_illegal hd, h]; rfl

/-- Settles O16: a command that is allowed and meets its row's condition runs, one that runs moves PHASE by the table, and any other
fails one of its checks. -/
theorem phaseChangesOnlyAsTheTableSays : Obligations.PhaseChangesOnlyAsTheTableSays := by
  unfold Obligations.PhaseChangesOnlyAsTheTableSays
  refine ⟨fun i s t hc hx => ?_, fun s w hc hw => ?_, fun s w hc => cmdStep_of_not_ready hc w, din_phase, internal_phase,
    State.dout_phase, fun _ => rfl⟩
  · by_cases hrow : allowedIn i s.phase = true ∧ rowHolds s i = true
    · obtain ⟨u, hu, hr⟩ := exec_of_rowHolds hc hrow.1 hrow.2
      cases hu.symm.trans hx
      exact .inl (ran_moves hc hr)
    rcases exec_cases hx with ⟨hwait, -⟩ | ⟨-, hr⟩ | ⟨-, c, hmem, rfl⟩
    · exact absurd (hwait.symm.trans hc) (by decide)
    · exact .inl (ran_moves hc hr)
    · exact .inr ⟨hrow, failed_phase s i c, c, hmem, rfl⟩
  · cases hd : decode w with
    | instr i => exact absurd hd (hw i)
    | illegal r => exact ⟨_, (cmdStep_of_illegal hd s).trans (if_pos hc), s.cmdFault_phase _ _⟩

/-! ## Responses -/

/-- `t` has answered one response word more than `s`, and pulses it (R54, R90). -/
def Answers (s t : State) : Prop := ∃ r, t.rsp = some r ∧ t.rspLog = s.rspLog ++ [r]

theorem answers_failed (s : State) (i : Instr) (c : ErrCode) : Answers s (failed s i c) := by
  unfold failed
  split <;> exact ⟨_, rfl, rfl⟩

/-- A command of R91's list that does not fault is not answered in its own step. -/
theorem ran_deferred (hd : isDeferred s i = true) (hr : Ran i s t) :
    t.phase ≠ .err ∧ t.rsp = s.rsp ∧ t.rspLog = s.rspLog := by
  cases i with
  | rdhdr => obtain ⟨-, rfl⟩ := hr; exact ⟨by simp, rfl, rfl⟩
  | wrhdr => obtain ⟨-, rfl⟩ := hr; rw [headerWritten_eq]; exact ⟨by simp, rfl, rfl⟩
  | decode => obtain ⟨-, ⟨-, rfl⟩ | ⟨-, -, -, rfl⟩⟩ := hr <;> exact ⟨by simp [State.openDecode], rfl, rfl⟩
  | endPass =>
    have hp : s.phase = .encode := by simpa [isDeferred] using hd
    obtain ⟨hp', -⟩ | ⟨-, rfl⟩ := hr
    · exact absurd (hp.symm.trans hp') (by decide)
    · exact ⟨by simp [State.endEncode], s.flush_rsp, s.flush_rspLog⟩
  | _ => cases hd

/-- Every other command that runs is answered at once. -/
theorem ran_answers (hd : isDeferred s i = false) (hr : Ran i s t) : Answers s t := by
  cases i with
  | rdhdr | wrhdr | decode => cases hd
  | endPass =>
    obtain ⟨-, rfl⟩ | ⟨hp, -⟩ := hr
    · exact ⟨_, rfl, rfl⟩
    · simp [isDeferred, hp] at hd
  | build => obtain ⟨-, rfl⟩ := hr; obtain ⟨_, _, _, _, e⟩ := built_frame s; rw [e]; exact ⟨_, rfl, rfl⟩
  | nop | clr | rdsr a | count | hbld => obtain ⟨-, rfl⟩ := hr; exact ⟨_, rfl, rfl⟩
  | wrlen a d | rdf a | wrf a d | rdh a | hext | encode => obtain ⟨-, -, rfl⟩ := hr; exact ⟨_, rfl, rfl⟩
  | rdn a sel | happ a | hins a | setroot a => obtain ⟨-, -, -, rfl⟩ := hr; exact ⟨_, rfl, rfl⟩
  | nleaf a | rdc a sel => obtain ⟨-, -, -, -, rfl⟩ := hr; exact ⟨_, rfl, rfl⟩
  | nmrg a b => obtain ⟨-, -, -, -, -, rfl⟩ := hr; exact ⟨_, rfl, rfl⟩
  | gencode => obtain ⟨-, -, c, -, rfl⟩ := hr; exact ⟨_, rfl, rfl⟩

/-- A header byte alone is answered, the last one (R206). -/
theorem din_rspLog (s : State) (b : Byte) :
    (s.din b).rspLog = if s.phase = .rdhdr ∧ s.inCnt + 1#64 = 1032#64 then s.rspLog ++ [0#36] else s.rspLog := by
  have h := dinStep s b
  generalize s.din b = t at h
  cases h with
  | counted hp | overflowed hp | uncoded hp => exact (if_neg (by simp [hp])).symm
  | packed hp => rw [if_neg (by simp [hp]), appendBits_frame]
  | headerMore hp hi => rw [if_neg (by simp [hi]), loadHdrByte_frame]
  | headerLast hp hi => rw [if_pos ⟨hp, hi⟩, loadHdrByte_frame]; rfl
  | decoded hp => obtain ⟨_, _, _, _, e⟩ := decodeBeat_frame s b; rw [if_neg (by simp [hp]), e]
  | waits hr =>
    have hp : s.phase ≠ .rdhdr := by intro hp; simp [State.dinReady, hp] at hr
    rw [if_neg fun h => hp h.1]

/-- Of the internal steps DrainDone alone is answered (43_bitpack.md R171). -/
theorem internal_rspLog (s : State) :
    s.internal.rspLog = if s.phase = .drain ∧ s.oq = [] then s.rspLog ++ [0#36] else s.rspLog := by
  have h := internalStep s
  generalize s.internal = t at h
  cases h with
  | emits hp => rw [if_neg (by simp [hp]), emit1_eq]
  | drained hp hq => rw [if_pos ⟨hp, hq⟩]; rfl
  | rests _ hd => rw [if_neg hd]

/-- Settles O17: a command that fails answers, and one that runs answers unless its response is deferred. -/
theorem oneResponsePerCommand : Obligations.OneResponsePerCommand := by
  unfold Obligations.OneResponsePerCommand
  refine ⟨fun i s t hc hx => ?_, fun i s t hc hx hd _ hne => ?_, din_rspLog, internal_rspLog, State.dout_rspLog⟩
  all_goals rcases exec_cases hx with ⟨hwait, -⟩ | ⟨-, hr⟩ | ⟨-, c, -, rfl⟩
  · exact absurd (hwait.symm.trans hc) (by decide)
  · cases hd : isDeferred s i with
    | true => exact .inr ⟨rfl, ran_deferred hd hr⟩
    | false => exact .inl (ran_answers hd hr)
  · exact .inl (answers_failed s i c)
  · exact absurd (hwait.symm.trans hc) (by decide)
  · exact (ran_deferred hd hr).2
  · exact absurd (failed_phase s i c) hne

end Sys2Proof.Machine
end

section
/-! PROOFS. Phase ERR (60_exceptions.md R237, R247, R251): what an edge can change there. -/

namespace Sys2Proof.Machine

variable {i : Instr} {s t : State}

/-! ## Commands in phase ERR -/

theorem ran_read (hread : isRead i = true) (hr : Ran i s t) : ∃ d, t = okWith s d := by
  cases i with
  | rdsr a => exact ⟨_, hr.2⟩
  | rdf a | rdh a => obtain ⟨-, -, e⟩ := hr; exact ⟨_, e⟩
  | rdn a sel => obtain ⟨-, -, -, e⟩ := hr; exact ⟨_, e⟩
  | rdc a sel => obtain ⟨-, -, -, -, e⟩ := hr; exact ⟨_, e⟩
  | _ => cases hread

/-- The column ERR of R96. -/
theorem read_or_clr_of_allowedIn_err (h : allowedIn i .err = true) : isRead i = true ∨ i = .clr := by
  cases i <;> simp [allowedIn, isRead] at h ⊢

/-- In phase ERR a word other than that of CLR is answered, and that is all (R247). -/
theorem cmdStep_of_err {w : CmdWord} (hp : s.phase = .err) (hw : decode w ≠ .instr .clr) (h : cmdStep w s = .next t) :
    ∃ c d, t = answered s c d := by
  have hc : s.cmdReady = true := (cmdReady_iff s).2 (by simp [hp])
  cases hd : decode w with
  | illegal r =>
    rw [cmdStep_of_illegal hd, if_pos hc, State.cmdFault, s.recordFault_of_err _ _ hp] at h
    cases h
    exact ⟨_, _, rfl⟩
  | instr i =>
    rw [cmdStep_of_instr hd] at h
    rcases exec_cases h with ⟨hwait, -⟩ | ⟨-, hr⟩ | ⟨-, c, -, rfl⟩
    · exact absurd (hwait.symm.trans hc) (by decide)
    · obtain ⟨hallowed, -⟩ := ran_moves hc hr
      rw [hp] at hallowed
      rcases read_or_clr_of_allowedIn_err hallowed with hread | rfl
      · obtain ⟨d, rfl⟩ := ran_read hread hr
        exact ⟨_, _, rfl⟩
      · exact absurd hd hw
    · exact ⟨_, _, failed_of_err hp i c⟩

theorem formatN_eq_instr {w : CmdWord} {i j : Instr} :
    formatN w i = .instr j ↔ (aField w = 0#10 ∧ dField w = 0#32) ∧ i = j := by
  unfold formatN; split <;> simp_all

theorem formatA_eq_instr {w : CmdWord} {mk : Nat → Instr} {j : Instr} :
    formatA w mk = .instr j ↔ dField w = 0#32 ∧ mk (aField w).toNat = j := by
  unfold formatA; split <;> simp_all

theorem formatAD_eq_instr {w : CmdWord} {mk : Nat → Data → Instr} {j : Instr} :
    formatAD w mk = .instr j ↔ mk (aField w).toNat (dField w) = j := by
  simp [formatAD]

theorem formatAB_eq_instr {w : CmdWord} {mk : Nat → Nat → Instr} {j : Instr} :
    formatAB w mk = .instr j ↔ w.extractLsb' 10 22 = 0#22 ∧ mk (aField w).toNat (bField w).toNat = j := by
  unfold formatAB; split <;> simp_all

theorem formatAS_eq_instr {w : CmdWord} {mk : Nat → Nat → Instr} {j : Instr} :
    formatAS w mk = .instr j ↔ w.extractLsb' 4 28 = 0#28 ∧ mk (aField w).toNat (sField w).toNat = j := by
  unfold formatAS; split <;> simp_all

/-- CLR has one word (30_encoding.md R93, R95). -/
theorem eq_of_decode_eq_clr {w : CmdWord} (h : decode w = .instr .clr) : w = 0x080000000000#48 := by
  unfold decode at h
  split at h <;> simp [formatN_eq_instr, formatA_eq_instr, formatAD_eq_instr, formatAB_eq_instr, formatAS_eq_instr] at h
  rename_i hop
  obtain ⟨ha, hd⟩ := h
  have ha := congrArg BitVec.toNat ha
  have hd := congrArg BitVec.toNat hd
  have hlt := w.isLt
  simp only [opField, aField, dField, BitVec.extractLsb'_toNat, Nat.shiftRight_eq_div_pow, BitVec.toNat_ofNat] at hop ha hd
  apply BitVec.eq_of_toNat_eq
  simp only [BitVec.toNat_ofNat]
  omega

/-! ## The edge -/

/-- From `s` to `t` the host may have taken the head of OQ; else at most responses and coming edges differ. -/
def OnlyTaken (s t : State) : Prop :=
  t = { s with oq := t.oq, doutLog := t.doutLog, rsp := t.rsp, rspLog := t.rspLog, edges := t.edges } ∧
    ((t.oq = s.oq ∧ t.doutLog = s.doutLog) ∨ ∃ b, s.oq = b :: t.oq ∧ t.doutLog = s.doutLog ++ [b])

theorem onlyTaken_doutAt (s : State) (rest : List Edge) (r : Bool) : OnlyTaken s ((s.atEdge rest).doutAt r) := by
  cases r with
  | false => exact ⟨rfl, .inl ⟨rfl, rfl⟩⟩
  | true =>
    rw [State.doutAt, if_pos rfl]
    cases hq : s.oq with
    | nil => rw [dout_of_empty (s := s.atEdge rest) hq]; exact ⟨rfl, .inl ⟨rfl, rfl⟩⟩
    | cons b q => rw [dout_of_cons (s := s.atEdge rest) hq]; exact ⟨rfl, .inr ⟨b, hq, rfl⟩⟩

theorem OnlyTaken.answered {u : State} (h : OnlyTaken s u) (c : BitVec 4) (d : Data) : OnlyTaken s (answered u c d) :=
  ⟨congrArg (Machine.answered · c d) h.1, h.2⟩

/-- Settles O15: in phase ERR no byte is accepted, no internal step is enabled, and a command but CLR only answers. -/
theorem firstFaultIsKept : Obligations.FirstFaultIsKept := by
  unfold Obligations.FirstFaultIsKept
  intro s t hp hreset hclr h
  have quiet : ∀ rest, (s.atEdge rest).internal = s.atEdge rest := fun rest =>
    internal_of_none (by simp [hp]) (by simp [hp])
  cases he : s.edges with
  | nil =>
    rw [step_of_no_edge he, quiet] at h
    cases h
    exact onlyTaken_doutAt s [] false
  | cons e rest =>
    cases e with
    | reset => simp [he] at hreset
    | internal =>
      rw [step_of_internal he, quiet] at h
      cases h
      exact onlyTaken_doutAt s rest false
    | ports r b w =>
      have htaken := onlyTaken_doutAt s rest r
      have hphase : ((s.atEdge rest).doutAt r).phase = .err := by cases r <;> simp [State.doutAt, hp]
      have hdin : ((s.atEdge rest).doutAt r).dinAt b = (s.atEdge rest).doutAt r := by
        cases b with
        | none => rfl
        | some b => exact din_of_not_ready (by rw [State.dinReady, hphase]) b
      rw [step_of_ports he, hdin] at h
      cases w with
      | none => cases h; exact htaken
      | some w =>
        have hw : decode w ≠ .instr .clr := fun hd => hclr r b rest (eq_of_decode_eq_clr hd ▸ he)
        rw [cmdAt, if_pos ((cmdReady_iff s).2 (by simp [hp]))] at h
        obtain ⟨c, d, rfl⟩ := cmdStep_of_err hphase hw h
        exact htaken.answered c d

end Sys2Proof.Machine
end

section
/-! PROOFS. The ready pins, the edge that ends a count pass, reset and CLR, and the status registers (10_state.md R44, R45, R49, R50,
R55). -/

namespace Sys2Proof.Machine

/-! ## The ready pins -/

/-- Settles O7: where `cmd_ready` is low the word waits, and the edge holds no other step. -/
theorem presentedCommandWaits : Obligations.PresentedCommandWaits := by
  unfold Obligations.PresentedCommandWaits
  refine ⟨cmdReady_iff, fun s w rest he hp => step_of_no_command he (.inr ?_)⟩
  rcases hp with hp | hp | hp <;> simp [State.cmdReady, hp]

/-- `din_ready` by phase (10_state.md R50). -/
theorem dinReady_iff (s : State) : s.dinReady = true ↔ s.phase = .count ∨ s.phase = .encode ∨ s.phase = .rdhdr ∨
    (s.phase = .decode ∧ (s.nodeAt s.root.toNat).left ≠ NIL) := by
  have hleaf : s.rootIsLeaf = false ↔ (s.nodeAt s.root.toNat).left ≠ NIL := by simp [State.rootIsLeaf, Node.isLeaf]
  unfold State.dinReady
  cases s.phase <;> simp [hleaf]

/-- Settles O8: where `din_ready` is low the byte waits, and the edge holds no other step. -/
theorem presentedByteWaits : Obligations.PresentedByteWaits := by
  unfold Obligations.PresentedByteWaits
  refine ⟨dinReady_iff, fun s b rest he hr => ?_⟩
  rw [step_of_no_command he (.inl rfl)]
  exact congrArg _ (din_of_not_ready (s := s.atEdge rest) hr b)

/-! ## A byte and END at one edge -/

theorem exec_endPass_of_count {s : State} (hp : s.phase = .count) :
    exec .endPass s = .next (okWith { s with phase := .idle } 0#32) := by
  have hrun := inPhases_pos (allowed := countOrEncode) (s := s) (by simp [State.cmdReady, hp]) (by rw [hp]; rfl) .endPass
  exact (hrun _).trans (congrArg _ (if_pos hp))

theorem exec_endPass_of_err {s : State} (hp : s.phase = .err) : exec .endPass s = .next (refusedWith s .seq) := by
  have hrun := inPhases_neg (allowed := countOrEncode) (s := s) (by simp [State.cmdReady, hp]) (by rw [hp]; rfl) .endPass
  exact (hrun _).trans (congrArg _ (failed_of_err hp _ _))

/-- Settles O9: the edge is the count beat, then END in the phase the beat leaves. -/
theorem byteBelongsToThePassThatEndsAtItsEdge : Obligations.ByteBelongsToThePassThatEndsAtItsEdge := by
  unfold Obligations.ByteBelongsToThePassThatEndsAtItsEdge
  intro s b rest hp he
  have hend : decode 0x240000000000#48 = .instr .endPass := by decide
  have hstep : step s = exec .endPass ((s.atEdge rest).countBeat b) := by
    rw [step_of_command he (by simp [State.cmdReady, hp]), cmdStep_of_instr hend]
    exact congrArg _ (din_of_count (s := s.atEdge rest) hp b)
  rw [hstep]
  constructor
  · intro hf
    rw [countBeat_counts (s := s.atEdge rest) hf, exec_endPass_of_count (by exact hp)]
    rfl
  · intro hf
    rw [countBeat_overflows (s := s.atEdge rest) (by simp [hp]) hf, exec_endPass_of_err rfl]
    rfl

/-! ## Reset and CLR -/

theorem freqAt_cleared (s : State) (a : Nat) : s.cleared.freqAt a = 0#32 := freqAt_reset a

/-- Settles O10: the edge does `cleared`, every field of which is that of the reset state. -/
theorem resetEdgeGivesTheResetValues : Obligations.ResetEdgeGivesTheResetValues := by
  unfold Obligations.ResetEdgeGivesTheResetValues
  intro s rest he
  exact ⟨_, step_of_reset he, fun a _ => freqAt_cleared _ a, by and_intros <;> rfl⟩

theorem wrongPhase_clr : WrongPhase .clr := by
  intro s hc ha
  have hp : idleOrErr s.phase = false := by
    rw [← Bool.not_eq_true, idleOrErr_iff, ← allowedIn_clr_iff, ha]; decide
  exact inPhases_neg hc hp _ _

/-- Settles O20: in its two phases CLR does `cleared` and answers. -/
theorem clrReturnsToTheResetState : Obligations.ClrReturnsToTheResetState := by
  unfold Obligations.ClrReturnsToTheResetState
  refine ⟨fun s hp => ?_, wrongPhase_clr⟩
  exact ⟨okWith s.cleared 0#32, inPhases_idleOrErr hp _ _, fun a _ => freqAt_cleared s a, by and_intros <;> rfl⟩

/-! ## Status registers -/

theorem toNat_low (v : Count) : (low v).toNat = v.toNat % 2 ^ 32 := by
  rw [low, BitVec.extractLsb'_toNat, Nat.shiftRight_zero]

theorem toNat_high (v : Count) : (high v).toNat = v.toNat / 2 ^ 32 := by
  have hlt := v.isLt
  rw [high, BitVec.extractLsb'_toNat, Nat.shiftRight_eq_div_pow]
  omega

theorem toNat_index_register (n : Idx) : (n.setWidth 32).toNat = n.toNat := by
  have hlt := n.isLt
  rw [BitVec.toNat_setWidth]
  omega

/-- Settles O21: RDSR answers in every accepting phase, and each register is its row of R44. -/
theorem rdsrReadsTheStatusRegisters : Obligations.RdsrReadsTheStatusRegisters := by
  unfold Obligations.RdsrReadsTheStatusRegisters
  refine ⟨fun s a hc ha => ?_, fun s a hc ha => ?_, fun s => ?_, rfl⟩
  · exact (inPhases_anyAccepting hc _ _).trans (require_pos ha _ _ _ _)
  · exact (inPhases_anyAccepting hc _ _).trans (require_neg (by omega) _ _ _ _)
  · refine ⟨rfl, rfl, rfl, toNat_low _, toNat_high _, toNat_index_register _, fun h => ?_, fun h => ?_, toNat_index_register _,
      toNat_low _, toNat_high _, toNat_low _, toNat_high _, toNat_low _, toNat_high _, toNat_index_register _⟩
    all_goals
      simp only [State.sr, BitVec.toNat_ofNat]
      omega

/-- STATUS at the width that its fields add up to. -/
def State.statusFields (s : State) : BitVec (8 + 8 + 3 + 1 + 1 + 1 + 1 + 1 + 4 + 4) := s.status

theorem extractLsb'_sr_one (s : State) (i n : Nat) : (s.sr 1).extractLsb' i n = s.statusFields.extractLsb' i n := rfl

theorem getLsbD_sr_one (s : State) (i : Nat) : (s.sr 1).getLsbD i = s.statusFields.getLsbD i := rfl

/-- The fields of several bits: those below are left away, those above do not reach in. -/
theorem status_words (s : State) :
    (s.sr 1).extractLsb' 0 4 = s.phase.toBits ∧ (s.sr 1).extractLsb' 4 4 = s.errCode.toBits ∧
      (s.sr 1).extractLsb' 13 3 = s.accCnt ∧ (s.sr 1).extractLsb' 16 8 = s.acc := by
  simp only [extractLsb'_sr_one]
  unfold State.statusFields State.status
  refine ⟨?_, ?_, ?_, ?_⟩
  all_goals
    repeat rw [BitVec.extractLsb'_append_eq_of_le (by decide)]
    rw [BitVec.extractLsb'_append_eq_of_add_le (by decide), BitVec.extractLsb'_eq_self]

/-- The bits above the fields. -/
theorem status_unused (s : State) : (s.sr 1).extractLsb' 24 8 = 0#8 := by
  rw [extractLsb'_sr_one]
  unfold State.statusFields State.status
  repeat rw [BitVec.extractLsb'_append_eq_of_le (by decide)]
  rfl

/-- The fields of one bit. -/
theorem status_bits (s : State) :
    (s.sr 1).getLsbD 8 = s.treeValid ∧ (s.sr 1).getLsbD 9 = s.codeValid ∧ (s.sr 1).getLsbD 10 = s.rootNil ∧
      (s.sr 1).getLsbD 11 = s.rootLeaf ∧ (s.sr 1).getLsbD 12 = s.doutValid := by
  simp only [getLsbD_sr_one]
  unfold State.statusFields State.status
  refine ⟨?_, ?_, ?_, ?_, ?_⟩
  all_goals
    repeat rw [BitVec.getLsbD_append, if_neg (by decide)]
    rw [BitVec.getLsbD_append, if_pos (by decide)]
    exact BitVec.getLsbD_ofBool _ _

/-- Settles O22: each field is cut out of the concatenation that is STATUS. -/
theorem statusWordFields : Obligations.StatusWordFields := by
  unfold Obligations.StatusWordFields
  refine ⟨fun s => ?_, rfl⟩
  obtain ⟨phase, errCode, accCnt, acc⟩ := status_words s
  obtain ⟨treeValid, codeValid, rootNil, rootLeaf, doutValid⟩ := status_bits s
  refine ⟨phase, errCode, treeValid, codeValid, ?_, ?_, ?_, accCnt, acc, status_unused s⟩
  · rw [rootNil, State.rootNil, beq_iff_eq]
  · rw [rootLeaf]; simp [State.rootLeaf, State.rootNil, State.rootIsLeaf, Node.isLeaf]
  · rw [doutValid]; simp [State.doutValid]

end Sys2Proof.Machine
end

section
/-! PROOFS. The container header (20_memory.md R64, 45_header.md R200, R201, R206): what WRHDR pushes, and that reading it back gives
the length and the table it was written from. -/

namespace Sys2Proof.Machine

/-! ## The bytes of a header -/

/-- Byte `i` of the header is `HdrByte(i)` (R200). -/
theorem getElem?_header (e : Endian) (s : State) {i : Nat} (hi : i < 1032) : (s.header e)[i]? = some (hdrByte e s i) := by
  simp [State.header, hi]

/-- The first eight bytes are those of ORIGLEN (R200). -/
theorem hdrByte_origLen (e : Endian) (s : State) {j : Nat} (hj : j < 8) :
    hdrByte e s j = s.origLen.extractLsb' (headerLsb e 8 j) 8 := if_pos hj

/-- Four bytes follow for each entry of FREQ (R200). -/
theorem hdrByte_freqAt (e : Endian) (s : State) (a : Nat) {j : Nat} (hj : j < 4) :
    hdrByte e s (8 + 4 * a + j) = (s.freqAt a).extractLsb' (headerLsb e 4 j) 8 := by
  have ha : (8 + 4 * a + j - 8) / 4 = a := by omega
  have hb : (8 + 4 * a + j - 8) % 4 = j := by omega
  rw [hdrByte, if_neg (by omega), ha, hb]

/-- The place of a header byte in its integer, in the words of R64. -/
theorem headerLsb_eq (e : Endian) (n j : Nat) : headerLsb e n j = 8 * if e = .little then j else n - 1 - j := by
  cases e <;> rfl

/-- A command that `exec` runs behind the phase test of its row of R96. -/
theorem wrongPhase_of_inPhases {allowed : Phase → Bool} {i : Instr} {rest : State → Out}
    (hexec : ∀ s, exec i s = inPhases allowed i s (rest s)) (hrow : ∀ p, allowedIn i p = allowed p) : WrongPhase i :=
  fun s hready hwrong => (hexec s).trans (inPhases_neg hready ((hrow s.phase).symm.trans hwrong) i _)

theorem exec_wrhdr_of_idle {s : State} (hp : s.phase = .idle) :
    exec .wrhdr s = .next { s with oq := s.oq ++ s.header s.hdrEndian, outCnt := 1032#64, phase := .drain } :=
  (inPhases_idle hp _ _).trans (congrArg _ (headerWritten_eq _ _))

/-- Settles O31: the bytes pushed are the header, each cut out of its integer at its place. -/
theorem wrhdrPushesTheHeader : Obligations.WrhdrPushesTheHeader := by
  unfold Obligations.WrhdrPushesTheHeader
  refine ⟨fun s hp => ⟨s.header s.hdrEndian, exec_wrhdr_of_idle hp, length_header _ _, fun j hj => ?_, fun a j ha hj => ?_⟩,
    wrongPhase_of_inPhases (fun _ => rfl) fun p => by cases p <;> rfl⟩
  · rw [getElem?_header _ _ (by omega), hdrByte_origLen _ _ hj, headerLsb_eq, BitVec.extractLsb', Nat.shiftRight_eq_div_pow]
  · rw [getElem?_header _ _ (by omega), hdrByte_freqAt _ _ _ hj, headerLsb_eq, BitVec.extractLsb', Nat.shiftRight_eq_div_pow]

/-! ## One byte of an integer -/

/-- The bytes of an integer do not overlap, and no two have one place (R64). -/
theorem headerLsb_apart (e : Endian) {n i j : Nat} (hi : i < n) (hj : j < n) (hij : i ≠ j) :
    headerLsb e n i + 8 ≤ headerLsb e n j ∨ headerLsb e n j + 8 ≤ headerLsb e n i := by
  cases e <;> simp only [headerLsb] <;> omega

/-- Every bit of an integer of `n` bytes is in one of them (R64). -/
theorem exists_headerLsb (e : Endian) {n k : Nat} (hk : k < 8 * n) :
    ∃ j < n, headerLsb e n j ≤ k ∧ k < headerLsb e n j + 8 := by
  cases e with
  | little => exact ⟨k / 8, by simp only [headerLsb]; omega⟩
  | big => exact ⟨n - 1 - k / 8, by simp only [headerLsb]; omega⟩

theorem headerLsb_le (e : Endian) {n j : Nat} (hj : j < n) : headerLsb e n j + 8 ≤ 8 * n := by
  cases e <;> simp only [headerLsb] <;> omega

section Byte

variable {w : Nat} (v : BitVec w) {lo lo' : Nat} (b : Byte)

/-- The byte written is read back. -/
theorem extractLsb'_withByte_self (h : lo + 8 ≤ w) : (withByte v lo b).extractLsb' lo 8 = b := by
  apply BitVec.eq_of_getLsbD_eq
  intro k hk
  rw [BitVec.getLsbD_extractLsb', withByte_bit v lo b (by omega), if_pos (by omega), Nat.add_sub_cancel_left]
  simp [hk]

/-- A byte that does not overlap the one written stays. -/
theorem extractLsb'_withByte_apart (h : lo' + 8 ≤ w) (hapart : lo + 8 ≤ lo' ∨ lo' + 8 ≤ lo) :
    (withByte v lo b).extractLsb' lo' 8 = v.extractLsb' lo' 8 := by
  apply BitVec.eq_of_getLsbD_eq
  intro k hk
  rw [BitVec.getLsbD_extractLsb', BitVec.getLsbD_extractLsb', withByte_bit v lo b (by omega), if_neg (by omega)]

/-- An integer of `n` bytes is given by its bytes. -/
theorem eq_of_headerBytes (e : Endian) {n : Nat} {v v' : BitVec w} (hw : w = 8 * n)
    (h : ∀ j < n, v.extractLsb' (headerLsb e n j) 8 = v'.extractLsb' (headerLsb e n j) 8) : v = v' := by
  apply BitVec.eq_of_getLsbD_eq
  intro k hk
  obtain ⟨j, hj, hlo, hhi⟩ := exists_headerLsb e (hw ▸ hk)
  have hbit := congrArg (BitVec.getLsbD · (k - headerLsb e n j)) (h j hj)
  have hin : k - headerLsb e n j < 8 := by omega
  simpa only [BitVec.getLsbD_extractLsb', hin, decide_true, Bool.true_and, Nat.add_sub_cancel' hlo] using hbit

end Byte

/-! ## One byte of the header -/

section Load

variable (e : Endian) (s : State) (b : Byte)

theorem loadHdrByte_origLen {j : Nat} (hj : j < 8) :
    s.loadHdrByte e j b = { s with origLen := withByte s.origLen (headerLsb e 8 j) b } := if_pos hj

theorem loadHdrByte_freqAt (a : Nat) {j : Nat} (hj : j < 4) :
    s.loadHdrByte e (8 + 4 * a + j) b = s.setFreq a (withByte (s.freqAt a) (headerLsb e 4 j) b) := by
  have ha : (8 + 4 * a + j - 8) / 4 = a := by omega
  have hb : (8 + 4 * a + j - 8) % 4 = j := by omega
  rw [State.loadHdrByte, if_neg (by omega), ha, hb]

/-- A header byte is one of ORIGLEN or one of a FREQ entry (R200). -/
theorem headerByte_cases {i : Nat} (hi : i < 1032) : i < 8 ∨ ∃ a < 256, ∃ j < 4, i = 8 + 4 * a + j := by
  by_cases h : i < 8
  · exact .inl h
  · exact .inr ⟨(i - 8) / 4, by omega, (i - 8) % 4, by omega, by omega⟩

/-- The header byte written is read back (R206). -/
theorem hdrByte_loadHdrByte_self {i : Nat} (hi : i < 1032) : hdrByte e (s.loadHdrByte e i b) i = b := by
  rcases headerByte_cases hi with hi | ⟨a, ha, j, hj, rfl⟩
  · rw [hdrByte_origLen _ _ hi, loadHdrByte_origLen _ _ _ hi]
    exact extractLsb'_withByte_self _ _ (headerLsb_le e hi)
  · rw [hdrByte_freqAt _ _ _ hj, loadHdrByte_freqAt _ _ _ _ hj, freqAt_setFreq_self _ ha]
    exact extractLsb'_withByte_self _ _ (headerLsb_le e hj)

/-- Every other header byte stays (R206). -/
theorem hdrByte_loadHdrByte_ne {i k : Nat} (hi : i < 1032) (hk : k < 1032) (hki : k ≠ i) :
    hdrByte e (s.loadHdrByte e i b) k = hdrByte e s k := by
  rcases headerByte_cases hi with hi | ⟨a, ha, j, hj, rfl⟩
  · rw [loadHdrByte_origLen _ _ _ hi]
    rcases headerByte_cases hk with hk | ⟨a', -, j', hj', rfl⟩
    · rw [hdrByte_origLen _ _ hk, hdrByte_origLen _ _ hk]
      exact extractLsb'_withByte_apart _ _ (headerLsb_le e hk) (headerLsb_apart e hi hk hki.symm)
    · rw [hdrByte_freqAt _ _ _ hj', hdrByte_freqAt _ _ _ hj']; rfl
  · rw [loadHdrByte_freqAt _ _ _ _ hj]
    rcases headerByte_cases hk with hk | ⟨a', -, j', hj', rfl⟩
    · rw [hdrByte_origLen _ _ hk, hdrByte_origLen _ _ hk]; rfl
    rw [hdrByte_freqAt _ _ _ hj', hdrByte_freqAt _ _ _ hj']
    by_cases haa : a' = a
    · subst haa
      rw [freqAt_setFreq_self _ ha]
      exact extractLsb'_withByte_apart _ _ (headerLsb_le e hj') (headerLsb_apart e hj hj' (by omega))
    · rw [freqAt_setFreq_ne _ haa]

/-- The header gives ORIGLEN and FREQ. -/
theorem eq_of_hdrBytes {s t : State} (h : ∀ i < 1032, hdrByte e s i = hdrByte e t i) :
    s.origLen = t.origLen ∧ s.freq = t.freq := by
  constructor
  · refine eq_of_headerBytes e (n := 8) rfl fun j hj => ?_
    rw [← hdrByte_origLen e s hj, ← hdrByte_origLen e t hj, h j (by omega)]
  · apply Vector.ext
    intro a ha
    rw [← freqAt_of_lt s ha, ← freqAt_of_lt t ha]
    refine eq_of_headerBytes e (n := 4) rfl fun j hj => ?_
    rw [← hdrByte_freqAt e s a hj, ← hdrByte_freqAt e t a hj, h _ (by omega)]

end Load

/-! ## The header read -/

/-- From `u`, a header read has taken the first `n` header bytes of `s`: they can be read back, IN_CNT counts them, and ORIGLEN, FREQ
and IN_CNT alone were written. -/
def HeaderTaken (s u : State) (n : Nat) (v : State) : Prop :=
  (v = { u with origLen := v.origLen, freq := v.freq, inCnt := BitVec.ofNat 64 n }) ∧
    ∀ i < n, hdrByte u.hdrEndian v i = hdrByte u.hdrEndian s i

/-- The next header byte goes to its place, over those taken before (R206). -/
theorem HeaderTaken.load {s u v : State} {n : Nat} (h : HeaderTaken s u n v) (hn : n < 1032) :
    HeaderTaken s u (n + 1)
      { v.loadHdrByte u.hdrEndian n (hdrByte u.hdrEndian s n) with inCnt := BitVec.ofNat 64 (n + 1) } := by
  obtain ⟨hframe, hbytes⟩ := h
  constructor
  · rw [loadHdrByte_frame, hframe]
  · intro i hi
    change hdrByte u.hdrEndian (v.loadHdrByte u.hdrEndian n _) i = _
    by_cases hin : i = n
    · rw [hin, hdrByte_loadHdrByte_self _ _ _ hn]
    · rw [hdrByte_loadHdrByte_ne _ _ _ hn (by omega) hin, hbytes i (by omega)]

section HeaderRead

variable {s u v : State} {n : Nat} (hp : u.phase = .rdhdr)

include hp

/-- The beat of the next header byte, by its number (R206). -/
theorem HeaderTaken.din (h : HeaderTaken s u n v) (hn : n < 1032) (b : Byte) :
    v.din b =
      if n + 1 = 1032 then
        okWith { v.loadHdrByte u.hdrEndian n b with inCnt := BitVec.ofNat 64 (n + 1), phase := .idle } 0#32
      else { v.loadHdrByte u.hdrEndian n b with inCnt := BitVec.ofNat 64 (n + 1) } := by
  obtain ⟨hframe, -⟩ := h
  have hphase : v.phase = .rdhdr := by rw [hframe]; exact hp
  have hendian : v.hdrEndian = u.hdrEndian := by rw [hframe]
  have hcnt : v.inCnt = BitVec.ofNat 64 n := by rw [hframe]
  have hnat : v.inCnt.toNat = n := by rw [hcnt, BitVec.toNat_ofNat]; omega
  have hnext : v.inCnt + 1#64 = BitVec.ofNat 64 (n + 1) := by rw [hcnt, BitVec.ofNat_add]
  rw [din_of_rdhdr hphase, hendian]
  split
  · rename_i hlast
    rw [headerBeat_last _ (by rw [hnext, hlast]), hnat, hnext]
  · have hmore : v.inCnt + 1#64 ≠ 1032#64 := by
      intro heq
      have := congrArg BitVec.toNat (hnext.symm.trans heq)
      simp only [BitVec.toNat_ofNat] at this
      omega
    rw [headerBeat_more _ hmore, hnat, hnext]

/-- The beats before the last. -/
theorem headerTaken_beats (hin : u.inCnt = 0#64) (hn : n < 1032) :
    HeaderTaken s u n (((List.range n).map (hdrByte u.hdrEndian s)).foldl State.din u) := by
  induction n with
  | zero => exact ⟨by rw [List.range_zero, List.map_nil, List.foldl_nil, ← hin], fun i hi => absurd hi (Nat.not_lt_zero i)⟩
  | succ n ih =>
    have htaken := ih (by omega)
    rw [List.range_succ, List.map_append, List.foldl_append]
    rw [List.map_singleton, List.foldl_cons, List.foldl_nil, htaken.din hp (by omega), if_neg (by omega)]
    exact htaken.load (by omega)

/-- The beats of a whole header (R206, R209). -/
theorem header_beats (hin : u.inCnt = 0#64) : (s.header u.hdrEndian).foldl State.din u =
    okWith { u with origLen := s.origLen, freq := s.freq, inCnt := 1032#64, phase := .idle } 0#32 := by
  obtain ⟨n, hn⟩ : ∃ n, n + 1 = 1032 := ⟨1031, rfl⟩
  have htaken := headerTaken_beats (s := s) (n := n) hp hin (by omega)
  obtain ⟨hframe, hbytes⟩ := htaken.load (by omega)
  obtain ⟨horig, hfreq⟩ := eq_of_hdrBytes _ (hn ▸ hbytes)
  rw [State.header, Config.hdrBytes, ← hn, List.range_succ, List.map_append, List.foldl_append]
  rw [List.map_singleton, List.foldl_cons, List.foldl_nil, htaken.din hp (by omega), if_pos hn]
  rw [← horig, ← hfreq]
  exact congrArg (fun v : State => okWith { v with phase := .idle } 0#32) hframe

end HeaderRead

/-! ## P_HDR_ENDIAN -/

theorem din_hdrEndian (s : State) (b : Byte) : (s.din b).hdrEndian = s.hdrEndian := by
  have h := dinStep s b
  generalize s.din b = t at h ⊢
  cases h with
  | counted | overflowed | uncoded | waits => rfl
  | packed => rw [appendBits_frame]
  | headerMore => rw [loadHdrByte_frame]
  | headerLast => rw [loadHdrByte_frame]; rfl
  | decoded => obtain ⟨_, _, _, _, e⟩ := decodeBeat_frame s b; rw [e]

theorem dout_hdrEndian (s : State) : s.dout.hdrEndian = s.hdrEndian := by
  unfold State.dout; split <;> rfl

theorem internal_hdrEndian (s : State) : s.internal.hdrEndian = s.hdrEndian := by
  have h := internalStep s
  generalize s.internal = t at h ⊢
  cases h with
  | emits => rw [emit1_eq]
  | drained | rests => rfl

theorem ran_hdrEndian {i : Instr} {s t : State} (h : Ran i s t) : t.hdrEndian = s.hdrEndian := by
  cases i with
  | nop | clr | rdsr a | count | rdhdr | hbld => obtain ⟨-, rfl⟩ := h; rfl
  | wrhdr => obtain ⟨-, rfl⟩ := h; rw [headerWritten_eq]
  | build => obtain ⟨-, rfl⟩ := h; obtain ⟨_, _, _, _, e⟩ := built_frame s; rw [e]; rfl
  | wrlen a d | rdf a | wrf a d | rdh a | hext | encode => obtain ⟨-, -, rfl⟩ := h; rfl
  | rdn a sel | happ a | hins a | setroot a => obtain ⟨-, -, -, rfl⟩ := h; rfl
  | nleaf a | rdc a sel => obtain ⟨-, -, -, -, rfl⟩ := h; rfl
  | nmrg a b => obtain ⟨-, -, -, -, -, rfl⟩ := h; rfl
  | gencode => obtain ⟨-, -, c, -, rfl⟩ := h; rfl
  | decode => obtain ⟨-, ⟨-, rfl⟩ | ⟨-, -, -, rfl⟩⟩ := h <;> rfl
  | endPass =>
    obtain ⟨-, rfl⟩ | ⟨-, rfl⟩ := h
    · rfl
    · exact s.flush_hdrEndian

theorem exec_hdrEndian {i : Instr} {s t : State} (h : exec i s = .next t) : t.hdrEndian = s.hdrEndian := by
  rcases exec_cases h with ⟨-, rfl⟩ | ⟨-, hran⟩ | ⟨-, c, -, rfl⟩
  · rfl
  · exact ran_hdrEndian hran
  · exact cmdFault_eq_failed s i c ▸ s.cmdFault_hdrEndian _ _

theorem step_hdrEndian {s t : State} (h : step s = .next t) : t.hdrEndian = s.hdrEndian :=
  step_keeps (P := fun u => u.hdrEndian = s.hdrEndian) rfl h (fun _ _ hs => hs) (fun _ hs => hs)
    (fun u hs => (internal_hdrEndian u).trans hs) (fun u hs => (dout_hdrEndian u).trans hs)
    (fun u b hs => (din_hdrEndian u b).trans hs) (fun _ _ _ hs hx => (exec_hdrEndian hx).trans hs)
    (fun u _ hs _ => (u.cmdFault_hdrEndian _ _).trans hs)

/-- Settles O33: the bytes of OQ are the header of `s`, whose beats leave the length and the table that have these header bytes. -/
theorem headerReadRecoversTheHeaderWritten : Obligations.HeaderReadRecoversTheHeaderWritten := by
  unfold Obligations.HeaderReadRecoversTheHeaderWritten
  refine ⟨fun s t u hp hq hx hpu hin hendian => ?_, fun _ _ => step_hdrEndian⟩
  have hoq : t.oq = s.header u.hdrEndian := by
    rw [exec_wrhdr_of_idle hp] at hx
    cases hx
    rw [hq, List.nil_append, hendian]
  rw [hoq]
  exact header_beats hpu hin

end Sys2Proof.Machine
end

section
/-! PROOFS. The read commands (20_memory.md R69, 60_exceptions.md R236): an answer, or the fault of a check. -/

namespace Sys2Proof.Machine

/-- Settles O18: a read that runs answers with ERR = 0, and one that fails a check faults, or in phase ERR answers with the code. -/
theorem readsChangeNothing : Obligations.ReadsChangeNothing := by
  unfold Obligations.ReadsChangeNothing
  intro i s hread hready
  rcases exec_came i s with ⟨hwait, -⟩ | ⟨-, ⟨t, hx, hran⟩ | ⟨c, hc, hx⟩ | ⟨rfl, -, -, -⟩⟩
  · exact absurd (hwait.symm.trans hready) (by decide)
  · obtain ⟨d, rfl⟩ := ran_read hread hran
    exact ⟨.ok, d, .inl hx⟩
  · by_cases hp : s.phase = .err
    · rw [failed_of_err hp] at hx
      exact ⟨c, 0#32, .inl hx⟩
    · rw [failed_of_ne_err hp] at hx
      exact ⟨c, 0#32, .inr ⟨ne_ok_of_mem_ownFaults hc, hp, hx⟩⟩
  · cases hread

end Sys2Proof.Machine
end

section
/-! PROOFS. Unpacking undoes packing (20_memory.md R66): the packed bytes are the codes of the input and zeros (43_bitpack.md R162,
R167), and each code is a path from ROOT to a leaf of its symbol (42_codegen.md R151), which the walk of R183 follows. -/

namespace Sys2Proof.Machine

/-! ## The packer: a pass's stream -/

section Encode

variable {s t : State}

theorem codeLenAt_congr (h : t.codes = s.codes) (a : Nat) : t.codeLenAt a = s.codeLenAt a := by
  rw [State.codeLenAt, State.codeLenAt, h]

theorem codeOf_congr (h : t.codes = s.codes) (b : Byte) : t.codeOf b = s.codeOf b := by
  rw [State.codeOf, State.codeOf, codeLenAt_congr h, State.codeBitsAt, State.codeBitsAt, h]

/-- A byte with a code puts its code at the end of the stream (R162). -/
theorem din_packs (hp : s.phase = .encode) {b : Byte} (hb : s.codeLenAt b.toNat ≠ 0#8) :
    (s.din b).phase = .encode ∧ (s.din b).codes = s.codes ∧ streamBits (s.din b) = streamBits s ++ s.codeOf b := by
  rw [din_of_encode hp, encodeBeat_packs hb]
  refine ⟨(appendBits_phase _ _).trans hp, ?_, appendBits_stream _ _⟩
  rw [appendBits_frame]

/-- Bytes that have codes put their codes at the end of the stream. -/
theorem dins_pack (hp : s.phase = .encode) {input : List Byte} (hin : ∀ b ∈ input, s.codeLenAt b.toNat ≠ 0#8) :
    streamBits (input.foldl State.din s) = streamBits s ++ input.flatMap s.codeOf := by
  induction input generalizing s with
  | nil => simp
  | cons b input ih =>
    obtain ⟨hphase, hcodes, hstream⟩ := din_packs hp (hin b (by simp))
    have hrest : ∀ a ∈ input, (s.din b).codeLenAt a.toNat ≠ 0#8 := fun a ha =>
      codeLenAt_congr hcodes _ ▸ hin a (by simp [ha])
    rw [List.foldl_cons, ih hphase hrest, hstream, List.flatMap_cons, List.append_assoc, funext (codeOf_congr hcodes)]

/-- After Flush (R167) OQ holds the whole stream, padded with zeros. -/
theorem flush_oq_bits (s : State) : ∃ pad, s.flush.oq.flatMap bitsOf = streamBits s ++ List.replicate pad false := by
  have hpending : pendingBits s.flush = [] := by simp [pendingBits]
  have hstream := flush_stream s
  rw [streamBits, hpending, List.append_nil] at hstream
  exact ⟨_, hstream⟩

/-- The bytes of an encode pass (R168): the codes of the input, then zeros. -/
theorem packed_bits (s : State) {input : List Byte} (hin : ∀ b ∈ input, s.codeLenAt b.toNat ≠ 0#8) :
    ∃ pad, (input.foldl State.din (encodeStart s)).flush.oq.flatMap bitsOf =
      input.flatMap s.codeOf ++ List.replicate pad false := by
  obtain ⟨pad, hpad⟩ := flush_oq_bits (input.foldl State.din (encodeStart s))
  have hpack := dins_pack (s := encodeStart s) rfl hin
  exact ⟨pad, hpad.trans (congrArg (· ++ _) hpack)⟩

end Encode

/-! ## The unpacker: a pass's beats as one run of bits -/

section Decode

variable {s : State}

/-- One bit of the decode beat neither reads nor writes IN_CNT and PHASE. -/
theorem decodeBit_count (s : State) (n : Count) (p : Phase) (x : Bool) :
    State.decodeBit { s with inCnt := n, phase := p } x = { s.decodeBit x with inCnt := n, phase := p } := by
  by_cases hlt : s.emitCnt < s.origLen
  · rw [decodeBit_moves hlt, decodeBit_moves (s := { s with inCnt := n, phase := p }) hlt]
    dsimp only
    split <;> rfl
  · rw [decodeBit_discards hlt, decodeBit_discards (s := { s with inCnt := n, phase := p }) hlt]

theorem decodeBits_count (l : List Bool) (s : State) (n : Count) (p : Phase) :
    l.foldl State.decodeBit { s with inCnt := n, phase := p } =
      { l.foldl State.decodeBit s with inCnt := n, phase := p } := by
  induction l generalizing s with
  | nil => rfl
  | cons x l ih => rw [List.foldl_cons, decodeBit_count, ih, List.foldl_cons]

/-- A decode beat (R183): its bits, then PHASE by the count. -/
theorem decodeBeat_eq (hp : s.phase = .decode) (b : Byte) : s.decodeBeat b = { (bitsOf b).foldl State.decodeBit s with
    inCnt := s.inCnt + 1#64
    phase := if ((bitsOf b).foldl State.decodeBit s).emitCnt = s.origLen then .drain else .decode } := by
  have horig : ((bitsOf b).foldl State.decodeBit s).origLen = s.origLen := by rw [decodeBits_frame]
  have hbits := decodeBits_count (bitsOf b) s (s.inCnt + 1#64) s.phase
  rw [State.decodeBeat, drainIfDone_eq]
  generalize (bitsOf b).foldl State.decodeBit s = u at horig hbits ⊢
  rw [hbits, hp, ← horig]

/-- In DRAIN bytes wait (10_state.md R50). -/
theorem dins_of_drain (hp : s.phase = .drain) (bytes : List Byte) : bytes.foldl State.din s = s := by
  induction bytes with
  | nil => rfl
  | cons b bytes ih => rw [List.foldl_cons, din_of_not_ready (by simp [State.dinReady, hp]), ih]

/-- The beats of a decode pass do what their bits do in one run; the pass ends with the ORIGLEN-th symbol. -/
theorem dins_decode (hp : s.phase = .decode) (hr : s.rootIsLeaf = false) (hcnt : s.emitCnt ≠ s.origLen) (bytes : List Byte) :
    ∃ n, bytes.foldl State.din s = { (bytes.flatMap bitsOf).foldl State.decodeBit s with
      inCnt := n
      phase := if ((bytes.flatMap bitsOf).foldl State.decodeBit s).emitCnt = s.origLen then .drain else .decode } := by
  induction bytes generalizing s with
  | nil => exact ⟨s.inCnt, by rw [List.flatMap_nil, List.foldl_nil, List.foldl_nil, if_neg hcnt, ← hp]⟩
  | cons b bytes ih =>
    have hframe := decodeBits_frame (bitsOf b) s
    rw [List.foldl_cons, din_of_decode hp hr, decodeBeat_eq hp, List.flatMap_cons, List.foldl_append]
    generalize (bitsOf b).foldl State.decodeBit s = u at hframe ⊢
    have horig : u.origLen = s.origLen := by rw [hframe]
    rw [← horig]
    by_cases hdone : u.emitCnt = u.origLen
    · rw [decodeBits_done hdone, if_pos hdone]
      exact ⟨_, dins_of_drain rfl _⟩
    · have hleaf : u.rootIsLeaf = false := by rw [hframe]; exact hr
      rw [if_neg hdone]
      obtain ⟨n, hn⟩ := ih (s := { u with inCnt := s.inCnt + 1#64, phase := .decode }) rfl hleaf hdone
      rw [decodeBits_count] at hn
      exact ⟨n, hn⟩

/-- The codes of `input`, each a path from ROOT to a leaf of its symbol, emit `input` (R151, R183). -/
theorem decodeBits_codes {code : Byte → List Bool} {input : List Byte} (hcur : s.cur = s.root) (hr : s.rootIsLeaf = false)
    (hcode : ∀ b ∈ input, LeafAt s.nodes s.root (code b) b) (hcnt : s.emitCnt.toNat + input.length ≤ s.origLen.toNat) :
    ((input.flatMap code).foldl State.decodeBit s).oq = s.oq ++ input ∧
      ((input.flatMap code).foldl State.decodeBit s).emitCnt.toNat = s.emitCnt.toNat + input.length := by
  induction input generalizing s with
  | nil => simp
  | cons b input ih =>
    rw [List.length_cons] at hcnt
    have hlt : s.emitCnt.toNat < s.origLen.toNat := by omega
    have hleaf := hcode b (by simp)
    have hne : code b ≠ [] := fun e => not_leafAt_nil hr b (e ▸ hleaf)
    obtain ⟨m, hdescend, hm, hsym⟩ := hleaf
    have hone : (code b).foldl State.decodeBit s = s.emitAt m := decodeBits_path hne hlt (hcur ▸ hdescend) hm
    have hnext : (s.emitAt m).emitCnt.toNat = s.emitCnt.toNat + 1 := by
      have := s.origLen.isLt
      change (s.emitCnt + 1#64).toNat = _
      bv_omega
    have hpush : (s.emitAt m).oq = s.oq ++ [b] := by rw [← hsym]; rfl
    have hroom : (s.emitAt m).emitCnt.toNat + input.length ≤ (s.emitAt m).origLen.toNat := by
      rw [hnext]
      change _ ≤ s.origLen.toNat
      omega
    obtain ⟨hoq, hemit⟩ := ih (s := s.emitAt m) rfl hr (fun a ha => hcode a (by simp [ha])) hroom
    rw [List.flatMap_cons, List.foldl_append, hone, hoq, hemit, hpush, hnext, List.length_cons]
    exact ⟨by simp, by omega⟩

/-- A decode pass over the codes of `input` and any bits after them emits `input` and ends (R183, R185). -/
theorem decode_pass {code : Byte → List Bool} {input packed : List Byte} {pad : List Bool} (hr : s.rootIsLeaf = false)
    (hcode : ∀ b ∈ input, LeafAt s.nodes s.root (code b) b) (hlen : input.length < 2 ^ 64) (hne : input ≠ [])
    (hbits : packed.flatMap bitsOf = input.flatMap code ++ pad) :
    (packed.foldl State.din (decodeStart s input.length)).oq = input ∧
      (packed.foldl State.din (decodeStart s input.length)).phase = .drain := by
  have hpos := List.length_pos_iff.2 hne
  have horig : (decodeStart s input.length).origLen.toNat = input.length := by
    change (BitVec.ofNat 64 input.length).toNat = _
    rw [BitVec.toNat_ofNat, Nat.mod_eq_of_lt hlen]
  have hopen : (decodeStart s input.length).emitCnt ≠ (decodeStart s input.length).origLen := by
    intro e
    rw [← e] at horig
    exact hpos.ne horig
  obtain ⟨n, hn⟩ := dins_decode (s := decodeStart s input.length) rfl hr hopen packed
  obtain ⟨hoq, hemit⟩ := decodeBits_codes (s := decodeStart s input.length) (code := code) rfl hr hcode
    (by rw [horig]; change 0 + _ ≤ _; omega)
  have hframe := decodeBits_frame (input.flatMap code) (decodeStart s input.length)
  rw [hbits, List.foldl_append] at hn
  generalize (input.flatMap code).foldl State.decodeBit (decodeStart s input.length) = u at hn hoq hemit hframe
  have hdone : u.emitCnt = u.origLen := by
    apply BitVec.eq_of_toNat_eq
    rw [hemit, hframe, horig]
    exact Nat.zero_add _
  have hall : u.emitCnt = (decodeStart s input.length).origLen := by rw [hdone, hframe]
  rw [decodeBits_done hdone, if_pos hall] at hn
  rw [hn]
  exact ⟨hoq, rfl⟩

end Decode

/-! ## A decode pass with a leaf root -/

section Emit

variable {s : State} {n k : Nat}

/-- A decode pass over `n` symbols of a leaf root after `k` Emit1 steps (R186). -/
def emittedTo (s : State) (n k : Nat) : State :=
  { decodeStart s n with
    oq := List.replicate k (s.nodeAt s.root.toNat).sym, outCnt := BitVec.ofNat 64 k, emitCnt := BitVec.ofNat 64 k
    phase := if k = n then .drain else .decode }

theorem emittedTo_zero (hn : 0 < n) : emittedTo s n 0 = decodeStart s n := by
  rw [emittedTo, if_neg hn.ne]; rfl

theorem internal_emittedTo (hr : s.rootIsLeaf = true) (hn : n < 2 ^ 64) (hk : k < n) :
    (emittedTo s n k).internal = emittedTo s n (k + 1) := by
  have hp : (emittedTo s n k).phase = .decode := if_neg hk.ne
  have hlast : BitVec.ofNat 64 (k + 1) = BitVec.ofNat 64 n ↔ k + 1 = n := by
    rw [← BitVec.toNat_inj, BitVec.toNat_ofNat, BitVec.toNat_ofNat, Nat.mod_eq_of_lt hn, Nat.mod_eq_of_lt (by omega)]
  rw [internal_of_emit hp hr, emit1_eq, hp]
  simp only [emittedTo, List.replicate_succ', ← hlast, BitVec.ofNat_add]
  rfl

theorem internal_iterate_decodeStart (hr : s.rootIsLeaf = true) (hn : n < 2 ^ 64) (h0 : 0 < n) (hk : k ≤ n) :
    State.internal^[k] (decodeStart s n) = emittedTo s n k := by
  induction k with
  | zero => exact (emittedTo_zero h0).symm
  | succ k ih => rw [Function.iterate_succ_apply', ih (by omega), internal_emittedTo hr hn hk]

/-- A whole pass. -/
theorem emit_pass (hr : s.rootIsLeaf = true) (h0 : 0 < n) (hn : n < 2 ^ 64) : State.internal^[n] (decodeStart s n) =
    { decodeStart s n with
      oq := List.replicate n (s.nodeAt s.root.toNat).sym, outCnt := BitVec.ofNat 64 n, emitCnt := BitVec.ofNat 64 n
      phase := .drain } := by
  rw [internal_iterate_decodeStart hr hn h0 le_rfl, emittedTo, if_pos rfl]

end Emit

/-! ## The code table and the tree -/

section Table

variable {s t : State}

/-- The code that GENCODE gives a symbol is a path from an internal ROOT to a leaf of it (42_codegen.md R151). -/
theorem leafAt_codeOf (h : ForestOk s) (hr : s.root ≠ NIL) (hl : s.rootIsLeaf = false)
    (ht : t.codes = setCodes (codeList s) emptyCodes) {b : Byte} (hb : t.codeLenAt b.toNat ≠ 0#8) :
    LeafAt s.nodes s.root (t.codeOf b) b := by
  rcases codeOf_of_codeList h ht b with ⟨hzero, -⟩ | ⟨-, hmem, -⟩
  · exact absurd hzero hb
  · exact (mem_codeList_of_internal h hr hl _ _).1 hmem

/-- GENCODE on a single-leaf tree (R152), whatever the rest of the arena is. -/
theorem exec_gencode_of_leaf (hp : s.phase = .idle) (ht : s.treeValid = true) (hr : s.root ≠ NIL) (hl : s.rootIsLeaf = true) :
    exec .gencode s = .next (okWith { s with
      codes := setCode (s.nodeAt s.root.toNat).sym [false] emptyCodes, codeValid := true } 0#32) := by
  have hrun : exec .gencode s = s.storeCodes s.codeTable := (inPhases_idle hp _ _).trans (require_pos ht _ _ _ _)
  rw [hrun, State.codeTable, if_neg hr, if_pos hl]
  rfl

/-- That table gives a code to the leaf's symbol alone. -/
theorem eq_of_codeLenAt_setCode {a b : Byte} {c : List Bool} (ht : t.codes = setCode a c emptyCodes)
    (hb : t.codeLenAt b.toNat ≠ 0#8) : b = a := by
  by_contra hne
  have hcode : HasCode t.codes b [] := ht ▸ hasCode_setCode_ne hne (hasCode_emptyCodes b) c
  exact hb (codeLenAt_of_hasCode hcode)

end Table

/-- Settles O54: the packed bits are the codes and padding, the codes are paths to leaves of the input's symbols, and the ORIGLEN-th
symbol ends the walk before the padding; with a single leaf the input is that leaf's symbol over and over. -/
theorem unpackingUndoesPacking : Obligations.UnpackingUndoesPacking := by
  unfold Obligations.UnpackingUndoesPacking
  refine ⟨fun s t input hp ht hforest hr hl hx hin hlen => ?_, fun s t input hp ht hr hl hx hin hlen hne => ?_,
    fun s n hl h0 hn => emit_pass hl h0 hn⟩
  · obtain ⟨hleaf, hcode⟩ : t.rootIsLeaf = false ∧ ∀ b ∈ input, LeafAt t.nodes t.root (t.codeOf b) b := by
      cases (exec_gencode_of_idle hp ht hforest).symm.trans hx
      exact ⟨hl, fun b hb => leafAt_codeOf hforest hr hl rfl (hin b hb)⟩
    rcases eq_or_ne input [] with rfl | hne
    · exact ⟨rfl, fun h => absurd rfl h⟩
    obtain ⟨pad, hbits⟩ := packed_bits t hin
    obtain ⟨hoq, hphase⟩ := decode_pass hleaf hcode hlen hne hbits
    exact ⟨hoq, fun _ => hphase⟩
  · obtain ⟨hleaf, hcodes⟩ : t.rootIsLeaf = true ∧ t.codes = setCode (t.nodeAt t.root.toNat).sym [false] emptyCodes := by
      cases (exec_gencode_of_leaf hp ht hr hl).symm.trans hx
      exact ⟨hl, rfl⟩
    have hsyms := List.eq_replicate_of_mem fun b hb => eq_of_codeLenAt_setCode hcodes (hin b hb)
    dsimp only
    rw [emit_pass hleaf (List.length_pos_iff.2 hne) hlen]
    exact ⟨hsyms.symm, rfl⟩

end Sys2Proof.Machine
end

section
/-! PROOFS. Command words (30_encoding.md R85 to R95): a word taken apart into its fields, each format said both ways, and so the
decoder as the inverse of the encoder; the rows of the opcode map; illegal words. -/

namespace Sys2Proof.Machine

/-! ## The fields of a word (R85) -/

theorem append_fields (w : CmdWord) : ((opField w ++ aField w : BitVec 16) ++ dField w : CmdWord) = w := by
  have hupper : (opField w ++ aField w : BitVec 16) = w.extractLsb' 32 16 :=
    BitVec.extractLsb'_append_extractLsb'_eq_extractLsb' rfl
  rw [hupper]
  exact (BitVec.extractLsb'_append_extractLsb'_eq_extractLsb' rfl).trans BitVec.extractLsb'_eq_self

theorem append_eq_append_iff {m n : Nat} {x x' : BitVec m} {y y' : BitVec n} : x ++ y = x' ++ y' ↔ x = x' ∧ y = y' := by
  constructor
  · intro h
    have hl := congrArg (·.extractLsb' n m) h
    have hr := congrArg (·.extractLsb' 0 n) h
    simp only [BitVec.extractLsb'_append_eq_left, BitVec.extractLsb'_append_eq_right] at hl hr
    exact ⟨hl, hr⟩
  · rintro ⟨rfl, rfl⟩; rfl

theorem fields_inj {op op' : BitVec 6} {a a' : BitVec 10} {d d' : BitVec 32} :
    ((op ++ a : BitVec 16) ++ d : CmdWord) = (op' ++ a' : BitVec 16) ++ d' ↔ op = op' ∧ a = a' ∧ d = d' := by
  rw [append_eq_append_iff, append_eq_append_iff, and_assoc]

/-- A word is that of a command when its three fields are the command's. -/
theorem encode_eq_iff {i : Instr} {w : CmdWord} :
    encode i = w ↔ opcode i = opField w ∧ BitVec.ofNat 10 (operandA i) = aField w ∧ operandD i = dField w := by
  rw [← fields_inj, append_fields, encode]

/-- Field A holds a number of 10 bits (R87). -/
theorem ofNat_eq_aField {w : CmdWord} {a : Nat} : a < 1024 ∧ BitVec.ofNat 10 a = aField w ↔ (aField w).toNat = a := by
  rw [← BitVec.toNat_inj, BitVec.toNat_ofNat]
  have := (aField w).isLt
  omega

/-- The low `n` bits of D hold a number, and the other `m` are 0 (R88). -/
theorem ofNat_eq_dField {w : CmdWord} {n m v : Nat} (h : n + m = 32) :
    v < 2 ^ n ∧ BitVec.ofNat 32 v = dField w ↔ w.extractLsb' n m = 0#m ∧ (w.extractLsb' 0 n).toNat = v := by
  have hsplit : 2 ^ 32 = 2 ^ n * 2 ^ m := by rw [← Nat.pow_add, h]
  have hparts : (dField w).toNat = (w.extractLsb' 0 n).toNat + 2 ^ n * (w.extractLsb' n m).toNat := by
    simp only [dField, BitVec.extractLsb'_toNat, Nat.shiftRight_eq_div_pow, pow_zero, Nat.div_one, hsplit, Nat.mod_mul]
  have hlow := (w.extractLsb' 0 n).isLt
  rw [← BitVec.toNat_inj, ← BitVec.toNat_inj, hparts, BitVec.toNat_ofNat, BitVec.toNat_ofNat, Nat.zero_mod]
  constructor
  · rintro ⟨hv, e⟩
    rw [Nat.mod_eq_of_lt (hv.trans_le (Nat.pow_le_pow_right (by decide) (by omega)))] at e
    have hhigh : (w.extractLsb' n m).toNat = 0 := by
      by_contra hpos
      have := Nat.le_mul_of_pos_right (2 ^ n) (Nat.pos_of_ne_zero hpos)
      omega
    rw [hhigh, mul_zero, add_zero] at e
    exact ⟨hhigh, e.symm⟩
  · rintro ⟨hhigh, rfl⟩
    rw [hhigh, mul_zero, add_zero, Nat.mod_eq_of_lt (hlow.trans_le (Nat.pow_le_pow_right (by decide) (by omega)))]
    exact ⟨hlow, rfl⟩

/-! ## The formats (R86): a word of the command's opcode decodes to it exactly when it is its word -/

section Formats

variable {w : CmdWord} {a b : Nat}

theorem formatN_eq_iff {i : Instr} (hop : opField w = opcode i) (hwf : WellFormed i = true) (ha : operandA i = 0)
    (hd : operandD i = 0#32) : formatN w i = .instr i ↔ WellFormed i = true ∧ encode i = w := by
  rw [formatN_eq_instr, encode_eq_iff, hop, ha, hd, hwf]
  simp [eq_comm]

theorem formatA_eq_iff {mk : Nat → Instr} (hop : opField w = opcode (mk a)) (hwf : WellFormed (mk a) = decide (a < 1024))
    (hmk : ∀ x, mk x = mk a ↔ x = a) (ha : operandA (mk a) = a) (hd : operandD (mk a) = 0#32) :
    formatA w mk = .instr (mk a) ↔ WellFormed (mk a) = true ∧ encode (mk a) = w := by
  rw [formatA_eq_instr, encode_eq_iff, hop, ha, hd, hwf, hmk, ← ofNat_eq_aField, decide_eq_true_iff]
  tauto

theorem formatAD_eq_iff {mk : Nat → Data → Instr} {d : Data} (hop : opField w = opcode (mk a d))
    (hwf : WellFormed (mk a d) = decide (a < 1024)) (hmk : ∀ x y, mk x y = mk a d ↔ x = a ∧ y = d) (ha : operandA (mk a d) = a)
    (hd : operandD (mk a d) = d) : formatAD w mk = .instr (mk a d) ↔ WellFormed (mk a d) = true ∧ encode (mk a d) = w := by
  rw [formatAD_eq_instr, encode_eq_iff, hop, ha, hd, hwf, hmk, ← ofNat_eq_aField, decide_eq_true_iff]
  tauto

/-- Formats AB and AS: the second operand is the low `n` bits of D (R88). -/
theorem lowOperand_eq_iff {mk : Nat → Nat → Instr} {n m : Nat} (hnm : n + m = 32) (hop : opField w = opcode (mk a b))
    (hwf : WellFormed (mk a b) = (decide (a < 1024) && decide (b < 2 ^ n))) (hmk : ∀ x y, mk x y = mk a b ↔ x = a ∧ y = b)
    (ha : operandA (mk a b) = a) (hd : operandD (mk a b) = BitVec.ofNat 32 b) :
    w.extractLsb' n m = 0#m ∧ mk (aField w).toNat (w.extractLsb' 0 n).toNat = mk a b ↔
      WellFormed (mk a b) = true ∧ encode (mk a b) = w := by
  have hlow := ofNat_eq_dField (w := w) (v := b) hnm
  rw [encode_eq_iff, hop, ha, hd, hwf, hmk, ← ofNat_eq_aField, Bool.and_eq_true, decide_eq_true_iff, decide_eq_true_iff]
  tauto

end Formats

/-! ## Decoding and encoding -/

theorem decode_eq_instr_iff_of_opField {w : CmdWord} {i : Instr} (hop : opField w = opcode i) :
    decode w = .instr i ↔ WellFormed i = true ∧ encode i = w := by
  rw [decode, hop]
  cases i with
  | nop | clr | count | endPass | rdhdr | wrhdr | build | gencode | encode | decode | hext | hbld =>
    exact formatN_eq_iff hop rfl rfl rfl
  | rdsr a | rdf a | nleaf a | happ a | hins a | setroot a | rdh a => exact formatA_eq_iff hop rfl (by simp) rfl rfl
  | wrlen a d | wrf a d => exact formatAD_eq_iff hop rfl (by simp) rfl rfl
  | nmrg a b => exact formatAB_eq_instr.trans (lowOperand_eq_iff rfl hop rfl (by simp) rfl rfl)
  | rdn a sel | rdc a sel => exact formatAS_eq_instr.trans (lowOperand_eq_iff rfl hop rfl (by simp) rfl rfl)

/-- The decoder gives a command for its own opcode alone (R93). -/
theorem opField_of_decode {w : CmdWord} {i : Instr} (h : decode w = .instr i) : opField w = opcode i := by
  apply BitVec.eq_of_toNat_eq
  unfold decode at h
  split at h
  case h_25 => cases h
  case h_4 hop | h_6 hop => obtain rfl := formatAD_eq_instr.1 h; exact hop
  all_goals
    rename_i hop
    simp only [formatN_eq_instr, formatA_eq_instr, formatAB_eq_instr, formatAS_eq_instr] at h
    obtain ⟨-, rfl⟩ := h
    exact hop

/-- A word decodes to a command exactly when the command is well-formed and the word is its word. -/
theorem decode_eq_instr_iff {w : CmdWord} {i : Instr} : decode w = .instr i ↔ WellFormed i = true ∧ encode i = w :=
  ⟨fun h => (decode_eq_instr_iff_of_opField (opField_of_decode h)).1 h, fun h =>
    (decode_eq_instr_iff_of_opField (encode_eq_iff.1 h.2).1.symm).2 h⟩

/-- Settles O1: each field of the command's word is read back as its operand. -/
theorem decodeOfEncodeIsTheCommand : Obligations.DecodeOfEncodeIsTheCommand := by
  unfold Obligations.DecodeOfEncodeIsTheCommand
  exact fun i hwf => decode_eq_instr_iff.2 ⟨hwf, rfl⟩

/-- Settles O2: the fields of an accepted word are the command's, so the word is too. -/
theorem everyLegalWordIsTheWordOfItsCommand : Obligations.EveryLegalWordIsTheWordOfItsCommand := by
  unfold Obligations.EveryLegalWordIsTheWordOfItsCommand
  exact fun w i => decode_eq_instr_iff.1

/-! ## The opcode map (R93) -/

open Laws.TableRow (Statement mask_fields)

/-- Each well-formed command's word matches the row of its mnemonic. -/
theorem row_of_command (i : Instr) : Statement i := by
  cases i with
  | nop => exact Laws.TableRow.nop
  | clr => exact Laws.TableRow.clr
  | rdsr a => exact Laws.TableRow.rdsr a
  | wrlen a d => exact Laws.TableRow.wrlen a d
  | rdf a => exact Laws.TableRow.rdf a
  | wrf a d => exact Laws.TableRow.wrf a d
  | count => exact Laws.TableRow.count
  | endPass => exact Laws.TableRow.endPass
  | rdhdr => exact Laws.TableRow.rdhdr
  | wrhdr => exact Laws.TableRow.wrhdr
  | build => exact Laws.TableRow.build
  | gencode => exact Laws.TableRow.gencode
  | encode => exact Laws.TableRow.encode
  | decode => exact Laws.TableRow.decode
  | nleaf a => exact Laws.TableRow.nleaf a
  | nmrg a b => exact Laws.TableRow.nmrg a b
  | happ a => exact Laws.TableRow.happ a
  | hins a => exact Laws.TableRow.hins a
  | hext => exact Laws.TableRow.hext
  | hbld => exact Laws.TableRow.hbld
  | setroot a => exact Laws.TableRow.setroot a
  | rdn a sel => exact Laws.TableRow.rdn a sel
  | rdh a => exact Laws.TableRow.rdh a
  | rdc a sel => exact Laws.TableRow.rdc a sel

/-- If the word matches the row, it decodes to a command of the row's mnemonic. -/
def RowDecides (w : CmdWord) (r : String × CmdWord × CmdWord) : Prop :=
  w &&& r.2.2 = r.2.1 → ∃ i, decode w = .instr i ∧ mnemonic i = r.1

section Rows

variable {w : CmdWord} {i : Instr}

theorem eq_zero_of_mask {n : Nat} {x : BitVec n} (h : x &&& BitVec.allOnes n = 0#n) : 0#n = x :=
  h.symm.trans BitVec.and_allOnes

/-- A mask that takes the `m` bits above the low `n` of D asks 0 of them. -/
theorem extractLsb'_of_mask {n m : Nat} {md : BitVec 32} (hm : ∀ k < m, md.getLsbD (n + k) = true)
    (h : dField w &&& md = 0#32) : w.extractLsb' n m = 0#m := by
  apply BitVec.eq_of_getLsbD_eq
  intro k hk
  have hbit := congrArg (·.getLsbD (n + k)) h
  have hlt : n + k < 32 := BitVec.lt_of_getLsbD (hm k hk)
  rw [BitVec.getLsbD_and, hm k hk, Bool.and_true, dField, BitVec.getLsbD_extractLsb', zero_add, BitVec.getLsbD_zero] at hbit
  rw [BitVec.getLsbD_extractLsb', BitVec.getLsbD_zero]
  simpa [hk, hlt] using hbit

/-- The row of opcode `op` whose mask takes the bits `ma` of A and `md` of D: the word is that of the command `i` whose operands are
what these leave of it. -/
theorem rowDecides_of_operands (op : BitVec 6) {ma : BitVec 10} {md : BitVec 32} (hop : opcode i = op) (hwf : WellFormed i = true)
    (ha : aField w &&& ma = 0#10 → BitVec.ofNat 10 (operandA i) = aField w)
    (hd : dField w &&& md = 0#32 → operandD i = dField w) :
    RowDecides w (mnemonic i, (op ++ 0#10 : BitVec 16) ++ 0#32, (0x3F#6 ++ ma : BitVec 16) ++ md) := by
  intro h
  rw [← append_fields w, mask_fields, fields_inj] at h
  obtain ⟨hmatch, hA, hD⟩ := h
  have hword : opcode i = opField w := hop.trans (hmatch.symm.trans BitVec.and_allOnes)
  exact ⟨i, decode_eq_instr_iff.2 ⟨hwf, encode_eq_iff.2 ⟨hword, ha hA, hd hD⟩⟩, rfl⟩

theorem rowDecides_formatN (op : BitVec 6) (hop : opcode i = op) (hwf : WellFormed i = true) (ha : operandA i = 0)
    (hd : operandD i = 0#32) :
    RowDecides w (mnemonic i, (op ++ 0#10 : BitVec 16) ++ 0#32, (0x3F#6 ++ 0x3FF#10 : BitVec 16) ++ 0xFFFFFFFF#32) :=
  rowDecides_of_operands op hop hwf (fun h => ha ▸ eq_zero_of_mask h) fun h => hd ▸ eq_zero_of_mask h

/-- A row whose mask takes no bit of A. -/
theorem rowDecides_of_operandD (op : BitVec 6) {md : BitVec 32} (hop : opcode i = op) (hwf : WellFormed i = true)
    (ha : operandA i = (aField w).toNat) (hd : dField w &&& md = 0#32 → operandD i = dField w) :
    RowDecides w (mnemonic i, (op ++ 0#10 : BitVec 16) ++ 0#32, (0x3F#6 ++ 0#10 : BitVec 16) ++ md) :=
  rowDecides_of_operands op hop hwf (fun _ => by rw [ha, BitVec.ofNat_toNat, BitVec.setWidth_eq]) hd

theorem rowDecides_formatA (op : BitVec 6) (hop : opcode i = op) (hwf : WellFormed i = decide ((aField w).toNat < 1024))
    (ha : operandA i = (aField w).toNat) (hd : operandD i = 0#32) :
    RowDecides w (mnemonic i, (op ++ 0#10 : BitVec 16) ++ 0#32, (0x3F#6 ++ 0#10 : BitVec 16) ++ 0xFFFFFFFF#32) :=
  rowDecides_of_operandD op hop (hwf.trans (decide_eq_true (aField w).isLt)) ha fun h => hd ▸ eq_zero_of_mask h

theorem rowDecides_formatAD (op : BitVec 6) (hop : opcode i = op) (hwf : WellFormed i = decide ((aField w).toNat < 1024))
    (ha : operandA i = (aField w).toNat) (hd : operandD i = dField w) :
    RowDecides w (mnemonic i, (op ++ 0#10 : BitVec 16) ++ 0#32, (0x3F#6 ++ 0#10 : BitVec 16) ++ 0#32) :=
  rowDecides_of_operandD op hop (hwf.trans (decide_eq_true (aField w).isLt)) ha fun _ => hd

/-- Formats AB and AS. -/
theorem rowDecides_lowOperand (op : BitVec 6) (n m : Nat) (md : BitVec 32) (hnm : n + m = 32)
    (hm : ∀ k < m, md.getLsbD (n + k) = true) (hop : opcode i = op)
    (hwf : WellFormed i = (decide ((aField w).toNat < 1024) && decide ((w.extractLsb' 0 n).toNat < 2 ^ n)))
    (ha : operandA i = (aField w).toNat) (hd : operandD i = BitVec.ofNat 32 (w.extractLsb' 0 n).toNat) :
    RowDecides w (mnemonic i, (op ++ 0#10 : BitVec 16) ++ 0#32, (0x3F#6 ++ 0#10 : BitVec 16) ++ md) :=
  rowDecides_of_operandD op hop
    (by simp only [hwf, decide_eq_true (aField w).isLt, decide_eq_true (w.extractLsb' 0 n).isLt, Bool.and_true]) ha
    fun h => hd.trans ((ofNat_eq_dField hnm).2 ⟨extractLsb'_of_mask hm h, rfl⟩).2

end Rows

/-- Every row of R93, in the map's order. -/
theorem rowDecides (w : CmdWord) : ∀ r ∈ opcodeMap, RowDecides w r := by
  simp only [opcodeMap, List.forall_mem_cons]
  exact ⟨rowDecides_formatN 0x01 (i := .nop) rfl rfl rfl rfl,
    rowDecides_formatN 0x02 (i := .clr) rfl rfl rfl rfl,
    rowDecides_formatA 0x03 (i := .rdsr _) rfl rfl rfl rfl,
    rowDecides_formatAD 0x04 (i := .wrlen _ _) rfl rfl rfl rfl,
    rowDecides_formatA 0x05 (i := .rdf _) rfl rfl rfl rfl,
    rowDecides_formatAD 0x06 (i := .wrf _ _) rfl rfl rfl rfl,
    rowDecides_formatN 0x08 (i := .count) rfl rfl rfl rfl,
    rowDecides_formatN 0x09 (i := .endPass) rfl rfl rfl rfl,
    rowDecides_formatN 0x0A (i := .rdhdr) rfl rfl rfl rfl,
    rowDecides_formatN 0x0B (i := .wrhdr) rfl rfl rfl rfl,
    rowDecides_formatN 0x0C (i := .build) rfl rfl rfl rfl,
    rowDecides_formatN 0x0D (i := .gencode) rfl rfl rfl rfl,
    rowDecides_formatN 0x0E (i := .encode) rfl rfl rfl rfl,
    rowDecides_formatN 0x0F (i := .decode) rfl rfl rfl rfl,
    rowDecides_formatA 0x10 (i := .nleaf _) rfl rfl rfl rfl,
    rowDecides_lowOperand 0x11 10 22 0xFFFFFC00#32 (i := .nmrg _ _) rfl (by decide) rfl rfl rfl rfl,
    rowDecides_formatA 0x12 (i := .happ _) rfl rfl rfl rfl,
    rowDecides_formatA 0x13 (i := .hins _) rfl rfl rfl rfl,
    rowDecides_formatN 0x14 (i := .hext) rfl rfl rfl rfl,
    rowDecides_formatN 0x15 (i := .hbld) rfl rfl rfl rfl,
    rowDecides_formatA 0x16 (i := .setroot _) rfl rfl rfl rfl,
    rowDecides_lowOperand 0x18 4 28 0xFFFFFFF0#32 (i := .rdn _ _) rfl (by decide) rfl rfl rfl rfl,
    rowDecides_formatA 0x19 (i := .rdh _) rfl rfl rfl rfl,
    rowDecides_lowOperand 0x1A 4 28 0xFFFFFFF0#32 (i := .rdc _ _) rfl (by decide) rfl rfl rfl rfl, fun _ h => nomatch h⟩

/-- Settles O3: a row's mask leaves the fields of one command; a legal word is the word of its command, which its row matches. -/
theorem opcodeMapDecidesEveryWord : Obligations.OpcodeMapDecidesEveryWord := by
  unfold Obligations.OpcodeMapDecidesEveryWord
  refine fun w => ⟨rowDecides w, fun i h => ?_⟩
  obtain ⟨hwf, rfl⟩ := decode_eq_instr_iff.1 h
  exact row_of_command i hwf

/-! ## Illegal words (R89, R94) -/

theorem opcode_not_reserved (i : Instr) : ¬ isReservedOp (opcode i).toNat := by
  unfold isReservedOp
  cases i <;> simp [opcode]

theorem toNat_opField (w : CmdWord) : (opField w).toNat = w.toNat / 2 ^ 42 := by
  have hw := w.isLt
  rw [opField, BitVec.extractLsb'_toNat, Nat.shiftRight_eq_div_pow, Nat.mod_eq_of_lt (by omega)]

theorem matchesNoRow_of_isReservedOp {w : CmdWord} (h : isReservedOp (w.toNat / 2 ^ 42)) : matchesNoRow w := by
  intro r hr hmatch
  obtain ⟨i, hdecode, -⟩ := rowDecides w r hr hmatch
  rw [← toNat_opField, opField_of_decode hdecode] at h
  exact opcode_not_reserved i h

theorem illegal_of_matchesNoRow {w : CmdWord} (h : matchesNoRow w) : ∃ r, decode w = .illegal r := by
  cases hdecode : decode w with
  | illegal r => exact ⟨r, rfl⟩
  | instr i =>
    obtain ⟨hwf, rfl⟩ := decode_eq_instr_iff.1 hdecode
    obtain ⟨r, hr, -, hmatch⟩ := row_of_command i hwf
    exact absurd hmatch (h r hr)

/-- The fault of an illegal word (R94, R244): everything it does. -/
theorem cmdFault_illCmd (s : State) (w : CmdWord) : s.cmdFault w .illCmd = illegalAnswer s w := by
  unfold State.cmdFault illegalAnswer
  by_cases h : s.phase = .err
  · rw [if_pos h, s.recordFault_of_err _ _ h, respond_eq_answered]
  · rw [if_neg h, s.recordFault_of_ne_err _ _ h, respond_eq_answered]
    rfl

/-- Settles O4: a word that matched a row would have its opcode, which is not reserved; a word of no row is no command's word. -/
theorem wordsOfNoRowFaultIllegal : Obligations.WordsOfNoRowFaultIllegal := by
  unfold Obligations.WordsOfNoRowFaultIllegal
  refine ⟨fun w => matchesNoRow_of_isReservedOp, fun w s h hready => ?_⟩
  obtain ⟨r, hdecode⟩ := illegal_of_matchesNoRow h
  rw [cmdStep_of_illegal hdecode, if_pos hready, cmdFault_illCmd]

/-- Settles O5: each word is evaluated. -/
theorem wordsOfTheSpecDecodeAsWritten : Obligations.WordsOfTheSpecDecodeAsWritten := by
  unfold Obligations.WordsOfTheSpecDecodeAsWritten
  decide

end Sys2Proof.Machine
end

section
/-! PROOFS. The phase test and the flag tests (30_encoding.md R92, R96), and E_SEQ as their fault alone (60_exceptions.md R241). -/

namespace Sys2Proof.Machine

variable {i : Instr} {s : State}

/-- The phase test of each command is its row of R96. -/
theorem wrongPhase (i : Instr) : WrongPhase i := by
  cases i with
  | clr => exact wrongPhase_clr
  | rdsr a => exact wrongPhase_of_inPhases (allowed := anyAccepting) (fun _ => rfl) fun p => by cases p <;> rfl
  | endPass => exact wrongPhase_of_inPhases (allowed := countOrEncode) (fun _ => rfl) fun p => by cases p <;> rfl
  | rdf | rdn | rdh | rdc => exact wrongPhase_of_inPhases (allowed := idleOrErr) (fun _ => rfl) fun p => by cases p <;> rfl
  | _ => exact wrongPhase_of_inPhases (allowed := idleOnly) (fun _ => rfl) fun p => by cases p <;> rfl

/-- No command is allowed where none is accepted (R49, R96). -/
theorem cmdReady_of_allowedIn (h : allowedIn i s.phase = true) : s.cmdReady = true := by
  have hwait : allowedIn i .rdhdr = false ∧ allowedIn i .decode = false ∧ allowedIn i .drain = false := by
    cases i <;> exact ⟨rfl, rfl, rfl⟩
  obtain ⟨hrdhdr, hdecode, hdrain⟩ := hwait
  rw [cmdReady_iff]
  cases hp : s.phase <;> simp_all

/-! ## What is no E_SEQ -/

/-- The outcome is not that of a failing check with E_SEQ. -/
def NotSeq (i : Instr) (s : State) (o : Out) : Prop := o ≠ .next (failed s i .seq)

section NotSeq

variable {k : Out}

theorem failed_rsp (s : State) (i : Instr) (c : ErrCode) : (failed s i c).rsp = some (responseWord c 0#32) := by
  unfold failed; split <;> rfl

/-- An answer with ERR = 0 is no fault's. -/
theorem notSeq_respond (u : State) (d : Data) : NotSeq i s (.next (u.respond .ok d)) := by
  intro h
  have hrsp := congrArg State.rsp (Host.Outcome.next.inj h)
  rw [State.respond_rsp, failed_rsp, Option.some_inj, responseWord, responseWord, append_eq_append_iff] at hrsp
  exact absurd hrsp.1 (by decide)

/-- A command that leaves the block in a phase other than ERR did not fault. -/
theorem notSeq_of_phase {t : State} (h : t.phase ≠ .err) : NotSeq i s (.next t) :=
  fun e => h ((congrArg State.phase (Host.Outcome.next.inj e)).trans (failed_phase s i .seq))

/-- A check with another fault code. -/
theorem notSeq_require {c : Prop} [Decidable c] {code : ErrCode} (hcode : responseWord code 0#32 ≠ responseWord .seq 0#32)
    (hk : NotSeq i s k) : NotSeq i s (require c code i s k) := by
  by_cases h : c
  · rwa [require_pos h]
  · rw [require_neg h]
    intro e
    have hrsp := congrArg State.rsp (Host.Outcome.next.inj e)
    rw [failed_rsp, failed_rsp] at hrsp
    exact hcode (Option.some_inj.1 hrsp)

theorem notSeq_require_pos {c : Prop} [Decidable c] {code : ErrCode} (h : c) (hk : NotSeq i s k) :
    NotSeq i s (require c code i s k) := by
  rwa [require_pos h]

/-- The phase test of an allowed command. -/
theorem notSeq_inPhases {allowed : Phase → Bool} (ha : allowedIn i s.phase = true) (hrow : ∀ p, allowedIn i p = allowed p)
    (hk : NotSeq i s k) : NotSeq i s (inPhases allowed i s k) := by
  rwa [inPhases_pos (cmdReady_of_allowedIn ha) ((hrow _).symm.trans ha)]

end NotSeq

/-- The flag precondition of the command holds (step 4 of R92). -/
def flagsPass (s : State) : Instr → Prop
  | .gencode => s.treeValid = true
  | .encode | .rdc _ _ => s.codeValid = true
  | .decode => s.origLen = 0#64 ∨ s.treeValid = true
  | _ => True

/-- After the phase test and the flag test no check of a command has the fault code E_SEQ. -/
theorem notSeq_exec (ha : allowedIn i s.phase = true) (hflags : flagsPass s i) : NotSeq i s (exec i s) := by
  cases i with
  | nop | clr | count | build | hbld => exact notSeq_inPhases ha (fun p => by cases p <;> rfl) (notSeq_respond _ _)
  | rdsr | wrlen | rdf | wrf | rdh | hext =>
    exact notSeq_inPhases ha (fun p => by cases p <;> rfl) (notSeq_require (by decide) (notSeq_respond _ _))
  | rdn | happ | hins | setroot =>
    exact notSeq_inPhases ha (fun p => by cases p <;> rfl)
      (notSeq_require (by decide) (notSeq_require (by decide) (notSeq_respond _ _)))
  | nleaf =>
    exact notSeq_inPhases ha (fun p => by cases p <;> rfl)
      (notSeq_require (by decide) (notSeq_require (by decide) (notSeq_require (by decide) (notSeq_respond _ _))))
  | nmrg =>
    exact notSeq_inPhases ha (fun p => by cases p <;> rfl) (notSeq_require (by decide) (notSeq_require (by decide)
      (notSeq_require (by decide) (notSeq_require (by decide) (notSeq_respond _ _)))))
  | encode => exact notSeq_inPhases ha (fun p => by cases p <;> rfl) (notSeq_require_pos hflags (notSeq_respond _ _))
  | rdc =>
    exact notSeq_inPhases ha (fun p => by cases p <;> rfl) (notSeq_require_pos hflags
      (notSeq_require (by decide) (notSeq_require (by decide) (notSeq_respond _ _))))
  | gencode =>
    refine notSeq_inPhases ha (fun p => by cases p <;> rfl) (notSeq_require_pos hflags ?_)
    cases s.codeTable with
    | none => exact nofun
    | some c => exact notSeq_respond _ _
  | rdhdr | wrhdr => exact notSeq_inPhases ha (fun p => by cases p <;> rfl) (notSeq_of_phase nofun)
  | endPass =>
    refine notSeq_inPhases ha (fun p => by cases p <;> rfl) (notSeq_of_phase ?_)
    split <;> exact nofun
  | decode =>
    refine notSeq_inPhases ha (fun p => by cases p <;> rfl) ?_
    split
    · exact notSeq_of_phase nofun
    · next h0 => exact notSeq_require_pos (hflags.resolve_left h0) (notSeq_require (by decide) (notSeq_of_phase nofun))

/-- Settles O13: the phase test is the table's, and behind it only the flag tests fail with E_SEQ. -/
theorem wrongPhaseFaultsWithESeq : Obligations.WrongPhaseFaultsWithESeq := by
  unfold Obligations.WrongPhaseFaultsWithESeq
  refine ⟨wrongPhase, fun i s ha hseq => ?_⟩
  have hflags : ¬ flagsPass s i := fun h => notSeq_exec ha h hseq
  cases i with
  | gencode => exact .inl ⟨rfl, Bool.eq_false_iff.2 hflags⟩
  | encode => exact .inr (.inl ⟨rfl, Bool.eq_false_iff.2 hflags⟩)
  | rdc a sel => exact .inr (.inr (.inl ⟨a, sel, rfl, Bool.eq_false_iff.2 hflags⟩))
  | decode =>
    obtain ⟨hlen, htree⟩ := not_or.1 hflags
    exact .inr (.inr (.inr ⟨rfl, hlen, Bool.eq_false_iff.2 htree⟩))
  | _ => exact absurd trivial hflags

end Sys2Proof.Machine
end

section
/-! PROOFS. BUILD and the script BUILDMANUAL (30_encoding.md R109, 41_tree.md R141, R142): BUILD reads FREQ alone, and the script,
one command after another, passes through the forests that BUILD's algorithm passes through. -/

namespace Sys2Proof.Machine

/-! ## BUILD reads FREQ alone (R141) -/

theorem freqAt_of_le (s : State) {a : Nat} (h : 256 ≤ a) : s.freqAt a = 0#32 := by
  simp [State.freqAt, h]

theorem seeded_congr {s s' : State} (h : ∀ a, a < 256 → s'.freqAt a = s.freqAt a) : seeded s' = seeded s := by
  have hfreq : s'.freqAt = s.freqAt := by
    funext a
    by_cases ha : a < 256
    · exact h a ha
    · rw [freqAt_of_le s (by omega), freqAt_of_le s' (by omega)]
  have hturn : seedSymbol s' = seedSymbol s := by
    unfold seedSymbol
    rw [hfreq]
  rw [seeded, seeded, hturn]

theorem built_congr {s s' : State} (h : ∀ a, a < 256 → s'.freqAt a = s.freqAt a) :
    s'.built.nodes = s.built.nodes ∧ s'.built.root = s.built.root ∧ s'.built.nsym = s.built.nsym := by
  rw [State.built, State.built, seeded_congr h]
  exact ⟨rfl, rfl, rfl⟩

/-! ## One command of the script -/

/-- A command that passes its checks does what `Ran` says. -/
theorem exec_of_ran {i : Instr} {s t : State} (hready : s.cmdReady = true) (h : Ran i s t) : exec i s = .next t := by
  cases i with
  | nop | count | rdhdr | wrhdr | build | hbld => obtain ⟨hp, rfl⟩ := h; exact inPhases_idle hp _ _
  | clr => obtain ⟨hp, rfl⟩ := h; exact inPhases_idleOrErr hp _ _
  | rdsr a => obtain ⟨ha, rfl⟩ := h; exact (inPhases_anyAccepting hready _ _).trans (require_pos ha _ _ _ _)
  | wrlen a d | wrf a d | hext | encode =>
    obtain ⟨hp, h1, rfl⟩ := h
    exact (inPhases_idle hp _ _).trans (require_pos h1 _ _ _ _)
  | happ a | hins a | setroot a =>
    obtain ⟨hp, h1, h2, rfl⟩ := h
    exact (inPhases_idle hp _ _).trans ((require_pos h1 _ _ _ _).trans (require_pos h2 _ _ _ _))
  | nleaf a =>
    obtain ⟨hp, h1, h2, h3, rfl⟩ := h
    exact (inPhases_idle hp _ _).trans
      ((require_pos h1 _ _ _ _).trans ((require_pos h2 _ _ _ _).trans (require_pos h3 _ _ _ _)))
  | nmrg a b =>
    obtain ⟨hp, h1, h2, h3, h4, rfl⟩ := h
    exact (inPhases_idle hp _ _).trans ((require_pos h1 _ _ _ _).trans ((require_pos h2 _ _ _ _).trans
      ((require_pos h3 _ _ _ _).trans (require_pos h4 _ _ _ _))))
  | gencode =>
    obtain ⟨hp, ht, c, hc, rfl⟩ := h
    refine (inPhases_idle hp _ _).trans ((require_pos ht _ _ _ _).trans ?_)
    rw [hc]; rfl
  | decode =>
    obtain ⟨hp, ⟨h0, rfl⟩ | ⟨h0, ht, hn, rfl⟩⟩ := h
    · exact (inPhases_idle hp _ _).trans (if_pos h0)
    · exact (inPhases_idle hp _ _).trans ((if_neg h0).trans ((require_pos ht _ _ _ _).trans (require_pos hn _ _ _ _)))
  | endPass =>
    obtain ⟨hp, rfl⟩ | ⟨hp, rfl⟩ := h
    · exact (inPhases_pos hready (hp ▸ rfl) _ _).trans (congrArg _ (if_pos hp))
    · exact (inPhases_pos hready (hp ▸ rfl) _ _).trans (congrArg _ (if_neg (hp ▸ by decide)))
  | rdf a | rdh a =>
    obtain ⟨hp, h1, rfl⟩ := h
    exact (inPhases_idleOrErr hp _ _).trans (require_pos h1 _ _ _ _)
  | rdn a sel =>
    obtain ⟨hp, h1, h2, rfl⟩ := h
    exact (inPhases_idleOrErr hp _ _).trans ((require_pos h1 _ _ _ _).trans (require_pos h2 _ _ _ _))
  | rdc a sel =>
    obtain ⟨hp, h1, h2, h3, rfl⟩ := h
    exact (inPhases_idleOrErr hp _ _).trans
      ((require_pos h1 _ _ _ _).trans ((require_pos h2 _ _ _ _).trans (require_pos h3 _ _ _ _)))

theorem ranOk_of_ran {i : Instr} {s t : State} (hp : s.phase = .idle) (h : Ran i s t) (ht : t.phase = .idle) :
    ranOk i s = some t := by
  rw [ranOk, exec_of_ran ((cmdReady_iff s).2 (.inl hp)) h]
  exact if_neg (ht ▸ by decide)

theorem ranAll_append (l l' : List Instr) (s : State) : ranAll (l ++ l') s = (ranAll l s).bind (ranAll l') := by
  induction l generalizing s with
  | nil => rfl
  | cons i l ih =>
    rw [List.cons_append, ranAll, ranAll, Option.bind_assoc]
    exact congrArg _ (funext ih)

theorem answer_okWith (s : State) (d : Data) : answer (okWith s d) = d.toNat :=
  congrArg BitVec.toNat BitVec.extractLsb'_append_eq_right

theorem ofNat_toNat_idx (a : Idx) : BitVec.ofNat 9 a.toNat = a := by simp

/-- Where the script for the table of `s` stands between two commands: in IDLE, on that table, with the forest `t`. -/
structure Stands (s : State) (t : Forest) (u : State) : Prop where
  idle : u.phase = .idle
  table : u.freq = s.freq
  nodes : u.nodes = t.nodes
  heap : u.heap = t.heap
  nsym : u.nsym = 0#9

section Script

variable {s u : State} {t : Forest} {nodes : List Node} {heap : List Idx}

theorem Stands.freqAt (h : Stands s t u) (a : Nat) : u.freqAt a = s.freqAt a := by
  rw [State.freqAt, State.freqAt, h.table]

theorem setFreq_freqAt (s : State) (a : Nat) : s.setFreq a (s.freqAt a) = s := by
  have hfreq : s.freq.setIfInBounds a (s.freqAt a) = s.freq := by
    apply Vector.ext
    intro k hk
    rw [Vector.getElem_setIfInBounds]
    split
    · next e => subst e; exact freqAt_of_lt s hk
    · rfl
  rw [State.setFreq, hfreq]

/-- The drop: an entry rewritten with its own value leaves the table and an empty forest. -/
theorem stands_drop (hp : s.phase = .idle) {a : Nat} (ha : a < 256) :
    ∃ u, ranOk (.wrf a (s.freqAt a)) s = some u ∧ Stands s ⟨[], []⟩ u ∧
      u.root = NIL ∧ u.treeValid = false ∧ u.codeValid = false :=
  ⟨_, ranOk_of_ran hp ⟨hp, ha, rfl⟩ hp, ⟨hp, by rw [setFreq_freqAt]; rfl, rfl, rfl, rfl⟩, rfl, rfl, rfl⟩

theorem Stands.nleaf (h : Stands s ⟨nodes, heap⟩ u) {a : Nat} (ha : a < 256) (hf : s.freqAt a ≠ 0#32)
    (hn : nodes.length < 511) : ∃ v, ranOk (.nleaf a) u = some v ∧ Stands s ⟨allocLeaf (s.freqAt a) a nodes, heap⟩ v := by
  have hfreq := h.freqAt a
  obtain ⟨idle, table, rfl, rfl, nsym⟩ := h
  exact ⟨_, ranOk_of_ran idle ⟨idle, ha, by rwa [hfreq], hn, rfl⟩ idle, idle, table,
    congrArg (allocLeaf · a u.nodes) hfreq, rfl, nsym⟩

theorem Stands.happ (h : Stands s ⟨nodes, heap⟩ u) {a : Nat} (ha : a < nodes.length) (hh : heap.length < 256) :
    ∃ v, ranOk (.happ a) u = some v ∧ Stands s ⟨nodes, heapAppend (BitVec.ofNat 9 a) heap⟩ v := by
  obtain ⟨idle, table, rfl, rfl, nsym⟩ := h
  exact ⟨_, ranOk_of_ran idle ⟨idle, ha, hh, rfl⟩ idle, idle, table, rfl, rfl, nsym⟩

theorem Stands.hbld (h : Stands s ⟨nodes, heap⟩ u) :
    ∃ v, ranOk .hbld u = some v ∧ Stands s ⟨nodes, heapBuild (nodeKey nodes) heap⟩ v := by
  obtain ⟨idle, table, rfl, rfl, nsym⟩ := h
  exact ⟨_, ranOk_of_ran idle ⟨idle, rfl⟩ idle, idle, table, rfl, rfl, nsym⟩

/-- HEXT answers the index that `HeapExtract` returns. -/
theorem Stands.hext (h : Stands s ⟨nodes, heap⟩ u) (hh : 0 < heap.length) :
    ∃ v, ranOk .hext u = some v ∧ answer v = (heapMin heap).toNat ∧ Stands s ⟨nodes, heapRest (nodeKey nodes) heap⟩ v := by
  obtain ⟨idle, table, rfl, rfl, nsym⟩ := h
  refine ⟨_, ranOk_of_ran idle ⟨idle, hh, rfl⟩ idle, ?_, idle, table, rfl, rfl, nsym⟩
  rw [answer_okWith, toNat_index_register]

/-- NMRG answers the index of the new entry. -/
theorem Stands.nmrg (h : Stands s ⟨nodes, heap⟩ u) {a b : Idx} (ha : a.toNat < nodes.length) (hb : b.toNat < nodes.length)
    (hab : a ≠ b) (hoa : (nodeOf nodes a.toNat).owned = false) (hob : (nodeOf nodes b.toNat).owned = false)
    (hn : nodes.length < 511) :
    ∃ v, ranOk (.nmrg a.toNat b.toNat) u = some v ∧ answer v = (nextIdx nodes).toNat ∧
      Stands s ⟨allocMerge a b nodes, heap⟩ v := by
  obtain ⟨idle, table, rfl, rfl, nsym⟩ := h
  have hab : a.toNat ≠ b.toNat := fun e => hab (BitVec.eq_of_toNat_eq e)
  refine ⟨_, ranOk_of_ran idle ⟨idle, ha, hb, ⟨hab, hoa, hob⟩, hn, rfl⟩ idle, ?_, idle, table, ?_, rfl, nsym⟩
  · rw [answer_okWith, toNat_index_register]
  · exact congrArg₂ (fun a b => allocMerge a b u.nodes) (ofNat_toNat_idx a) (ofNat_toNat_idx b)

theorem Stands.hins (h : Stands s ⟨nodes, heap⟩ u) {a : Idx} (ha : a.toNat < nodes.length) (hh : heap.length < 256) :
    ∃ v, ranOk (.hins a.toNat) u = some v ∧ Stands s ⟨nodes, heapInsert (nodeKey nodes) a heap⟩ v := by
  obtain ⟨idle, table, rfl, rfl, nsym⟩ := h
  exact ⟨_, ranOk_of_ran idle ⟨idle, ha, hh, rfl⟩ idle, idle, table, rfl,
    congrArg (heapInsert (nodeKey u.nodes) · u.heap) (ofNat_toNat_idx a), nsym⟩

/-- SETROOT of an entry that nothing owns. -/
theorem Stands.setroot (h : Stands s ⟨nodes, heap⟩ u) {a : Idx} (ha : a.toNat < nodes.length)
    (hoa : (nodeOf nodes a.toNat).owned = false) :
    ∃ v, ranOk (.setroot a.toNat) u = some v ∧ Stands s ⟨nodes, heap⟩ v ∧
      v.root = a ∧ v.treeValid = true ∧ v.codeValid = false := by
  obtain ⟨idle, table, rfl, rfl, nsym⟩ := h
  exact ⟨_, ranOk_of_ran idle ⟨idle, ha, hoa, rfl⟩ idle, ⟨idle, table, rfl, rfl, nsym⟩, ofNat_toNat_idx a, rfl, rfl⟩

/-! ### The leaves and the heap array -/

theorem mem_symbols {a : Nat} : a ∈ symbols s ↔ a < 256 ∧ s.freqAt a ≠ 0#32 := by
  simp [symbols]

/-- NLEAF for each of some more symbols. -/
theorem Stands.nleafs (syms done : List Nat) (hsyms : ∀ a ∈ syms, a < 256 ∧ s.freqAt a ≠ 0#32)
    (hlen : done.length + syms.length ≤ 511) (h : Stands s ⟨(leafForest s done).nodes, []⟩ u) :
    ∃ v, ranAll (syms.map .nleaf) u = some v ∧ Stands s ⟨(leafForest s (done ++ syms)).nodes, []⟩ v := by
  induction syms generalizing done u with
  | nil => exact ⟨u, rfl, by rwa [List.append_nil]⟩
  | cons a syms ih =>
    rw [List.length_cons] at hlen
    obtain ⟨ha, hf⟩ := hsyms a (by simp)
    obtain ⟨v, hv, hstands⟩ := h.nleaf ha hf (by rw [length_nodes_leafForest]; omega)
    have hnodes : allocLeaf (s.freqAt a) a (leafForest s done).nodes = (leafForest s (done ++ [a])).nodes := by
      simp [leafForest, allocLeaf]
    rw [hnodes] at hstands
    obtain ⟨w, hw, hstands⟩ := ih (done ++ [a]) (fun b hb => hsyms b (by simp [hb])) (by simp; omega) hstands
    rw [List.append_assoc] at hstands
    exact ⟨w, by rw [List.map_cons, ranAll, hv]; exact hw, hstands⟩

/-- HAPP for each of the first `n` entries. -/
theorem Stands.happs {n : Nat} (hn : n ≤ nodes.length) (hmax : n ≤ 256) (h : Stands s ⟨nodes, []⟩ u) :
    ∃ v, ranAll ((List.range n).map .happ) u = some v ∧ Stands s ⟨nodes, (List.range n).map (BitVec.ofNat 9)⟩ v := by
  induction n with
  | zero => exact ⟨u, rfl, h⟩
  | succ n ih =>
    obtain ⟨v, hv, hstands⟩ := ih (by omega) (by omega)
    obtain ⟨w, hw, hstands⟩ := hstands.happ (a := n) (by omega) (by simp; omega)
    refine ⟨w, ?_, ?_⟩
    · rw [List.range_succ, List.map_append, ranAll_append, hv]
      exact congrArg (Option.bind · _) hw
    · rw [List.range_succ, List.map_append]; exact hstands

/-- The script up to HBLD leaves the seeded forest with its heap built (R138, R139). -/
theorem stands_seeded (hp : s.phase = .idle) {a : Nat} {syms : List Nat} (hsyms : symbols s = a :: syms) :
    ∃ u, ranAll (.wrf a (s.freqAt a) :: (a :: syms).map .nleaf ++ (List.range (syms.length + 1)).map .happ ++ [.hbld]) s =
        some u ∧
      Stands s ⟨(seeded s).nodes, heapBuild (nodeKey (seeded s).nodes) (seeded s).heap⟩ u := by
  have hlen := length_symbols_le s
  have hmem : ∀ b ∈ a :: syms, b < 256 ∧ s.freqAt b ≠ 0#32 := fun b hb => mem_symbols.1 (hsyms ▸ hb)
  obtain ⟨u0, hu0, h0, -⟩ := stands_drop hp (hmem a (by simp)).1
  rw [hsyms] at hlen
  obtain ⟨u1, hu1, h1⟩ := h0.nleafs (a :: syms) [] hmem (by simp at hlen ⊢; omega)
  obtain ⟨u2, hu2, h2⟩ := h1.happs (n := (a :: syms).length) (by rw [length_nodes_leafForest]; rfl) hlen
  obtain ⟨u3, hu3, h3⟩ := h2.hbld
  rw [seeded_eq, hsyms]
  refine ⟨u3, ?_, h3⟩
  rw [ranAll_append, List.cons_append, ranAll, hu0, Option.bind_some, ranAll_append, hu1, Option.bind_some, ← List.length_cons,
    hu2, Option.bind_some, ranAll, hu3]
  rfl

/-! ### The merge loop -/

theorem Building.length_heap_le (hb : Building s t) : t.heap.length ≤ 256 := by
  have hcount := hb.count
  have hleaves := hb.leavesIn
  have hsyms := length_symbols_le s
  omega

/-- A turn of the script merges what a turn of BUILD's loop merges. -/
theorem Stands.turn (h : Stands s t u) (hb : Building s t) (hlen : 1 < t.heap.length) :
    ∃ v, manualTurn u = some v ∧ Stands s (mergeTwo t) v := by
  obtain ⟨nodes, h0⟩ := t
  dsimp only at hlen
  have hrest : 0 < (heapRest (nodeKey nodes) h0).length := by rw [length_heapRest]; omega
  have hperm := ((heapRest_perm (nodeKey nodes) hrest).cons _).trans (heapRest_perm _ (by omega : 0 < h0.length))
  have hb := building_of_perm hperm hb
  have hn := hb.length_nodes_lt
  have hheap := hb.length_heap_le
  simp only [List.length_cons] at hheap
  have hidx : (nextIdx nodes).toNat = nodes.length := toNat_idx hn
  obtain ⟨ha, hoa⟩ := (hb.roots (heapMin h0)).1 (by simp)
  obtain ⟨hb', hob⟩ := (hb.roots (heapMin (heapRest (nodeKey nodes) h0))).1 (by simp)
  have hab := List.ne_of_not_mem_cons (List.nodup_cons.1 hb.nodup).1
  obtain ⟨u1, hu1, ha1, h1⟩ := h.hext (by omega)
  obtain ⟨u2, hu2, ha2, h2⟩ := h1.hext hrest
  obtain ⟨u3, hu3, ha3, h3⟩ := h2.nmrg ha hb' hab hoa hob hn
  obtain ⟨u4, hu4, h4⟩ := h3.hins (a := nextIdx nodes) (by rw [length_allocMerge, hidx]; omega) (by omega)
  refine ⟨u4, ?_, h4⟩
  rw [manualTurn, hu1, Option.bind_some, hu2, Option.bind_some, ha1, ha2, hu3, Option.bind_some, ha3, hu4]

/-- BUILD's merge loop ends by itself when one entry is left, after as many turns as the script repeats. -/
theorem Stands.turns {n : Nat} (h : Stands s t u) (hb : Building s t) (ho : IsHeap (nodeKey t.nodes) t.heap)
    (hlen : t.heap.length = n + 1) : ∃ v, manualTurns n u = some v ∧ Stands s (mergeLoop (n + 1) t) v := by
  induction n generalizing t u with
  | zero => exact ⟨u, rfl, by rwa [mergeLoop, if_neg (by omega)]⟩
  | succ n ih =>
    have hmore : 1 < t.heap.length := by omega
    obtain ⟨hb', ho'⟩ := building_mergeTwo hb ho hmore
    obtain ⟨v, hv, hstands⟩ := h.turn hb hmore
    obtain ⟨w, hw, hstands⟩ := ih hstands hb' ho' (by rw [length_mergeTwo hmore]; omega)
    refine ⟨w, by rw [manualTurns, hv]; exact hw, ?_⟩
    rwa [mergeLoop, if_pos hmore]

/-- BUILD's merge loop, without its test for fewer than two entries: there it does nothing (R139). -/
theorem merged_eq (t : Forest) : merged t = mergeLoop t.heap.length ⟨t.nodes, heapBuild (nodeKey t.nodes) t.heap⟩ := by
  unfold merged
  split
  · rfl
  · next h =>
    rw [heapBuild, if_neg h]
    cases hlen : t.heap.length with
    | zero => rfl
    | succ n => rw [mergeLoop, if_neg (by dsimp only; omega)]

theorem built_of_merged {r : Idx} (h : merged (seeded s) = ⟨nodes, [r]⟩) :
    s.built.nodes = nodes ∧ s.built.heap = heapRest (nodeKey nodes) [r] ∧ s.built.root = r := by
  rw [State.built, h]
  exact ⟨rfl, rfl, rfl⟩

/-- The script's end: the one root is extracted and declared. -/
theorem Stands.declare {r : Idx} (h : Stands s ⟨nodes, [r]⟩ u) (hb : Building s ⟨nodes, [r]⟩) :
    ∃ v, ((ranOk .hext u).bind fun u1 => ranOk (.setroot (answer u1)) u1) = some v ∧
      Stands s ⟨nodes, heapRest (nodeKey nodes) [r]⟩ v ∧ v.root = r ∧ v.treeValid = true ∧ v.codeValid = false := by
  obtain ⟨hr, ho⟩ := (hb.roots r).1 (by simp)
  obtain ⟨u1, hu1, hanswer, h1⟩ := h.hext (by simp)
  have hanswer : answer u1 = r.toNat := hanswer
  obtain ⟨v, hv, hv'⟩ := h1.setroot hr ho
  exact ⟨v, by rw [hu1, Option.bind_some, hanswer, hv], hv'⟩

/-- The whole script for a table with symbols: the forest and the root that BUILD leaves. -/
theorem stands_buildManual (hp : s.phase = .idle) (hsyms : symbols s ≠ []) :
    ∃ v, buildManual s = some v ∧ Stands s ⟨s.built.nodes, s.built.heap⟩ v ∧
      v.root = s.built.root ∧ v.treeValid = true ∧ v.codeValid = false := by
  obtain ⟨a, syms, hcons⟩ := List.exists_cons_of_ne_nil hsyms
  have hlen : (seeded s).heap.length = syms.length + 1 := by
    rw [seeded_eq, length_heap_leafForest, hcons, List.length_cons]
  have hbuild := heapBuild_perm (nodeKey (seeded s).nodes) (seeded s).heap
  obtain ⟨u1, hu1, h1⟩ := stands_seeded hp hcons
  obtain ⟨u2, hu2, h2⟩ := h1.turns (building_of_perm hbuild (building_seeded s)) (isHeap_heapBuild _ _)
    (hbuild.length_eq.trans hlen)
  rw [← hlen, ← merged_eq] at h2
  obtain ⟨hb, r, hr⟩ := building_merged hsyms
  have hone : merged (seeded s) = ⟨(merged (seeded s)).nodes, [r]⟩ := by rw [← hr]
  obtain ⟨hnodes, hheap, hroot⟩ := built_of_merged hone
  rw [hone] at h2 hb
  obtain ⟨v, hv, hv'⟩ := h2.declare hb
  rw [hnodes, hheap, hroot]
  refine ⟨v, ?_, hv'⟩
  rw [buildManual, hcons]
  dsimp only
  rw [hu1, Option.bind_some, hu2, Option.bind_some, hv]

end Script

/-- Settles O43: BUILD reads FREQ alone, and each command of the script does its part of BUILD's algorithm. -/
theorem buildIsAFunctionOfTheTableAndEqualsTheScript : Obligations.BuildIsAFunctionOfTheTableAndEqualsTheScript := by
  unfold Obligations.BuildIsAFunctionOfTheTableAndEqualsTheScript
  refine ⟨fun s s' hp hp' hfreq => ?_, fun s hp hsyms => ?_, fun s hp hsyms => ?_⟩
  · obtain ⟨hnodes, hroot, hnsym⟩ := built_congr hfreq
    exact ⟨_, _, exec_build_of_idle hp, exec_build_of_idle hp', hnodes, hroot, hnsym,
      congrArg (fun root : Idx => some (responseWord .ok (root.setWidth 32))) hroot⟩
  · obtain ⟨v, hv, hstands, hroot, htree, hcode⟩ := stands_buildManual hp hsyms
    exact ⟨_, v, exec_build_of_idle hp, hv, hstands.nodes, hroot, hstands.heap, htree, hcode, hstands.nsym⟩
  · obtain ⟨u, hu, hstands, hroot, htree, hcode⟩ := stands_drop hp (by decide : 0 < 256)
    refine ⟨_, u, exec_build_of_idle hp, by rw [buildManual, hsyms]; exact hu, ?_⟩
    rw [built_of_no_symbols hsyms]
    exact ⟨hstands.nodes, hroot, hstands.heap, hstands.nsym, hcode, htree, rfl⟩

end Sys2Proof.Machine
end

section
/-! PROOFS. The heap commands HAPP, HINS, HEXT and HBLD (40_heap.md R116 to R121): what each leaves, its faults in the order tested, and
what it depends on. -/

namespace Sys2Proof.Machine

/-! ## The commands in phase IDLE -/

section Idle

variable {s t : State} {i : Instr}

theorem exec_of_ran_of_idle (hp : s.phase = .idle) (h : Ran i s t) : exec i s = .next t :=
  exec_of_ran ((cmdReady_iff s).2 (.inl hp)) h

/-- The first check of an IDLE-only command fails (30_encoding.md R92). -/
theorem faulted_of_first_check (hp : s.phase = .idle) {c : Prop} [Decidable c] (hc : ¬c) (code : ErrCode) (k : Out) :
    inPhases idleOnly i s (require c code i s k) = .next (faulted s i code) := by
  rw [inPhases_idle hp, require_neg hc, failed_of_idle hp]

/-- The first check of an IDLE-only command passes, and its second fails. -/
theorem faulted_of_second_check (hp : s.phase = .idle) {c c' : Prop} [Decidable c] [Decidable c'] (hc : c) (hc' : ¬c')
    (code code' : ErrCode) (k : Out) :
    inPhases idleOnly i s (require c code i s (require c' code' i s k)) = .next (faulted s i code') := by
  rw [require_pos hc, faulted_of_first_check hp hc']

/-- HAPP, HINS and HBLD leave the new array `h` and answer its size. -/
theorem exec_of_ran_withHeapSized (hp : s.phase = .idle) {h : List Idx} {n : Nat} (hn : h.length = n)
    (hran : Ran i s (s.withHeapSized h)) : exec i s = .next (okWith { s with heap := h } (BitVec.ofNat 32 n)) := by
  subst hn; exact exec_of_ran_of_idle hp hran

end Idle

theorem length_heapInsert (key : Idx → NodeFreq) (n : Idx) (h : List Idx) : (heapInsert key n h).length = h.length + 1 :=
  (heapInsert_perm key n h).length_eq

/-- HeapBuild does nothing to an array of fewer than two entries (R124). -/
theorem heapBuild_of_length_le_one (key : Idx → NodeFreq) {h : List Idx} (hh : h.length ≤ 1) : heapBuild key h = h :=
  if_neg (by omega)

/-- Settles O35: HeapInsert appends the node and sifts it up, which swaps entries and restores the order. -/
theorem hinsInsertsAndKeepsTheHeap : Obligations.HinsInsertsAndKeepsTheHeap := by
  unfold Obligations.HinsInsertsAndKeepsTheHeap
  exact ⟨fun s a hp ha hsize => ⟨heapInsert s.key (BitVec.ofNat 9 a) s.heap,
      exec_of_ran_withHeapSized hp (length_heapInsert _ _ _) ⟨hp, ha, hsize, rfl⟩, heapInsert_perm _ _ _,
      fun ho => isHeap_heapInsert ho _⟩,
    fun s a hp ha => faulted_of_first_check hp (Nat.not_lt.2 ha) _ _,
    fun s a hp ha hfull => faulted_of_second_check hp ha (Nat.not_lt.2 hfull) _ _ _, fun a => wrongPhase (.hins a)⟩

/-- Settles O36: HEAP[0] has the least key of a heap, and HeapExtract removes that entry and sifts down. -/
theorem hextTakesTheMinimum : Obligations.HextTakesTheMinimum := by
  unfold Obligations.HextTakesTheMinimum
  refine ⟨fun s hp hh => ⟨heapRest s.key s.heap, exec_of_ran_of_idle hp ⟨hp, hh, rfl⟩, heapRest_perm s.key hh,
      fun ho => ⟨isHeap_heapRest ho, fun n hn => ?_⟩⟩,
    fun s hp h0 => faulted_of_first_check hp (h0 ▸ Nat.lt_irrefl 0) _ _⟩
  have hmem : n ∈ s.heap := (heapRest_perm s.key hh).subset (List.mem_cons_of_mem _ hn)
  exact key_heapMin_le ho hmem

/-- Settles O37: HeapBuild sifts down at each position that has a child, the last first, so that all positions come into order. -/
theorem hbldMakesAnyArrayAHeap : Obligations.HbldMakesAnyArrayAHeap := by
  unfold Obligations.HbldMakesAnyArrayAHeap
  exact fun s hp => ⟨heapBuild s.key s.heap, exec_of_ran_withHeapSized hp (heapBuild_perm _ _).length_eq ⟨hp, rfl⟩,
    heapBuild_perm _ _, isHeap_heapBuild _ _, heapBuild_of_length_le_one _⟩

/-- Settles O34: HeapAppend writes the index at the end, and an index below NODE_CNT fits in 9 bits. -/
theorem happAppendsWithoutSifting : Obligations.HappAppendsWithoutSifting := by
  unfold Obligations.HappAppendsWithoutSifting
  refine ⟨fun s a hp hcnt ha hsize => ⟨BitVec.ofNat 9 a, ?_, ?_⟩,
    fun s a hp ha => faulted_of_first_check hp (Nat.not_lt.2 ha) _ _,
    fun s a hp ha hfull => faulted_of_second_check hp ha (Nat.not_lt.2 hfull) _ _ _, fun a => wrongPhase (.happ a)⟩
  · rw [BitVec.toNat_ofNat]; omega
  · exact exec_of_ran_withHeapSized hp List.length_append ⟨hp, ha, hsize, rfl⟩

/-! ## What the commands depend on (R121) -/

/-- `s'` agrees with `s` on all that the heap commands read in phase IDLE. -/
structure SameHeapInputs (s s' : State) : Prop where
  idle : s.phase = .idle
  idle' : s'.phase = .idle
  heap : s'.heap = s.heap
  nodeCnt : s'.nodeCnt = s.nodeCnt
  key : s'.key = s.key

/-- Where `o` is a next state, `o'` is one with the same heap array and the same response. -/
def SameHeapResult (o o' : Out) : Prop :=
  ∀ t, o = .next t → ∃ t', o' = .next t' ∧ t'.heap = t.heap ∧ t'.rsp = t.rsp

section HeapInputs

variable {s s' : State} {i : Instr} {k k' : Out}

theorem sameHeapResult_next {t t' : State} (hheap : t'.heap = t.heap) (hrsp : t'.rsp = t.rsp) :
    SameHeapResult (.next t) (.next t') := by
  intro u hu
  cases hu
  exact ⟨t', rfl, hheap, hrsp⟩

theorem sameHeapResult_withHeapSized {h h' : List Idx} (e : h' = h) :
    SameHeapResult (.next (s.withHeapSized h)) (.next (s'.withHeapSized h')) := by
  subst e; exact sameHeapResult_next rfl rfl

theorem sameHeapResult_idle (hs : SameHeapInputs s s') (hk : SameHeapResult k k') :
    SameHeapResult (inPhases idleOnly i s k) (inPhases idleOnly i s' k') := by
  rwa [inPhases_idle hs.idle, inPhases_idle hs.idle']

/-- Two checks that agree: both pass, or both fail with the same answer and leave the array. -/
theorem sameHeapResult_require {c c' : Prop} [Decidable c] [Decidable c'] {code : ErrCode} (hs : SameHeapInputs s s')
    (hc : c' ↔ c) (hk : SameHeapResult k k') : SameHeapResult (require c code i s k) (require c' code i s' k') := by
  by_cases h : c
  · rwa [require_pos h, require_pos (hc.2 h)]
  · rw [require_neg h, require_neg (mt hc.1 h)]
    refine sameHeapResult_next ?_ ?_
    · rw [(sameTree_failed _ _ _).heap, (sameTree_failed _ _ _).heap, hs.heap]
    · rw [failed_rsp, failed_rsp]

theorem SameHeapInputs.heapSize (hs : SameHeapInputs s s') : s'.heapSize = s.heapSize := congrArg List.length hs.heap

theorem sameHeapResult_happ (hs : SameHeapInputs s s') (a : Nat) : SameHeapResult (exec (.happ a) s) (exec (.happ a) s') :=
  sameHeapResult_idle hs <| sameHeapResult_require hs (by rw [hs.nodeCnt]) <| sameHeapResult_require hs (by rw [hs.heapSize]) <|
    sameHeapResult_withHeapSized (by rw [hs.heap])

theorem sameHeapResult_hins (hs : SameHeapInputs s s') (a : Nat) : SameHeapResult (exec (.hins a) s) (exec (.hins a) s') :=
  sameHeapResult_idle hs <| sameHeapResult_require hs (by rw [hs.nodeCnt]) <| sameHeapResult_require hs (by rw [hs.heapSize]) <|
    sameHeapResult_withHeapSized (by rw [hs.heap, hs.key])

theorem sameHeapResult_hext (hs : SameHeapInputs s s') : SameHeapResult (exec .hext s) (exec .hext s') :=
  sameHeapResult_idle hs <| sameHeapResult_require hs (by rw [hs.heapSize]) <|
    sameHeapResult_next (by simp [hs.heap, hs.key]) (by simp [hs.heap])

theorem sameHeapResult_hbld (hs : SameHeapInputs s s') : SameHeapResult (exec .hbld s) (exec .hbld s') :=
  sameHeapResult_idle hs <| sameHeapResult_withHeapSized (by rw [hs.heap, hs.key])

end HeapInputs

/-- Settles O38: a heap command that runs writes the array and the response, and its checks and its effect read the array, NODE_CNT
and the keys alone. -/
theorem heapCommandsTouchOnlyTheHeap : Obligations.HeapCommandsTouchOnlyTheHeap := by
  unfold Obligations.HeapCommandsTouchOnlyTheHeap
  constructor
  · intro i s t hi hp hx hphase
    rcases exec_cases hx with ⟨_, rfl⟩ | ⟨_, hran⟩ | ⟨_, c, _, rfl⟩
    · rfl
    · rcases hi with rfl | rfl | ⟨a, rfl | rfl⟩
      · obtain ⟨_, _, rfl⟩ := hran; rfl
      · obtain ⟨_, rfl⟩ := hran; rfl
      · obtain ⟨_, _, _, rfl⟩ := hran; rfl
      · obtain ⟨_, _, _, rfl⟩ := hran; rfl
    · exact absurd (failed_phase s i c) hphase
  · intro i s s' t hi hp hp' hheap hcnt hkey hx
    have hs : SameHeapInputs s s' := ⟨hp, hp', hheap, hcnt, funext hkey⟩
    rcases hi with rfl | rfl | ⟨a, rfl | rfl⟩
    · exact sameHeapResult_hext hs t hx
    · exact sameHeapResult_hbld hs t hx
    · exact sameHeapResult_happ hs a t hx
    · exact sameHeapResult_hins hs a t hx

end Sys2Proof.Machine
end

section
/-! PROOFS. The commands that write the arena and ROOT (41_tree.md R130 to R137): WRF, NLEAF, NMRG and SETROOT, and the entries that no
command rewrites (R133). -/

namespace Sys2Proof.Machine

/-- A check that passes has no part in the outcome (30_encoding.md R92). -/
theorem inPhases_require_of_pass {allowed : Phase → Bool} {i : Instr} {s : State} {c : Prop} [Decidable c] {code : ErrCode}
    {k o : Out} (hc : c) (h : inPhases allowed i s k = o) : inPhases allowed i s (require c code i s k) = o := by
  rwa [require_pos hc]

/-- The DATA that NLEAF and NMRG answer: while an entry is free, NODE_CNT fits in the 9 bits of an index. -/
theorem setWidth_nextIdx {nodes : List Node} (h : nodes.length < 511) :
    (nextIdx nodes).setWidth 32 = BitVec.ofNat 32 nodes.length := by
  rw [nextIdx, BitVec.setWidth_ofNat_of_le_of_lt (by omega) (by omega)]

/-- Settles O25: WRF stores the entry and drops the tree. -/
theorem wrfWritesOneFrequencyAndDropsTheTree : Obligations.WrfWritesOneFrequencyAndDropsTheTree := by
  unfold Obligations.WrfWritesOneFrequencyAndDropsTheTree
  refine ⟨fun s a d hp ha => ⟨s.freq.setIfInBounds a d, exec_of_ran_of_idle hp ⟨hp, ha, rfl⟩, ?_, fun b hb => ?_⟩,
    fun s a d hp ha => faulted_of_first_check hp (Nat.not_lt.2 ha) _ _, fun a d => wrongPhase (.wrf a d)⟩
  · exact Vector.getElem?_setIfInBounds_self_of_lt ha
  · exact Vector.getElem?_setIfInBounds_ne hb.symm

/-- Settles O39: NLEAF is AllocLeaf (R131) behind its three checks. -/
theorem nleafAllocatesOneLeaf : Obligations.NleafAllocatesOneLeaf := by
  unfold Obligations.NleafAllocatesOneLeaf
  refine ⟨fun s a hp ha hf hroom => ?_, fun s a hp ha => faulted_of_first_check hp (Nat.not_lt.2 ha) _ _,
    fun s a hp ha hf => faulted_of_second_check hp ha (not_not.2 hf) _ _ _,
    fun s a hp ha hf hfull => inPhases_require_of_pass ha <| faulted_of_second_check hp hf (Nat.not_lt.2 hfull) _ _ _,
    fun a => wrongPhase (.nleaf a)⟩
  rw [State.nodeCnt, ← setWidth_nextIdx hroom]
  exact exec_of_ran_of_idle hp ⟨hp, ha, hf, hroom, rfl⟩

/-- Settles O41: SETROOT stores its operand, which fits in 9 bits and is not NIL since it is below NODE_CNT. -/
theorem setrootDeclaresTheRoot : Obligations.SetrootDeclaresTheRoot := by
  unfold Obligations.SetrootDeclaresTheRoot
  have hrange : ∀ s a, s.phase = .idle → s.nodeCnt ≤ a → exec (.setroot a) s = .next (faulted s (.setroot a) .range) :=
    fun s a hp ha => faulted_of_first_check hp (Nat.not_lt.2 ha) _ _
  exact ⟨fun s a hp hcnt ha ho => ⟨BitVec.ofNat 9 a, toNat_idx (ha.trans_le hcnt), exec_of_ran_of_idle hp ⟨hp, ha, ho, rfl⟩⟩,
    hrange, fun s hp hcnt => hrange s 0x1FF hp hcnt,
    fun s a hp ha ho => faulted_of_second_check hp ha (by rw [ho]; decide) _ _ _, fun a => wrongPhase (.setroot a)⟩

/-! ## NMRG -/

section Merged

variable {nodes : List Node} {a b : Nat}

/-- AllocMerge (R132) of two operands of NMRG: an old entry keeps all but `owned`, which rises for the two. -/
theorem nodeOf_allocMerge_operands_old (ha : a < 511) (hb : b < 511) {n : Nat} (hn : n < nodes.length) :
    nodeOf (allocMerge (BitVec.ofNat 9 a) (BitVec.ofNat 9 b) nodes) n =
      { nodeOf nodes n with owned := (nodeOf nodes n).owned || n == a || n == b } := by
  rw [nodeOf_allocMerge_old hn, toNat_idx ha, toNat_idx hb]

/-- AllocMerge (R132) of two operands of NMRG: the new entry. -/
theorem nodeOf_allocMerge_operands_new (ha : a < nodes.length) (hb : b < nodes.length) (hroom : nodes.length < 511) :
    nodeOf (allocMerge (BitVec.ofNat 9 a) (BitVec.ofNat 9 b) nodes) nodes.length =
      { freq := (nodeOf nodes a).freq + (nodeOf nodes b).freq, sym := 0x00#8, left := BitVec.ofNat 9 a,
        right := BitVec.ofNat 9 b, owned := false } := by
  have hia := toNat_idx (ha.trans hroom)
  have hib := toNat_idx (hb.trans hroom)
  rw [nodeOf_allocMerge_new (hia.symm ▸ ha) (hib.symm ▸ hb), mergeNode, hia, hib]
  rfl

end Merged

/-- Settles O40: NMRG is AllocMerge (R132) behind its checks, of which the two range tests come first. -/
theorem nmrgMergesTwoUnownedNodes : Obligations.NmrgMergesTwoUnownedNodes := by
  unfold Obligations.NmrgMergesTwoUnownedNodes
  refine ⟨fun s a b hp ha hb hab hoa hob hroom => ?_, fun s a b hp hout => ?_, fun s a b hp ha hb hbad => ?_,
    fun s a b hp ha hb hab hoa hob hfull => ?_, fun a b => wrongPhase (.nmrg a b)⟩
  · refine ⟨_, exec_of_ran_of_idle hp ⟨hp, ha, hb, ⟨hab, hoa, hob⟩, hroom, rfl⟩, ?_, length_allocMerge _ _ _,
      nodeOf_allocMerge_operands_new ha hb hroom,
      fun n => nodeOf_allocMerge_operands_old (ha.trans hroom) (hb.trans hroom)⟩
    rw [setWidth_nextIdx hroom]
    rfl
  · by_cases ha : a < s.nodeCnt
    · exact faulted_of_second_check hp ha (Nat.not_lt.2 (hout.resolve_left (Nat.not_le.2 ha))) _ _ _
    · exact faulted_of_first_check hp ha _ _
  · refine inPhases_require_of_pass ha <| faulted_of_second_check hp hb ?_ _ _ _
    rintro ⟨hab, hoa, hob⟩
    simp [hab, hoa, hob] at hbad
  · exact inPhases_require_of_pass ha <| inPhases_require_of_pass hb <|
      faulted_of_second_check hp ⟨hab, hoa, hob⟩ (Nat.not_lt.2 hfull) _ _ _

/-! ## What a command leaves of an allocated entry (R133) -/

/-- Command `i` drops the arena (R130). -/
def DropsArena (i : Instr) : Prop := i = .clr ∨ i = .count ∨ i = .rdhdr ∨ i = .build ∨ ∃ a d, i = .wrf a d

/-- From `s` to `t`, entry `n` stays allocated and keeps all but `owned`, which command `i` may raise as a merge that makes the entry a
child (R133). -/
def EntryKept (i : Instr) (s t : State) (n : Nat) : Prop :=
  n < t.nodeCnt ∧ (t.nodeAt n).freq = (s.nodeAt n).freq ∧ (t.nodeAt n).sym = (s.nodeAt n).sym ∧
    (t.nodeAt n).left = (s.nodeAt n).left ∧ (t.nodeAt n).right = (s.nodeAt n).right ∧
    ((t.nodeAt n).owned = (s.nodeAt n).owned ∨
      ((s.nodeAt n).owned = false ∧ (t.nodeAt n).owned = true ∧ ∃ a b, i = .nmrg a b ∧ (n = a ∨ n = b)))

section Kept

variable {i : Instr} {s t : State} {n : Nat}

/-- Entries appended to the arena leave the ones before them. -/
theorem entryKept_of_append {more : List Node} (h : t.nodes = s.nodes ++ more) (hn : n < s.nodeCnt) : EntryKept i s t n := by
  have hsame : t.nodeAt n = s.nodeAt n := by rw [State.nodeAt, h, nodeOf_append_left hn, State.nodeAt]
  have hlt : n < t.nodeCnt := by rw [State.nodeCnt, h, List.length_append]; exact Nat.lt_add_right _ hn
  unfold EntryKept
  rw [hsame]
  exact ⟨hlt, rfl, rfl, rfl, rfl, .inl rfl⟩

theorem entryKept_of_nodes_eq (h : t.nodes = s.nodes) (hn : n < s.nodeCnt) : EntryKept i s t n :=
  entryKept_of_append (more := []) (by rw [h, List.append_nil]) hn

/-- A merge of two entries that nothing owned makes them children. -/
theorem entryKept_of_allocMerge {a b : Nat} (ha : a < 511) (hb : b < 511) (hoa : (s.nodeAt a).owned = false)
    (hob : (s.nodeAt b).owned = false) (h : t.nodes = allocMerge (BitVec.ofNat 9 a) (BitVec.ofNat 9 b) s.nodes)
    (hn : n < s.nodeCnt) : EntryKept (.nmrg a b) s t n := by
  have hentry : t.nodeAt n = { s.nodeAt n with owned := (s.nodeAt n).owned || n == a || n == b } := by
    rw [State.nodeAt, h]; exact nodeOf_allocMerge_operands_old ha hb hn
  have hlt : n < t.nodeCnt := by rw [State.nodeCnt, h, length_allocMerge]; exact Nat.lt_succ_of_lt hn
  unfold EntryKept
  rw [hentry]
  refine ⟨hlt, rfl, rfl, rfl, rfl, ?_⟩
  by_cases hchild : n = a ∨ n = b
  · have hunowned : (s.nodeAt n).owned = false := by rcases hchild with rfl | rfl <;> assumption
    exact .inr ⟨hunowned, by simpa [hunowned] using hchild, a, b, rfl, hchild⟩
  · obtain ⟨hna, hnb⟩ := not_or.1 hchild
    exact .inl (by simp [beq_false_of_ne hna, beq_false_of_ne hnb])

/-- Of the commands that run, those that drop the arena apart, only NLEAF and NMRG write it. -/
theorem ran_keeps_entries (hr : Ran i s t) : DropsArena i ∨ ∀ n, n < s.nodeCnt → EntryKept i s t n := by
  have same (h : t.nodes = s.nodes) : DropsArena i ∨ ∀ n, n < s.nodeCnt → EntryKept i s t n :=
    .inr fun _ => entryKept_of_nodes_eq h
  cases i with
  | clr => exact .inl (.inl rfl)
  | count => exact .inl (.inr (.inl rfl))
  | rdhdr => exact .inl (.inr (.inr (.inl rfl)))
  | build => exact .inl (.inr (.inr (.inr (.inl rfl))))
  | wrf a d => exact .inl (.inr (.inr (.inr (.inr ⟨a, d, rfl⟩))))
  | nleaf a => obtain ⟨-, -, -, -, rfl⟩ := hr; exact .inr fun _ => entryKept_of_append rfl
  | nmrg a b =>
    obtain ⟨-, ha, hb, ⟨-, hoa, hob⟩, hroom, rfl⟩ := hr
    exact .inr fun _ => entryKept_of_allocMerge (ha.trans hroom) (hb.trans hroom) hoa hob rfl
  | nop | rdsr a | hbld => obtain ⟨-, rfl⟩ := hr; exact same rfl
  | wrlen a d | rdf a | rdh a | encode | hext => obtain ⟨-, -, rfl⟩ := hr; exact same rfl
  | rdn a sel | happ a | hins a | setroot a => obtain ⟨-, -, -, rfl⟩ := hr; exact same rfl
  | rdc a sel => obtain ⟨-, -, -, -, rfl⟩ := hr; exact same rfl
  | gencode => obtain ⟨-, -, c, -, rfl⟩ := hr; exact same rfl
  | decode => obtain ⟨-, ⟨-, rfl⟩ | ⟨-, -, -, rfl⟩⟩ := hr <;> exact same rfl
  | wrhdr => obtain ⟨-, rfl⟩ := hr; exact same (by rw [headerWritten_eq])
  | endPass =>
    obtain ⟨-, rfl⟩ | ⟨-, rfl⟩ := hr
    · exact same rfl
    · exact same (sameTree_endEncode s).nodes

end Kept

/-- Settles O44: a command that waits or faults leaves the arena, and one that runs drops it or keeps its entries. -/
theorem arenaEntriesNeverChangeButOwned : Obligations.ArenaEntriesNeverChangeButOwned := by
  unfold Obligations.ArenaEntriesNeverChangeButOwned
  intro i s t hx
  rcases exec_cases hx with ⟨-, rfl⟩ | ⟨-, hran⟩ | ⟨-, c, -, rfl⟩
  · exact .inr fun _ => entryKept_of_nodes_eq rfl
  · exact ran_keeps_entries hran
  · exact .inr fun _ => entryKept_of_nodes_eq (sameTree_failed s i c).nodes

end Sys2Proof.Machine
end

section
/-! PROOFS. The codes of GENCODE are prefix-free (42_codegen.md R155): no path leads past a leaf. -/

namespace Sys2Proof.Machine

/-- A path to a leaf goes on to no other leaf: a descent stops at the first one it meets. -/
theorem LeafAt.sym_eq_of_append {nodes : List Node} {n : Idx} {p d : List Bool} {a b : Byte} (ha : LeafAt nodes n p a)
    (hb : LeafAt nodes n (p ++ d) b) : a = b := by
  obtain ⟨m, hm, hleaf, rfl⟩ := ha
  have hbelow : LeafAt nodes m d b := by simpa only [LeafAt, descend_append, hm, Option.bind_some] using hb
  exact ((leafAt_of_leaf hleaf d b).1 hbelow).2

/-- Settles O47: both codes are paths from ROOT to leaves of their symbols, so if one goes on as the other their symbols agree. -/
theorem codesArePrefixFree : Obligations.CodesArePrefixFree := by
  unfold Obligations.CodesArePrefixFree
  intro s t a b hp htree h hr hl hx hne ha hb hprefix
  obtain rfl := Host.Outcome.next.inj ((exec_gencode_of_idle hp htree h).symm.trans hx)
  obtain ⟨d, hd⟩ := hprefix
  have hleafA := leafAt_codeOf h hr hl rfl ha
  have hleafB := leafAt_codeOf h hr hl rfl hb
  rw [← hd] at hleafB
  exact hne (hleafA.sym_eq_of_append hleafB)

end Sys2Proof.Machine
end

section
/-! PROOFS. The decode beat as the walk of its bits (44_bitunpack.md R183), and the only step that delivers a byte (43_bitpack.md R170,
R171). -/

namespace Sys2Proof.Machine

/-! ## The walk of a run of bits (R183) -/

section Walk

variable {s : State}

/-- The symbols that these bits lead to from CUR, and where the walk then stands. -/
abbrev State.walkAlong (s : State) (l : List Bool) : List Byte × Idx :=
  symbolsAlong s.nodes s.root (s.origLen.toNat - s.emitCnt.toNat) s.cur l

/-- `s` after a walk that emits the symbols `r.1` and comes to stand at `r.2`. -/
def State.walked (s : State) (r : List Byte × Idx) : State :=
  { s with
    oq := s.oq ++ r.1, outCnt := s.outCnt + BitVec.ofNat 64 r.1.length, emitCnt := s.emitCnt + BitVec.ofNat 64 r.1.length
    cur := r.2 }

theorem walked_cur (s : State) : s.walked ([], s.cur) = s := by simp [State.walked]

/-- A walk that emits the symbol of `n` first. -/
theorem walked_emitAt (s : State) (n : Idx) (r : List Byte × Idx) :
    (s.emitAt n).walked r = s.walked ((s.nodeAt n.toNat).sym :: r.1, r.2) := by
  simp [State.walked, State.emitAt, State.oqPush, BitVec.ofNat_add, BitVec.add_assoc, BitVec.add_comm 1#64]

/-- A run of bits emits the symbols on its way and leaves CUR at its end. -/
theorem decodeBits_walked (l : List Bool) (s : State) : l.foldl State.decodeBit s = s.walked (s.walkAlong l) := by
  unfold State.walkAlong
  induction l generalizing s with
  | nil =>
    have hstay : ∀ k, symbolsAlong s.nodes s.root k s.cur [] = ([], s.cur) := fun k => by cases k <;> rfl
    rw [hstay, walked_cur, List.foldl_nil]
  | cons x l ih =>
    rw [List.foldl_cons, ih]
    by_cases hlt : s.emitCnt < s.origLen
    · obtain ⟨k, hk⟩ : ∃ k, s.origLen.toNat - s.emitCnt.toNat = k + 1 :=
        Nat.exists_eq_add_one_of_ne_zero (by bv_omega)
      rw [decodeBit_moves hlt, hk, symbolsAlong]
      split
      · have hnext : s.origLen.toNat - (s.emitCnt + 1#64).toNat = k := by bv_omega
        rw [walked_emitAt]
        simp only [State.emitAt, State.oqPush_nodes, State.oqPush_root, State.oqPush_origLen, hnext]
        rfl
      · simp only [hk]
        rfl
    · have hnone : s.origLen.toNat - s.emitCnt.toNat = 0 := by bv_omega
      rw [decodeBit_discards hlt, hnone, symbolsAlong_zero, symbolsAlong_zero]

/-- The decode beat. -/
theorem din_walks (hp : s.phase = .decode) (hr : s.rootIsLeaf = false) (b : Byte) :
    s.din b = { s.walked (s.walkAlong (bitsOf b)) with
      inCnt := s.inCnt + 1#64
      phase := if (s.walked (s.walkAlong (bitsOf b))).emitCnt = s.origLen then .drain else .decode } := by
  rw [din_of_decode hp hr, decodeBeat_eq hp, decodeBits_walked]

end Walk

/-! ## What the host has taken on dout (R170) -/

section Delivery

variable {i : Instr} {s t : State}

theorem din_doutLog (s : State) (b : Byte) : (s.din b).doutLog = s.doutLog := by
  have h := dinStep s b
  generalize s.din b = t at h ⊢
  cases h with
  | packed => rw [appendBits_frame]
  | headerMore => rw [loadHdrByte_frame]
  | headerLast => rw [loadHdrByte_frame]; rfl
  | decoded => obtain ⟨_, _, _, _, e⟩ := decodeBeat_frame s b; rw [e]
  | counted | overflowed | uncoded | waits => rfl

theorem internal_doutLog (s : State) : s.internal.doutLog = s.doutLog := by
  have h := internalStep s
  generalize s.internal = t at h ⊢
  cases h with
  | emits => rw [emit1_eq]
  | drained | rests => rfl

theorem ran_doutLog (h : Ran i s t) : t.doutLog = s.doutLog := by
  cases i with
  | build => obtain ⟨-, rfl⟩ := h; obtain ⟨_, _, _, _, e⟩ := built_frame s; rw [e]; rfl
  | wrhdr => obtain ⟨-, rfl⟩ := h; rw [headerWritten_eq]
  | endPass =>
    obtain ⟨-, rfl⟩ | ⟨-, rfl⟩ := h
    · rfl
    · exact s.flush_doutLog
  | decode => obtain ⟨-, ⟨-, rfl⟩ | ⟨-, -, -, rfl⟩⟩ := h <;> rfl
  | gencode => obtain ⟨-, -, c, -, rfl⟩ := h; rfl
  | nop | clr | rdsr | count | rdhdr | hbld => obtain ⟨-, rfl⟩ := h; rfl
  | wrlen | rdf | wrf | rdh | hext | encode => obtain ⟨-, -, rfl⟩ := h; rfl
  | rdn | happ | hins | setroot => obtain ⟨-, -, -, rfl⟩ := h; rfl
  | nleaf | rdc => obtain ⟨-, -, -, -, rfl⟩ := h; rfl
  | nmrg => obtain ⟨-, -, -, -, -, rfl⟩ := h; rfl

theorem exec_doutLog (h : exec i s = .next t) : t.doutLog = s.doutLog := by
  rcases exec_cases h with ⟨-, rfl⟩ | ⟨-, hran⟩ | ⟨-, c, -, rfl⟩
  · rfl
  · exact ran_doutLog hran
  · exact cmdFault_eq_failed s i c ▸ s.cmdFault_doutLog _ _

theorem cmdStep_doutLog {w : CmdWord} (h : cmdStep w s = .next t) : t.doutLog = s.doutLog := by
  rcases cmdStep_cases h with ⟨i, -, hx⟩ | rfl | ⟨-, rfl⟩
  · exact exec_doutLog hx
  · rfl
  · exact s.cmdFault_doutLog _ _

/-- An edge that takes the head of OQ and does nothing else. -/
theorem step_of_dout {b : Byte} {q : List Byte} {rest : List Edge} (hq : s.oq = b :: q)
    (he : s.edges = .ports true none none :: rest) :
    step s = .next { s with oq := q, doutLog := s.doutLog ++ [b], rsp := none, edges := rest } :=
  (step_of_no_command he (.inl rfl)).trans (congrArg _ (dout_of_cons (s := s.atEdge rest) hq))

end Delivery

/-- Settles O53: the beat is the walk of its eight bits, the internal steps are `Emit1` and `DrainDone`, and only `Dout` writes the log
of what the host has taken. -/
theorem decodeStepsAndDelivery : Obligations.DecodeStepsAndDelivery := by
  unfold Obligations.DecodeStepsAndDelivery
  refine ⟨fun s b hp hr => ⟨length_symbolsAlong _ _ (bitsOf b) _ _, din_walks hp hr b⟩, fun s hp hr => ?_,
    fun s hp hq => internal_of_drain hp hq, fun s he hd => internal_of_none he hd, fun s b q rest hq he => step_of_dout hq he,
    fun s w t hx => cmdStep_doutLog hx, fun s b => ⟨din_doutLog s b, internal_doutLog s, s.cleared_doutLog⟩⟩
  rw [internal_of_emit hp hr, emit1_eq, hp]

end Sys2Proof.Machine
end

section
/-! PROOFS. The bit packer (43_bitpack.md R161 to R168): ENCODE and END, the encode beat, and the size of a packed stream. -/

namespace Sys2Proof.Machine

variable {s : State}

/-! ## Flush (R167) -/

theorem flush_of_none_held (h : s.accCnt = 0#3) : s.flush = s := if_pos h

theorem flush_of_held (h : s.accCnt ≠ 0#3) :
    s.flush = { s with
      oq := s.oq ++ [s.acc <<< (8 - s.accCnt.toNat)], outCnt := s.outCnt + 1#64, acc := 0#8, accCnt := 0#3 } := if_neg h

/-- After Flush no bit is held. -/
theorem streamBits_flush (s : State) : streamBits s.flush = s.flush.oq.flatMap bitsOf := by simp [streamBits, pendingBits]

/-- The byte that Flush pushes: the held bits, then zeros. -/
theorem bitsOf_flushed (h : s.accCnt ≠ 0#3) :
    bitsOf (s.acc <<< (8 - s.accCnt.toNat)) = pendingBits s ++ List.replicate (8 - s.accCnt.toNat) false := by
  have hpad : (8 - s.accCnt.toNat) % 8 = 8 - s.accCnt.toNat := Nat.mod_eq_of_lt (by bv_omega)
  have hstream := flush_stream s
  rw [streamBits_flush, flush_of_held h, hpad] at hstream
  simpa [streamBits] using hstream

/-! ## END and ENCODE (R161, R166) -/

theorem exec_endPass_of_encode (hp : s.phase = .encode) : exec .endPass s = .next s.endEncode :=
  exec_of_ran ((cmdReady_iff s).2 (.inr (.inr (.inl hp)))) (.inr ⟨hp, rfl⟩)

theorem exec_endPass_of_none_held (hp : s.phase = .encode) (h : s.accCnt = 0#3) :
    exec .endPass s = .next { s with phase := .drain } := by
  rw [exec_endPass_of_encode hp, State.endEncode, flush_of_none_held h]

/-- Settles O50: END in ENCODE is Flush and DRAIN, and the byte that Flush pushes is the held bits and zeros. -/
theorem endClosesThePass : Obligations.EndClosesThePass := by
  unfold Obligations.EndClosesThePass
  refine ⟨fun s hp => exec_endPass_of_count hp, fun s hp h => exec_endPass_of_none_held hp h,
    fun s hp h => ⟨s.acc <<< (8 - s.accCnt.toNat), ?_, bitsOf_flushed h⟩, wrongPhase .endPass⟩
  rw [exec_endPass_of_encode hp, State.endEncode, flush_of_held h]

/-- Settles O48: ENCODE leaves ACC_CNT = 0, with which END pushes nothing. -/
theorem encodeOpensThePass : Obligations.EncodeOpensThePass := by
  unfold Obligations.EncodeOpensThePass
  have hopen : ∀ s, s.phase = .idle → s.codeValid = true → exec .encode s = .next (okWith { s with
      acc := 0#8, accCnt := 0#3, inCnt := 0#64, outCnt := 0#64, phase := .encode } 0#32) :=
    fun s hp hv => exec_of_ran_of_idle hp ⟨hp, hv, rfl⟩
  refine ⟨hopen, fun s hp hv => faulted_of_first_check hp (by simp [hv]) _ _, fun s t hp hv hx => ?_, wrongPhase .encode⟩
  obtain rfl := Host.Outcome.next.inj ((hopen s hp hv).symm.trans hx)
  exact exec_endPass_of_none_held rfl rfl

/-! ## The bytes a pass pushes (10_state.md R35) -/

/-- From `s` to `t` bytes were pushed, if any, and OUT_CNT counted each. -/
def Pushes (s t : State) : Prop := ∃ out, t.oq = s.oq ++ out ∧ t.outCnt = s.outCnt + BitVec.ofNat 64 out.length

section Pushes

variable {t u : State}

theorem pushes_of_eq (hoq : t.oq = s.oq) (hout : t.outCnt = s.outCnt) : Pushes s t := ⟨[], by simp [hoq], by simp [hout]⟩

theorem Pushes.trans (h : Pushes s t) (h' : Pushes t u) : Pushes s u := by
  obtain ⟨out, hoq, hout⟩ := h
  obtain ⟨out', hoq', hout'⟩ := h'
  exact ⟨out ++ out', by rw [hoq', hoq, List.append_assoc], by
    rw [hout', hout, List.length_append, BitVec.ofNat_add, BitVec.add_assoc]⟩

/-- OUT_CNT holds the number of bytes pushed since OQ was empty and OUT_CNT was 0. -/
theorem Pushes.outCnt_eq (h : Pushes s t) (hq : s.oq = []) (hc : s.outCnt = 0#64) : t.outCnt = BitVec.ofNat 64 t.oq.length := by
  obtain ⟨out, hoq, hout⟩ := h
  rw [hout, hoq, hq, hc, List.nil_append, BitVec.zero_add]

/-- A byte taken on din pushes bytes and counts them, whatever the phase. -/
theorem pushes_din (s : State) (b : Byte) : Pushes s (s.din b) := by
  have h := dinStep s b
  generalize hd : s.din b = t at h ⊢
  cases h with
  | packed => exact appendBits_out _ s
  | decoded hp hr => rw [← hd, din_walks hp hr]; exact ⟨_, rfl, rfl⟩
  | headerMore | headerLast => rw [loadHdrByte_frame]; exact pushes_of_eq rfl rfl
  | counted | overflowed | uncoded | waits => exact pushes_of_eq rfl rfl

theorem pushes_dins (input : List Byte) (s : State) : Pushes s (input.foldl State.din s) := by
  induction input generalizing s with
  | nil => exact pushes_of_eq rfl rfl
  | cons b input ih => exact (pushes_din s b).trans (ih _)

theorem pushes_flush (s : State) : Pushes s s.flush := by
  by_cases h : s.accCnt = 0#3
  · rw [flush_of_none_held h]; exact pushes_of_eq rfl rfl
  · rw [flush_of_held h]; exact ⟨_, rfl, rfl⟩

end Pushes

/-- Settles O49: the beat appends the bits of the code one by one, and only the packer's registers and IN_CNT are written. -/
theorem encodeBeatAppendsTheCode : Obligations.EncodeBeatAppendsTheCode := by
  unfold Obligations.EncodeBeatAppendsTheCode
  refine fun s b hp => ⟨fun hb => ?_, fun hb => ?_⟩
  · obtain ⟨-, -, hstream⟩ := din_packs hp hb
    refine ⟨s.din b, rfl, ?_, hstream, pushes_din s b, flush_stream _, flush_accCnt _⟩
    rw [din_of_encode hp, encodeBeat_packs hb, appendBits_frame]
  · rw [din_of_encode hp, encodeBeat_noCode (by simp [hp]) hb]

/-! ## The size of a packed stream (R168) -/

theorem length_codeOf (s : State) (b : Byte) : (s.codeOf b).length = (s.codeLenAt b.toNat).toNat := by simp [State.codeOf]

theorem length_bitsOf (b : Byte) : (bitsOf b).length = 8 := rfl

theorem length_flatMap_bitsOf (bytes : List Byte) : (bytes.flatMap bitsOf).length = 8 * bytes.length := by
  simp [List.length_flatMap, length_bitsOf, Nat.mul_comm]

/-- Flush rounds the stream up to whole bytes: fewer than 8 bits are held before it, and none after it. -/
theorem length_flush_oq (s : State) : s.flush.oq.length = ((streamBits s).length + 7) / 8 := by
  have hheld : (streamBits s).length = 8 * s.oq.length + s.accCnt.toNat := by
    rw [streamBits, List.length_append, length_flatMap_bitsOf]
    simp [pendingBits]
  have hflushed : 8 * s.flush.oq.length = (streamBits s).length + (8 - s.accCnt.toNat) % 8 := by
    rw [← length_flatMap_bitsOf, ← streamBits_flush, flush_stream, List.length_append, List.length_replicate]
  have hlt := s.accCnt.isLt
  omega

/-- A byte whose bits are all 0 is 0x00. -/
theorem eq_zero_of_bitsOf {b : Byte} (h : ∀ x ∈ bitsOf b, x = false) : b = 0x00#8 := by
  apply BitVec.eq_of_getLsbD_eq
  intro k hk
  have hmem : k ∈ [7, 6, 5, 4, 3, 2, 1, 0] := by simp; omega
  rw [BitVec.getLsbD_zero]
  exact h _ (List.mem_map_of_mem hmem)

/-- Settles O51: a pass's stream is the codes of its input, and Flush rounds it up to whole bytes with zeros. -/
theorem packedSizeIsTheRoundedBitCount : Obligations.PackedSizeIsTheRoundedBitCount := by
  unfold Obligations.PackedSizeIsTheRoundedBitCount
  intro s input hin t total
  have hbits : (streamBits (input.foldl State.din (encodeStart s))).length = total := by
    rw [dins_pack (s := encodeStart s) rfl hin]
    simp only [List.length_append, List.length_flatMap, length_codeOf]
    exact Nat.zero_add _
  have hlen : t.oq.length = (total + 7) / 8 := by rw [← hbits]; exact length_flush_oq _
  have hpushes : Pushes (encodeStart s) t := (pushes_dins input _).trans (pushes_flush _)
  refine ⟨hlen, hlen ▸ hpushes.outCnt_eq rfl rfl, fun hzero b hb => eq_zero_of_bitsOf fun x hx => ?_⟩
  obtain ⟨pad, hpad⟩ := packed_bits s hin
  have hmem : x ∈ input.flatMap s.codeOf ++ List.replicate pad false := hpad ▸ List.mem_flatMap.2 ⟨b, hb, hx⟩
  rcases List.mem_append.1 hmem with h | h
  · obtain ⟨a, ha, hxa⟩ := List.mem_flatMap.1 h
    simpa [hzero a ha] using hxa
  · exact List.eq_of_mem_replicate h

end Sys2Proof.Machine
end

section
/-! PROOFS. DECODE (44_bitunpack.md R181), and the walk of the decode beat and of Emit1 inside the tree (R182 to R186). -/

namespace Sys2Proof.Machine

/-! ## DECODE (R181) -/

/-- With symbols to come, the two tests of the tree decide. -/
theorem exec_decode_of_origLen {s : State} (hp : s.phase = .idle) (h0 : s.origLen ≠ 0#64) :
    exec .decode s = require (s.treeValid = true) .seq .decode s (require (s.root ≠ NIL) .noTree .decode s <|
      .next { s.openDecode .decode with cur := s.root }) :=
  (inPhases_idle hp _ _).trans (if_neg h0)

/-- Settles O52: ORIGLEN is looked at before the tree, TREE_VALID before ROOT. -/
theorem decodeOpensByItsThreeCases : Obligations.DecodeOpensByItsThreeCases := by
  unfold Obligations.DecodeOpensByItsThreeCases
  refine ⟨fun s hp h0 => exec_of_ran_of_idle hp ⟨hp, .inl ⟨h0, rfl⟩⟩,
    fun s hp h0 ht hr => exec_of_ran_of_idle hp ⟨hp, .inr ⟨h0, ht, hr, rfl⟩⟩, fun s hp h0 ht => ?_, fun s hp h0 ht hr => ?_,
    wrongPhase .decode⟩
  · rw [exec_decode_of_origLen hp h0, require_neg (by simp [ht]), failed_of_idle hp]
  · rw [exec_decode_of_origLen hp h0, require_pos ht, require_neg (not_not.2 hr), failed_of_idle hp]

/-! ## The walk of a run of bits (R183) -/

section Walk

variable {nodes : List Node} {root n : Idx}

/-- `n` is an allocated internal node (10_state.md R25). -/
def IsInternal (nodes : List Node) (n : Idx) : Prop := n.toNat < nodes.length ∧ (nodeOf nodes n.toNat).isLeaf = false

/-- A walk stands at internal nodes: it turns back to the root where it meets a leaf, and goes on at any other child, whose index is
below its parent's (10_state.md R27 (a)). -/
theorem isInternal_symbolsAlong (h : ArenaOk nodes) (hroot : IsInternal nodes root) (k : Nat) (l : List Bool)
    (hn : IsInternal nodes n) : IsInternal nodes (symbolsAlong nodes root k n l).2 := by
  fun_induction symbolsAlong nodes root k n l with
  | case1 | case2 => exact hn
  | case3 k n x l c hleaf ih => exact ih hroot
  | case4 k n x l c hleaf ih =>
    obtain ⟨hlt, hinternal⟩ := hn
    exact ih ⟨(h.below _ _ (isChild_child x hlt hinternal)).trans hlt, by simpa using hleaf⟩

/-- A walk emits no more symbols than are to come. -/
theorem length_symbolsAlong_le_count (nodes : List Node) (root : Idx) (k : Nat) (n : Idx) (l : List Bool) :
    (symbolsAlong nodes root k n l).1.length ≤ k := by
  fun_induction symbolsAlong nodes root k n l with
  | case1 | case2 => exact Nat.zero_le _
  | case3 k n x l c hleaf ih => exact Nat.succ_le_succ ih
  | case4 k n x l c hleaf ih => exact ih

end Walk

/-! ## Phase DECODE is entered by DECODE alone (10_state.md R41) -/

variable {s t : State}

theorem phase_of_din_decode {b : Byte} (h : (s.din b).phase = .decode) : s.phase = .decode := by
  rw [din_phase, dinMoves] at h
  cases hp : s.phase with
  | decode => rfl
  | count | encode | rdhdr => rw [hp] at h; dsimp only at h; split at h <;> cases h
  | idle | drain | err => rw [hp] at h; cases h

theorem phase_of_internal_decode (h : s.internal.phase = .decode) : s.phase = .decode := by
  rw [internal_phase, internalMoves] at h
  cases hp : s.phase with
  | decode => rfl
  | drain => rw [hp] at h; dsimp only at h; split at h <;> cases h
  | idle | count | encode | rdhdr | err => rw [hp] at h; cases h

/-- A beat or an Emit1 that stays in phase DECODE did not complete the pass (R184). -/
theorem ne_of_not_drained {n len : Count} {p : Phase} (h : (if n = len then .drain else p) = Phase.decode) : n ≠ len := by
  rintro rfl
  rw [if_pos rfl] at h
  cases h

/-! ## The invariant (R182, R184) -/

theorem decodeOk_of_phase (p : Phase) (ht : t.phase = p) (hp : p ≠ .decode) : DecodeOk t := fun h => absurd (ht.symm.trans h) hp

theorem decodeOk_of_internal (htree : s.treeValid = true) (hroot : s.root ≠ NIL) (hlt : s.emitCnt < s.origLen)
    (hl : s.rootIsLeaf = false) (hcur : IsInternal s.nodes s.cur) : DecodeOk s :=
  fun _ => ⟨htree, hroot, hlt, by rw [if_neg (by simp [hl])]; exact hcur⟩

theorem decodeOk_of_leaf (htree : s.treeValid = true) (hroot : s.root ≠ NIL) (hlt : s.emitCnt < s.origLen)
    (hl : s.rootIsLeaf = true) (hcur : s.cur = s.root) : DecodeOk s :=
  fun _ => ⟨htree, hroot, hlt, by rw [if_pos hl]; exact hcur⟩

/-- The pass opens at ROOT. -/
theorem decodeOk_of_cur_root (hf : ForestOk s) (htree : s.treeValid = true) (hroot : s.root ≠ NIL) (hlt : s.emitCnt < s.origLen)
    (hcur : s.cur = s.root) : DecodeOk s := by
  cases hl : s.rootIsLeaf with
  | true => exact decodeOk_of_leaf htree hroot hlt hl hcur
  | false => exact decodeOk_of_internal htree hroot hlt hl ⟨hcur ▸ hf.root_lt hroot, hcur ▸ hl⟩

theorem DecodeOk.isInternal_cur (h : DecodeOk s) (hp : s.phase = .decode) (hl : s.rootIsLeaf = false) :
    IsInternal s.nodes s.cur := by
  obtain ⟨-, -, -, hcur⟩ := h hp
  rwa [if_neg (by simp [hl])] at hcur

/-- The decode beat leaves phase DECODE with the ORIGLEN-th symbol (R184), and until then its walk stands at internal nodes. -/
theorem DecodeOk.din (h : DecodeOk s) (hf : ForestOk s) (b : Byte) : DecodeOk (s.din b) := by
  intro hphase
  have hp := phase_of_din_decode hphase
  cases hl : s.rootIsLeaf with
  | true =>
    rw [din_of_not_ready (by simp [State.dinReady, hp, hl])]
    exact h hp
  | false =>
    obtain ⟨htree, hroot, hlt, -⟩ := h hp
    have hcount : (s.walkAlong (bitsOf b)).1.length ≤ s.origLen.toNat - s.emitCnt.toNat :=
      length_symbolsAlong_le_count _ _ _ _ _
    have hstands : IsInternal s.nodes (s.walkAlong (bitsOf b)).2 :=
      isInternal_symbolsAlong hf.arena ⟨hf.root_lt hroot, hl⟩ _ _ (h.isInternal_cur hp hl)
    rw [din_walks hp hl] at hphase ⊢
    have hmore : s.emitCnt + BitVec.ofNat 64 (s.walkAlong (bitsOf b)).1.length ≠ s.origLen := ne_of_not_drained hphase
    have hless : s.emitCnt + BitVec.ofNat 64 (s.walkAlong (bitsOf b)).1.length < s.origLen := by
      generalize (s.walkAlong (bitsOf b)).1.length = k at hcount hmore ⊢
      bv_omega
    exact decodeOk_of_internal htree hroot hless hl hstands hphase

/-- Emit1 leaves phase DECODE with the ORIGLEN-th symbol (R186), and does not move CUR. -/
theorem DecodeOk.internal (h : DecodeOk s) : DecodeOk s.internal := by
  intro hphase
  have hp := phase_of_internal_decode hphase
  obtain ⟨htree, hroot, hlt, hcur⟩ := h hp
  have hi := internalStep s
  generalize s.internal = t at hi hphase
  cases hi with
  | emits =>
    rw [emit1_eq] at hphase ⊢
    have hmore : s.emitCnt + 1#64 ≠ s.origLen := ne_of_not_drained hphase
    have hless : s.emitCnt + 1#64 < s.origLen := by bv_omega
    exact ⟨htree, hroot, hless, hcur⟩
  | drained => cases hphase
  | rests => exact h hp

theorem DecodeOk.dout (h : DecodeOk s) : DecodeOk s.dout := by
  cases hq : s.oq with
  | nil => rw [dout_of_empty hq]; exact h
  | cons b q => rw [dout_of_cons hq]; exact h

/-- DECODE (R181) emits nothing yet; every other command that is accepted leads into another phase (10_state.md R41, R49). -/
theorem decodeOk_ran {i : Instr} (hf : ForestOk s) (hc : s.cmdReady = true) (hr : Ran i s t) : DecodeOk t := by
  have hready : s.phase ≠ .decode := by rcases (cmdReady_iff s).1 hc with hp | hp | hp | hp <;> simp [hp]
  obtain ⟨-, hmoves, -⟩ := ran_moves hc hr
  cases i with
  | decode =>
    obtain ⟨-, ⟨-, rfl⟩ | ⟨hlen, htree, hroot, rfl⟩⟩ := hr
    · exact decodeOk_of_phase .drain rfl (by decide)
    · have hpos : 0#64 < s.origLen := by bv_omega
      exact decodeOk_of_cur_root (hf.congr rfl rfl rfl) htree hroot hpos rfl
  | count => exact decodeOk_of_phase .count hmoves (by decide)
  | encode => exact decodeOk_of_phase .encode hmoves (by decide)
  | rdhdr => exact decodeOk_of_phase .rdhdr hmoves (by decide)
  | wrhdr => exact decodeOk_of_phase .drain hmoves (by decide)
  | clr => exact decodeOk_of_phase .idle hmoves (by decide)
  | endPass => exact decodeOk_of_phase _ hmoves (by rw [commandMoves]; split <;> decide)
  | _ => exact decodeOk_of_phase s.phase hmoves hready

/-! ## Every step -/

theorem forestOk_exec {i : Instr} (hf : ForestOk s) (hx : exec i s = .next t) : ForestOk t := by
  rcases exec_cases hx with ⟨-, rfl⟩ | ⟨-, hr⟩ | ⟨-, c, -, rfl⟩
  · exact hf
  · exact forestOk_ran hf hr
  · exact (sameTree_failed s i c).forestOk hf

theorem decodeOk_exec {i : Instr} (hf : ForestOk s) (h : DecodeOk s) (hx : exec i s = .next t) : DecodeOk t := by
  rcases exec_cases hx with ⟨-, rfl⟩ | ⟨hc, hr⟩ | ⟨-, c, -, rfl⟩
  · exact h
  · exact decodeOk_ran hf hc hr
  · exact decodeOk_of_phase .err (failed_phase s i c) (by decide)

/-- Settles O58: DECODE alone opens the pass, at ROOT, a decode beat walks from an internal node to an internal node, and the pass
ends with the ORIGLEN-th symbol. A walk stays in the arena only if that is a forest, so each step of the edge keeps both. -/
theorem stepKeepsTheWalkInsideTheTree : Obligations.StepKeepsTheWalkInsideTheTree := by
  unfold Obligations.StepKeepsTheWalkInsideTheTree
  intro s t hf hd h
  have hboth : ForestOk t ∧ DecodeOk t :=
    step_keeps (P := fun u => ForestOk u ∧ DecodeOk u) ⟨hf, hd⟩ h
      (edge := fun _ _ ⟨hf, hd⟩ => ⟨hf.congr rfl rfl rfl, hd⟩)
      (cleared := fun _ _ => ⟨forestOk_of_nil rfl rfl rfl, decodeOk_of_phase .idle rfl (by decide)⟩)
      (internal := fun s ⟨hf, hd⟩ => ⟨(sameTree_internal s).forestOk hf, hd.internal⟩)
      (dout := fun s ⟨hf, hd⟩ => ⟨(sameTree_dout s).forestOk hf, hd.dout⟩)
      (din := fun s b ⟨hf, hd⟩ => ⟨(sameTree_din s b).forestOk hf, hd.din hf b⟩)
      (exec := fun _ _ _ ⟨hf, hd⟩ hx => ⟨forestOk_exec hf hx, decodeOk_exec hf hd hx⟩)
      (illegal := fun s w ⟨hf, _⟩ _ =>
        ⟨(sameTree_cmdFault s w _).forestOk hf, decodeOk_of_phase .err (s.cmdFault_phase w _) (by decide)⟩)
  exact hboth.2

end Sys2Proof.Machine
end

section
/-! PROOFS. The frequency counter and the entry into the header read (45_header.md R196, R198, R204): COUNT, its beat, RDHDR. -/

namespace Sys2Proof.Machine

/-- Settles O29: COUNT drops the tree, and every entry of the table it leaves is 0. -/
theorem countOpensAnEmptyPass : Obligations.CountOpensAnEmptyPass := by
  unfold Obligations.CountOpensAnEmptyPass
  refine ⟨fun s hp => ⟨Vector.replicate 256 0#32, exec_of_ran_of_idle hp ⟨hp, rfl⟩, fun a ha => ?_⟩, wrongPhase .count⟩
  exact Vector.getElem?_replicate_of_lt ha

/-- Settles O30: the beat either counts, writing one entry of the table, or overflows, recording the fault alone. -/
theorem countBeatCountsOneByte : Obligations.CountBeatCountsOneByte := by
  unfold Obligations.CountBeatCountsOneByte
  refine fun s b hp => ⟨fun hf => ⟨s.freq.setIfInBounds b.toNat (s.freqAt b.toNat + 1#32), ?_, ?_, fun a ha => ?_⟩, fun hf => ?_⟩
  · exact (din_of_count hp b).trans (countBeat_counts hf)
  · exact Vector.getElem?_setIfInBounds_self_of_lt b.isLt
  · exact Vector.getElem?_setIfInBounds_ne ha.symm
  · exact (din_of_count hp b).trans (countBeat_overflows (by simp [hp]) hf)

/-- Settles O32: RDHDR drops the tree and opens its phase, the response deferred. -/
theorem rdhdrOpensTheHeaderRead : Obligations.RdhdrOpensTheHeaderRead := by
  unfold Obligations.RdhdrOpensTheHeaderRead
  exact ⟨fun s hp => exec_of_ran_of_idle hp ⟨hp, rfl⟩, wrongPhase .rdhdr⟩

end Sys2Proof.Machine
end

section
/-! PROOFS. Register access (46_access.md R216 to R232): NOP, WRLEN and the array reads RDF, RDN, RDH and RDC; and what a command word
does in phase ERR (60_exceptions.md R236, R247). -/

namespace Sys2Proof.Machine

variable {i : Instr} {s t : State}

/-! ## The array reads in phases IDLE and ERR (30_encoding.md R96) -/

section IdleOrErr

variable (hp : s.phase = .idle ∨ s.phase = .err)
include hp

theorem cmdReady_of_idle_or_err : s.cmdReady = true := (cmdReady_iff s).2 (hp.imp_right fun h => .inr (.inr h))

theorem exec_of_ran_of_idle_or_err (h : Ran i s t) : exec i s = .next t := exec_of_ran (cmdReady_of_idle_or_err hp) h

/-- The first check of an array read fails (30_encoding.md R92). -/
theorem failed_of_first_check {c : Prop} [Decidable c] (hc : ¬c) (code : ErrCode) (k : Out) :
    inPhases idleOrErr i s (require c code i s k) = .next (failed s i code) := by
  rw [inPhases_idleOrErr hp, require_neg hc]

/-- One of two checks with the same fault code fails. -/
theorem failed_of_either_check {c c' : Prop} [Decidable c] [Decidable c'] (h : ¬(c ∧ c')) (code : ErrCode) (k : Out) :
    inPhases idleOrErr i s (require c code i s (require c' code i s k)) = .next (failed s i code) := by
  by_cases hc : c
  · rw [require_pos hc, failed_of_first_check hp fun hc' => h ⟨hc, hc'⟩]
  · exact failed_of_first_check hp hc _ _

end IdleOrErr

/-- Settles O24: RDF reads the table behind its range check. -/
theorem rdfReadsOneFrequency : Obligations.RdfReadsOneFrequency := by
  unfold Obligations.RdfReadsOneFrequency
  exact ⟨fun s a hp ha => exec_of_ran_of_idle_or_err hp ⟨hp, ha, rfl⟩,
    fun s a hp ha => failed_of_first_check hp (Nat.not_lt.2 ha) _ _, fun a => wrongPhase (.rdf a)⟩

/-- Settles O27: RDH reads the live part of the heap array behind its range check. -/
theorem rdhReadsOneHeapPosition : Obligations.RdhReadsOneHeapPosition := by
  unfold Obligations.RdhReadsOneHeapPosition
  refine ⟨fun s a hp ha => ?_, fun s a hp ha => failed_of_first_check hp (Nat.not_lt.2 ha) _ _, fun a => wrongPhase (.rdh a)⟩
  rw [BitVec.ofNat_toNat]
  exact exec_of_ran_of_idle_or_err hp ⟨hp, ha, rfl⟩

/-! ### Fields of an arena entry (R226) -/

theorem field_freq_low (n : Node) : n.field 0 = BitVec.ofNat 32 (n.freq.toNat % 2 ^ 32) := by
  apply BitVec.eq_of_toNat_eq
  simp only [Node.field, BitVec.extractLsb'_toNat, BitVec.toNat_ofNat, Nat.shiftRight_zero, Nat.mod_mod]

theorem field_freq_high (n : Node) : n.field 1 = BitVec.ofNat 32 (n.freq.toNat / 2 ^ 32) := by
  have hlt := n.freq.isLt
  apply BitVec.eq_of_toNat_eq
  simp only [Node.field, BitVec.toNat_setWidth, BitVec.extractLsb'_toNat, BitVec.toNat_ofNat, Nat.shiftRight_eq_div_pow]
  omega

theorem field_owned (n : Node) : n.field 5 = if n.owned then 1#32 else 0#32 := by
  rw [Node.field]
  cases n.owned <;> rfl

/-- Settles O26: RDN reads one field of the entry behind its two range checks. -/
theorem rdnReadsOneNodeField : Obligations.RdnReadsOneNodeField := by
  unfold Obligations.RdnReadsOneNodeField
  refine ⟨fun s a hp ha => ?_, fun s a sel hp h => failed_of_either_check hp (by omega) _ _, fun a sel => wrongPhase (.rdn a sel)⟩
  have hread : ∀ sel < 6, exec (.rdn a sel) s = .next (okWith s ((s.nodeAt a).field sel)) := fun sel hsel =>
    exec_of_ran_of_idle_or_err hp ⟨hp, ha, hsel, rfl⟩
  rw [← field_freq_low, ← field_freq_high, ← field_owned, BitVec.ofNat_toNat, BitVec.ofNat_toNat, BitVec.ofNat_toNat]
  exact ⟨hread 0 (by decide), hread 1 (by decide), hread 2 (by decide), hread 3 (by decide), hread 4 (by decide),
    hread 5 (by decide)⟩

/-! ### Words of a code (R232) -/

theorem codeWord_zero (s : State) (a : Nat) : s.codeWord a 0 = BitVec.ofNat 32 (s.codeLenAt a).toNat := by
  rw [BitVec.ofNat_toNat]
  exact if_pos rfl

/-- Bit 31 of word `sel` is bit `255 - 32*(sel-1)` of the code, and the bits below follow. -/
theorem getLsbD_codeWord (s : State) (a : Nat) {sel k : Nat} (hpos : 1 ≤ sel) (hsel : sel < 9) (hk : k < 32) :
    (s.codeWord a sel).getLsbD (31 - k) = (s.codeBitsAt a).getLsbD (255 - 32 * (sel - 1) - k) := by
  have hbit : 224 - 32 * (sel - 1) + (31 - k) = 255 - 32 * (sel - 1) - k := by omega
  have hin : 31 - k < 32 := by omega
  rw [State.codeWord, if_neg (by omega), BitVec.getLsbD_extractLsb', hbit]
  simp [hin]

/-- Settles O28: RDC looks at CODE_VALID before its two range checks, and reads the length or a word of the bits. -/
theorem rdcReadsOneCode : Obligations.RdcReadsOneCode := by
  unfold Obligations.RdcReadsOneCode
  refine ⟨fun s a hp hv ha => ?_, fun s a sel hp hv ha hpos hsel => ⟨s.codeWord a sel, ?_, fun k hk => ?_⟩,
    fun s a sel hp hv h => inPhases_require_of_pass hv (failed_of_either_check hp (by simp only [Config.nSyms]; omega) _ _),
    fun s a sel hp hv => failed_of_first_check hp (by simp [hv]) _ _, fun a sel => wrongPhase (.rdc a sel)⟩
  · rw [← codeWord_zero]
    exact exec_of_ran_of_idle_or_err hp ⟨hp, hv, ha, by decide, rfl⟩
  · exact exec_of_ran_of_idle_or_err hp ⟨hp, hv, ha, hsel, rfl⟩
  · exact getLsbD_codeWord s a hpos hsel hk

/-! ## NOP and WRLEN -/

/-- Settles O19: NOP answers behind its phase test. -/
theorem nopAnswersAndChangesNothing : Obligations.NopAnswersAndChangesNothing := by
  unfold Obligations.NopAnswersAndChangesNothing
  exact ⟨fun s hp => exec_of_ran_of_idle hp ⟨hp, rfl⟩, wrongPhase .nop⟩

/-- Two words side by side, as a number. -/
theorem append_eq_ofNat (hi lo : Data) : (hi ++ lo : Count) = BitVec.ofNat 64 (hi.toNat * 2 ^ 32 + lo.toNat) := by
  have hhi := hi.isLt
  have hlo := lo.isLt
  apply BitVec.eq_of_toNat_eq
  rw [BitVec.toNat_append, ← Nat.shiftLeft_add_eq_or_of_lt hlo, Nat.shiftLeft_eq, BitVec.toNat_ofNat, Nat.mod_eq_of_lt (by omega)]

theorem withHalf_zero (v : Count) (d : Data) : withHalf v 0 d = BitVec.ofNat 64 (v.toNat / 2 ^ 32 * 2 ^ 32 + d.toNat) := by
  rw [withHalf, if_pos rfl, append_eq_ofNat, toNat_high]

theorem withHalf_one (v : Count) (d : Data) : withHalf v 1 d = BitVec.ofNat 64 (d.toNat * 2 ^ 32 + v.toNat % 2 ^ 32) := by
  rw [withHalf, if_neg (by decide), append_eq_ofNat, toNat_low]

/-- Settles O23: WRLEN puts its data beside the half that stays. -/
theorem wrlenLoadsOneHalf : Obligations.WrlenLoadsOneHalf := by
  unfold Obligations.WrlenLoadsOneHalf
  refine ⟨fun s d hp => ?_, fun s d hp => ?_, fun s a d hp ha => faulted_of_first_check hp (Nat.not_lt.2 ha) _ _,
    fun a d => wrongPhase (.wrlen a d)⟩
  · rw [← withHalf_zero]
    exact exec_of_ran_of_idle hp ⟨hp, by decide, rfl⟩
  · rw [← withHalf_one]
    exact exec_of_ran_of_idle hp ⟨hp, by decide, rfl⟩

/-! ## Phase ERR (60_exceptions.md R236, R247) -/

/-- A read command that runs answers with ERR = 0, and one that fails a check answers with the code. -/
theorem exec_read_of_err (hp : s.phase = .err) (hread : isRead i = true) :
    ∃ c d, exec i s = .next (answered s c d) ∧ (c ≠ 0#4 → d = 0#32) := by
  rcases exec_came i s with ⟨hwait, -⟩ | ⟨-, ⟨t, hx, hran⟩ | ⟨c, -, hx⟩ | ⟨rfl, -⟩⟩
  · exact absurd (hwait.symm.trans (cmdReady_of_idle_or_err (.inr hp))) (by decide)
  · obtain ⟨d, rfl⟩ := ran_read hread hran
    exact ⟨0#4, d, hx, fun h => absurd rfl h⟩
  · rw [failed_of_err hp] at hx
    exact ⟨c.toBits, 0#32, hx, fun _ => rfl⟩
  · cases hread

/-- The column ERR of R96 has no other command. -/
theorem exec_other_of_err (hp : s.phase = .err) (hclr : i ≠ .clr) (hread : ¬isRead i = true) :
    exec i s = .next (refusedWith s .seq) := by
  have hwrong : allowedIn i s.phase = false :=
    Bool.eq_false_iff.2 fun ha => (read_or_clr_of_allowedIn_err (hp ▸ ha)).elim hread hclr
  rw [wrongPhase i s (cmdReady_of_idle_or_err (.inr hp)) hwrong, failed_of_err hp]

theorem cmdStep_illegal_of_err {w : CmdWord} {r : Illegal} (hp : s.phase = .err) (hd : decode w = .illegal r) :
    cmdStep w s = .next (refusedWith s .illCmd) := by
  rw [cmdStep_of_illegal hd, if_pos (cmdReady_of_idle_or_err (.inr hp)), State.cmdFault, State.recordFault_of_err _ _ _ hp]
  rfl

/-- Settles O14: an illegal word is refused, CLR clears, a read runs or fails a check, and every other command meets its phase test. -/
theorem errPhaseRunsOnlyClrAndReads : Obligations.ErrPhaseRunsOnlyClrAndReads := by
  unfold Obligations.ErrPhaseRunsOnlyClrAndReads
  intro s w hp
  split
  · next hd => exact cmdStep_illegal_of_err hp hd
  · next hd =>
    rw [cmdStep_of_instr hd]
    exact ⟨okWith s.cleared 0#32, exec_of_ran_of_idle_or_err (.inr hp) ⟨.inr hp, rfl⟩, rfl, rfl, rfl⟩
  · next i hclr hd =>
    rw [cmdStep_of_instr hd]
    split
    · next hread => exact exec_read_of_err hp hread
    · next hread => exact exec_other_of_err hp hclr hread

end Sys2Proof.Machine
end

section
/-! PROOFS. Faults are precise (60_exceptions.md R242 to R246): what a faulting command and a faulting beat write. -/

namespace Sys2Proof.Machine

variable {s : State}

/-! ## Commands -/

/-- No row of R41 for a command that does not fault leads into ERR. -/
theorem commandMoves_ne_err (hp : s.phase ≠ .err) (i : Instr) : commandMoves s i ≠ .err := by
  cases i with
  | count | encode | rdhdr | wrhdr | clr => exact nofun
  | decode | endPass => rw [commandMoves]; split <;> exact nofun
  | nop | rdsr | wrlen | rdf | wrf | build | gencode | nleaf | nmrg | happ | hins | hext | hbld | setroot | rdn | rdh | rdc =>
    exact hp

/-- Settles O11: a command that waits or runs does not reach ERR, so one of its checks failed. -/
theorem commandFaultsArePrecise : Obligations.CommandFaultsArePrecise := by
  unfold Obligations.CommandFaultsArePrecise
  intro i s t hp hx ht
  rcases exec_cases hx with ⟨-, rfl⟩ | ⟨hc, hr⟩ | ⟨-, c, hmem, rfl⟩
  · exact absurd ht hp
  · obtain ⟨-, hmoves, -⟩ := ran_moves hc hr
    exact absurd (hmoves.symm.trans ht) (commandMoves_ne_err hp i)
  · exact ⟨c, hmem, failed_of_ne_err hp i c⟩

/-! ## Beats -/

/-- The two rows of R41 that lead a `Din` step into ERR. -/
theorem overflow_or_noCode_of_dinMoves {b : Byte} (hp : s.phase ≠ .err) (h : dinMoves s b = .err) :
    (s.phase = .count ∧ s.freqAt b.toNat = 0xFFFFFFFF#32) ∨ (s.phase = .encode ∧ s.codeLenAt b.toNat = 0#8) := by
  unfold dinMoves at h
  cases hphase : s.phase with
  | count => exact .inl ⟨rfl, by simpa [hphase] using h⟩
  | encode => exact .inr ⟨rfl, by simpa [hphase] using h⟩
  | rdhdr | decode => rw [hphase] at h; dsimp only at h; split at h <;> cases h
  | idle | drain => rw [hphase] at h; cases h
  | err => exact absurd hphase hp

/-- Settles O12: the phase after the byte tells the faulting beat, which is known in full; the rest holds in any state of phase ERR. -/
theorem beatFaultsArePrecise : Obligations.BeatFaultsArePrecise := by
  unfold Obligations.BeatFaultsArePrecise
  intro s b hp herr
  obtain ⟨hphase, hcode, -, -⟩ := status_words (s.din b)
  rw [herr] at hphase
  refine ⟨?_, by rw [State.errPin, herr]; rfl, by rw [State.dinReady, herr], exec_other_of_err herr (by decide) (by decide),
    exec_of_ran_of_idle_or_err (.inr herr) ⟨by decide, rfl⟩, hphase, hcode⟩
  rcases overflow_or_noCode_of_dinMoves hp (din_phase s b ▸ herr) with ⟨hcount, hfull⟩ | ⟨hencode, hnone⟩
  · exact .inl ⟨hcount, hfull, (din_of_count hcount b).trans (countBeat_overflows hp hfull)⟩
  · exact .inr ⟨hencode, hnone, (din_of_encode hencode b).trans (encodeBeat_noCode hp hnone)⟩

end Sys2Proof.Machine
end
